-- ==== Sys2Proof/Word.lean ====
section
/-! DEFINITION. The widths of the block's data: spec/00_scope.md rule R8 (u8, u32, u64 are unsigned) and R5. -/

namespace Sys2Proof

/-- u8: a RAM, VRAM or key-latch element, a timer count (R20, R50). -/
abbrev Byte := BitVec 8

/-- u32: an elapsed time `delta`, a timer accumulator, a response's value field (R5, R78). -/
abbrev Half := BitVec 32

/-- u64: a command, payload, response or data word (R71, R78, R79). -/
abbrev Word := BitVec 64

end Sys2Proof
end

