-- ==== Sys2Proof/Syntax.lean ====
section
/-! DEFINITION. The abstract commands of spec/30_encoding.md rule R70, one constructor per row of spec/opcode_table.json. -/

namespace Sys2Proof

/-- A command of the bundle (R70). An index is a `Nat`, because the source types it `usize` (D21); a value, a key
state, a count and SETKEY's key code are u8; a delta is u32. -/
inductive Instr where
  /-- `SETKEY code, state` (R140) -/
  | setkey (code state : Byte)
  /-- `READKEY code` (R141) -/
  | readkey (code : Nat)
  /-- `READRAM addr` (R150) -/
  | readram (addr : Nat)
  /-- `WRITERAM addr, value` (R151) -/
  | writeram (addr : Nat) (value : Byte)
  /-- `READVRAM addr` (R152) -/
  | readvram (addr : Nat)
  /-- `WRITEVRAM addr, value` (R153) -/
  | writevram (addr : Nat) (value : Byte)
  /-- `XORVRAM addr, value` (R154) -/
  | xorvram (addr : Nat) (value : Byte)
  /-- `GETVRAM` (R156) -/
  | getvram
  /-- `LOADROM data` (R157) -/
  | loadrom (data : List Byte)
  /-- `GETDELAY` (R110) -/
  | getdelay
  /-- `SETDELAY v` (R111) -/
  | setdelay (v : Byte)
  /-- `GETSOUND` (R112) -/
  | getsound
  /-- `SETSOUND v` (R113) -/
  | setsound (v : Byte)
  /-- `PLAYSOUND` (R114) -/
  | playsound
  /-- `ADVANCE delta` (R115) -/
  | advance (delta : Half)
  /-- `STEP delta` (R181) -/
  | step (delta : Half)
  deriving DecidableEq, Repr

end Sys2Proof
end

