-- ==== Sys2Proof/WellFormed.lean ====
section
/-! DEFINITION. Which abstract commands the encoding of spec/30_encoding.md can carry (R71, R72, R76, R82). -/

namespace Sys2Proof

/-- An index fits the 24 bits of `cmd[55:32]` (R72, R82: "an index of 2^24 or more" is an assembly error). -/
def indexFits (addr : Nat) : Bool := decide (addr < 2 ^ 24)

/-- A ROM length fits the 32 bits of `cmd[31:0]` (R72: `L` is 0 .. 2^32-1). -/
def lengthFits (data : List Byte) : Bool := decide (data.length < 2 ^ 32)

/-- The command can be encoded. Operands typed u8 or u32 always fit their fields; an index and a ROM length may not. -/
def Instr.wellFormed : Instr → Bool
  | .setkey _ _ => true
  | .readkey code => indexFits code
  | .readram addr => indexFits addr
  | .writeram addr _ => indexFits addr
  | .readvram addr => indexFits addr
  | .writevram addr _ => indexFits addr
  | .xorvram addr _ => indexFits addr
  | .getvram => true
  | .loadrom data => lengthFits data
  | .getdelay => true
  | .setdelay _ => true
  | .getsound => true
  | .setsound _ => true
  | .playsound => true
  | .advance _ => true
  | .step _ => true

end Sys2Proof
end

