-- ==== Sys2Proof/Decode.lean ====
section
/-! DEFINITION. The decoder and the encoder of spec/30_encoding.md: the command word (R71 to R75), LOADROM's payload (R76,
R77), the framing of a port's words, and the same bytes packed for a response (R79). -/

namespace Sys2Proof

/-! ## The fields of a command word (R71, R72: every operand is zero-extended) -/

/-- `op = cmd[63:56]` -/
def opField (w : Word) : Byte := w.extractLsb' 56 8

/-- `a = cmd[55:32]` -/
def aField (w : Word) : BitVec 24 := w.extractLsb' 32 24

/-- `d = cmd[31:0]` -/
def dField (w : Word) : Half := w.extractLsb' 0 32

/-- The u8 in `a[7:0]` = `cmd[39:32]` -/
def aByte (w : Word) : Byte := w.extractLsb' 32 8

/-- `cmd[55:40]`, reserved where `a` carries a u8 -/
def aHigh (w : Word) : BitVec 16 := w.extractLsb' 40 16

/-- The u8 in `d[7:0]` = `cmd[7:0]` -/
def dByte (w : Word) : Byte := w.extractLsb' 0 8

/-- `cmd[31:8]`, reserved where `d` carries a u8 -/
def dHigh (w : Word) : BitVec 24 := w.extractLsb' 8 24

/-! ## The opcode map (R74) -/

/-- One row of R74's table: the command's number with the table's match and mask columns. -/
structure Row where
  op : Byte
  mtch : Word
  mask : Word
  deriving DecidableEq, Repr

/-- R74's table, row by row. -/
def opcodeMap : List Row :=
  [ ⟨0x01#8, 0x0100000000000000#64, 0xFFFFFF00FFFFFF00#64⟩,   -- SETKEY
    ⟨0x02#8, 0x0200000000000000#64, 0xFF000000FFFFFFFF#64⟩,   -- READKEY
    ⟨0x10#8, 0x1000000000000000#64, 0xFF000000FFFFFFFF#64⟩,   -- READRAM
    ⟨0x11#8, 0x1100000000000000#64, 0xFF000000FFFFFF00#64⟩,   -- WRITERAM
    ⟨0x12#8, 0x1200000000000000#64, 0xFF000000FFFFFFFF#64⟩,   -- READVRAM
    ⟨0x13#8, 0x1300000000000000#64, 0xFF000000FFFFFF00#64⟩,   -- WRITEVRAM
    ⟨0x14#8, 0x1400000000000000#64, 0xFF000000FFFFFF00#64⟩,   -- XORVRAM
    ⟨0x15#8, 0x1500000000000000#64, 0xFFFFFFFFFFFFFFFF#64⟩ ] ++ -- GETVRAM
  [ ⟨0x16#8, 0x1600000000000000#64, 0xFFFFFFFF00000000#64⟩,   -- LOADROM
    ⟨0x20#8, 0x2000000000000000#64, 0xFFFFFFFFFFFFFFFF#64⟩,   -- GETDELAY
    ⟨0x21#8, 0x2100000000000000#64, 0xFFFFFFFFFFFFFF00#64⟩,   -- SETDELAY
    ⟨0x22#8, 0x2200000000000000#64, 0xFFFFFFFFFFFFFFFF#64⟩,   -- GETSOUND
    ⟨0x23#8, 0x2300000000000000#64, 0xFFFFFFFFFFFFFF00#64⟩,   -- SETSOUND
    ⟨0x24#8, 0x2400000000000000#64, 0xFFFFFFFFFFFFFFFF#64⟩,   -- PLAYSOUND
    ⟨0x25#8, 0x2500000000000000#64, 0xFFFFFFFF00000000#64⟩,   -- ADVANCE
    ⟨0x30#8, 0x3000000000000000#64, 0xFFFFFFFF00000000#64⟩ ]  -- STEP

/-- Why a word is no command (R204's causes that decoding finds). -/
inductive IllegalWord where
  /-- A reserved `op` (R75). -/
  | reservedOp
  /-- A reserved bit is set (R73). -/
  | reservedBit
  /-- A LOADROM padding byte is not zero (R77). -/
  | paddingSet
  deriving DecidableEq, Repr

/-- What a word with its payload decodes to: exactly one command, or `IllegalCommand` (R75). -/
inductive Decoded where
  | command (i : Instr)
  | illegal (why : IllegalWord)
  deriving DecidableEq, Repr

/-- The row a word decodes to: the one with `cmd and mask = match` (R74). -/
def rowOf (w : Word) : Option Row := opcodeMap.find? (fun r => w &&& r.mask == r.mtch)

/-! ## Payload words (R76, R77) -/

/-- The number of payload words after a first word: `ceil(L / 8)` for `op = 0x16`, whatever its other fields hold, and none
for every other word (R76). -/
def payloadCount (w : Word) : Nat := if opField w = 0x16#8 then ((dField w).toNat + 7) / 8 else 0

/-- The eight bytes of a word, the first in the most significant byte (R77). -/
def bytesOfWord (w : Word) : List Byte :=
  [w.extractLsb' 56 8, w.extractLsb' 48 8, w.extractLsb' 40 8, w.extractLsb' 32 8,
   w.extractLsb' 24 8, w.extractLsb' 16 8, w.extractLsb' 8 8, w.extractLsb' 0 8]

/-- Eight bytes as a word, the first in the most significant byte (R77, R79). -/
def wordOfBytes (b0 b1 b2 b3 b4 b5 b6 b7 : Byte) : Word := b0 ++ b1 ++ b2 ++ b3 ++ b4 ++ b5 ++ b6 ++ b7

/-- The bytes of the payload words, in order (R77). -/
def unpackWords : List Word → List Byte
  | [] => []
  | w :: ws => bytesOfWord w ++ unpackWords ws

/-- Bytes as words, eight to a word; the bytes missing from the last word are zero (R77, R79). -/
def packWords : List Byte → List Word
  | b0 :: b1 :: b2 :: b3 :: b4 :: b5 :: b6 :: b7 :: rest => wordOfBytes b0 b1 b2 b3 b4 b5 b6 b7 :: packWords rest
  | [] => []
  | short =>
    [wordOfBytes (short.getD 0 0#8) (short.getD 1 0#8) (short.getD 2 0#8) (short.getD 3 0#8)
      (short.getD 4 0#8) (short.getD 5 0#8) (short.getD 6 0#8) 0#8]

/-- LOADROM's operand: the first `L` bytes of its payload, the rest of which is padding that must be zero (R77). -/
def decodeRom (w : Word) (payload : List Word) : Decoded :=
  let bytes := unpackWords payload
  let len := (dField w).toNat
  if (bytes.drop len).all (· == 0#8) then .command (.loadrom (bytes.take len)) else .illegal .paddingSet

/-! ## The decoder (R74, R75): total, every word a command or illegal -/

/-- The command of a row of R74, its operands as R72 assembles them. The payload is LOADROM's. -/
def commandOf (r : Row) (w : Word) (payload : List Word) : Decoded :=
  match r.op.toNat with
  | 0x01 => .command (.setkey (aByte w) (dByte w))
  | 0x02 => .command (.readkey (aField w).toNat)
  | 0x10 => .command (.readram (aField w).toNat)
  | 0x11 => .command (.writeram (aField w).toNat (dByte w))
  | 0x12 => .command (.readvram (aField w).toNat)
  | 0x13 => .command (.writevram (aField w).toNat (dByte w))
  | 0x14 => .command (.xorvram (aField w).toNat (dByte w))
  | 0x15 => .command .getvram
  | 0x16 => decodeRom w payload
  | 0x20 => .command .getdelay
  | 0x21 => .command (.setdelay (dByte w))
  | 0x22 => .command .getsound
  | 0x23 => .command (.setsound (dByte w))
  | 0x24 => .command .playsound
  | 0x25 => .command (.advance (dField w))
  | 0x30 => .command (.step (dField w))
  | _ => .illegal .reservedOp

/-- Decode a command word with the payload words that follow it (exactly `payloadCount w` of them). -/
def decodeCommand (w : Word) (payload : List Word) : Decoded :=
  match rowOf w with
  | some r => commandOf r w payload
  | none => if opcodeMap.any (fun r => r.op == opField w) then .illegal .reservedBit else .illegal .reservedOp

/-! ## Framing (R76): how a port's words fall into commands -/

/-- What stands at the front of a port's pending words. -/
inductive Fetched where
  /-- No whole command has arrived: no word, or a LOADROM whose payload is not all there. -/
  | waiting
  /-- A command, and the words after it. -/
  | command (i : Instr) (rest : List Word)
  /-- A word that is no command, and the words after it and its payload. -/
  | illegal (word : Word) (rest : List Word)
  deriving DecidableEq, Repr

/-- Take the first command off a port's pending words. The payload words are consumed whether or not the command is
legal (R76). -/
def fetch : List Word → Fetched
  | [] => .waiting
  | w :: rest =>
    if rest.length < payloadCount w then .waiting
    else
      match decodeCommand w (rest.take (payloadCount w)) with
      | .command i => .command i (rest.drop (payloadCount w))
      | .illegal _ => .illegal w (rest.drop (payloadCount w))

/-! ## The encoder (R71, R72, R74, R76, R77) -/

/-- A command word from its fields (R71). -/
def encodeFields (op : Byte) (a : BitVec 24) (d : Half) : Word := op ++ a ++ d

/-- The first word of a command (R74). -/
def encodeHeader : Instr → Word
  | .setkey code state => encodeFields 0x01#8 (code.setWidth 24) (state.setWidth 32)
  | .readkey code => encodeFields 0x02#8 (BitVec.ofNat 24 code) 0#32
  | .readram addr => encodeFields 0x10#8 (BitVec.ofNat 24 addr) 0#32
  | .writeram addr value => encodeFields 0x11#8 (BitVec.ofNat 24 addr) (value.setWidth 32)
  | .readvram addr => encodeFields 0x12#8 (BitVec.ofNat 24 addr) 0#32
  | .writevram addr value => encodeFields 0x13#8 (BitVec.ofNat 24 addr) (value.setWidth 32)
  | .xorvram addr value => encodeFields 0x14#8 (BitVec.ofNat 24 addr) (value.setWidth 32)
  | .getvram => encodeFields 0x15#8 0#24 0#32
  | .loadrom data => encodeFields 0x16#8 0#24 (BitVec.ofNat 32 data.length)
  | .getdelay => encodeFields 0x20#8 0#24 0#32
  | .setdelay v => encodeFields 0x21#8 0#24 (v.setWidth 32)
  | .getsound => encodeFields 0x22#8 0#24 0#32
  | .setsound v => encodeFields 0x23#8 0#24 (v.setWidth 32)
  | .playsound => encodeFields 0x24#8 0#24 0#32
  | .advance delta => encodeFields 0x25#8 0#24 delta
  | .step delta => encodeFields 0x30#8 0#24 delta

/-- The payload words of a command: LOADROM's bytes packed (R77), none for every other command. -/
def encodePayload : Instr → List Word
  | .loadrom data => packWords data
  | .setkey _ _ | .readkey _ | .readram _ | .writeram _ _ | .readvram _ | .writevram _ _ | .xorvram _ _ | .getvram => []
  | .getdelay | .setdelay _ | .getsound | .setsound _ | .playsound | .advance _ | .step _ => []

/-- The words of a well-formed command. -/
def encode (i : Instr) : List Word := encodeHeader i :: encodePayload i

/-! ## The opcode table's numbering -/

/-- The words of an instruction whose bits are `w`, bit 0 the least significant bit of the first word: the first word and
as many more as it asks for, the bits from `nbits` up being zero. -/
def tableWords (nbits w : Nat) : List Word :=
  let bits := w % 2 ^ nbits
  let first := BitVec.ofNat 64 bits
  first :: (List.range (payloadCount first)).map (fun k => BitVec.ofNat 64 (bits >>> (64 * (k + 1))))

/-- The instruction the decoder reads from those words. -/
def decodeTableWord (nbits w : Nat) : Option Instr :=
  match fetch (tableWords nbits w) with
  | .command i _ => some i
  | _ => none

end Sys2Proof
end

