-- ==== Sys2Proof/Config.lean ====
section
/-! DEFINITION. What the construction of a bundle fixes (spec/00_scope.md R5, R6; spec/10_state.md R38), the free values of
the model, and the form in which the external processor (spec/43_step.md R180) is given to it. -/

namespace Sys2Proof

/-- `TICK_MODE` (R5, D3): `drain` is normative (R100); `single` is the losing reading of conflict C1, kept as a
parameter value so that claims can be stated for both (R101). -/
inductive TickMode where
  | drain
  | single
  deriving DecidableEq, Repr

/-- One processor instruction (R180: `ProcAction`), as plain data.
DESIGN CHOICE (log entry 6): the continuation `k : Response → ProcAction` of `Issue` is written as a tree of tests on the
last response. Responses are finitely many, so every `k` has such a tree. -/
inductive ProcAction where
  /-- `Issue`: send the command word and its payload words on the processor port. -/
  | issue (word : Word) (payload : List Word) (next : ProcAction)
  /-- The continuation `k`, one test: is the last response (its word, then its data words) this one? -/
  | onResponse (response : List Word) (yes no : ProcAction)
  /-- `Done(q')`: the instruction is finished and the processor's next state is `q'`. -/
  | done (q : Nat)
  /-- `Fail(reason)`: the processor's own failure. -/
  | fail (reason : Nat)
  /-- The chain never ends from here (R180: "a hang"; U11). -/
  | hang
  deriving DecidableEq, Repr, Inhabited

/-- The configuration a bundle is constructed with (R5, R230). `TIME_UNIT` is informative only (D2): no rule reads it. -/
structure Config where
  /-- `TICK_PERIOD`, written `P` (R6): one value for both timers. -/
  tickPeriod : Half
  /-- `FONT`, 80 bytes (R5). -/
  font : List Byte
  /-- `TICK_MODE` (R5). -/
  tickMode : TickMode
  deriving DecidableEq, Repr

/-- `FONT_SIZE` (R5): 16 glyphs of 5 bytes. -/
def fontSize : Nat := 80

/-- What construction requires (R231): `TICK_PERIOD >= 1`, and `FONT` exactly 80 bytes with `FONT[0] = 0xF0`. -/
def Config.wf (c : Config) : Bool :=
  decide (1 ≤ c.tickPeriod.toNat) && decide (c.font.length = fontSize) && decide (c.font.head? = some 0xF0#8)

/-- FREE VALUE (D1, OPEN): the tick period less one, so that the period is any u32 that is at least 1 (D30). -/
opaque Config.periodLessOne : Fin 4294967295

/-- FREE VALUE (D19, U5): FONT's bytes 1..79. -/
opaque Config.fontByte : Nat → Byte

/-- FREE VALUE (U1): what the processor does in a state about which nothing has been fixed (R180: `exec : Q → ProcAction`). -/
opaque Config.procAction : Nat → ProcAction

/-- The configuration of the machine of `State.reset`: every open parameter free, `TICK_MODE` at its normative value. -/
def Config.machine : Config :=
  { tickPeriod := BitVec.ofNat 32 (Config.periodLessOne.val + 1)
    font := 0xF0#8 :: (List.range 79).map (fun i => Config.fontByte (i + 1))
    tickMode := .drain }

/-- The conventional font that D19 offers as a default of `FONT` "[from general knowledge, not in source]" (K4).
Only byte 0 is the source's. Nothing in the machine uses this table: tests and premises may. -/
def Config.suggestedFont : List Byte :=
  [0xF0#8, 0x90#8, 0x90#8, 0x90#8, 0xF0#8, 0x20#8, 0x60#8, 0x20#8, 0x20#8, 0x70#8,
   0xF0#8, 0x10#8, 0xF0#8, 0x80#8, 0xF0#8, 0xF0#8, 0x10#8, 0xF0#8, 0x10#8, 0xF0#8] ++
  [0x90#8, 0x90#8, 0xF0#8, 0x10#8, 0x10#8, 0xF0#8, 0x80#8, 0xF0#8, 0x10#8, 0xF0#8,
   0xF0#8, 0x80#8, 0xF0#8, 0x90#8, 0xF0#8, 0xF0#8, 0x10#8, 0x20#8, 0x40#8, 0x40#8] ++
  [0xF0#8, 0x90#8, 0xF0#8, 0x90#8, 0xF0#8, 0xF0#8, 0x90#8, 0xF0#8, 0x10#8, 0xF0#8,
   0xF0#8, 0x90#8, 0xF0#8, 0x90#8, 0x90#8, 0xE0#8, 0x90#8, 0xE0#8, 0x90#8, 0xE0#8] ++
  [0xF0#8, 0x80#8, 0x80#8, 0x80#8, 0xF0#8, 0xE0#8, 0x90#8, 0x90#8, 0x90#8, 0xE0#8,
   0xF0#8, 0x80#8, 0xF0#8, 0x80#8, 0xF0#8, 0xF0#8, 0x80#8, 0xF0#8, 0x80#8, 0x80#8]

end Sys2Proof
end

