-- ==== Sys2Proof/Machine/State.lean ====
section
/-! DEFINITION. The state of the machine: the bundle record of spec/10_state.md R20 to R31, the configuration it was
constructed with, and the two ports and the processor of spec/30_encoding.md R80 and spec/43_step.md R180. -/

namespace Sys2Proof.Machine

/-- A countdown timer (R21). -/
structure Timer where
  /-- "remaining ticks (0–255)" (R22) -/
  count : Byte
  /-- "elapsed time since the last tick boundary" (R23) -/
  accumulated : Half
  /-- the completion flag (R24) -/
  justCompleted : Bool
  deriving DecidableEq, Repr

/-- The two timers of the bundle (R20, R25). -/
inductive TimerId where
  | delay
  | sound
  deriving DecidableEq, Repr

/-- The three address spaces (R50). -/
inductive Space where
  | ram
  | vram
  | keys
  deriving DecidableEq, Repr

/-- The two command ports (R80). -/
inductive Port where
  | host
  | processor
  deriving DecidableEq, Repr

/-- The error conditions of R201, each with the info the model keeps in `faults`. None of them stops the machine: a
failing command answers its caller with a status (R200). -/
inductive Error where
  /-- `OutOfBounds` (R202): space and index. -/
  | outOfBounds (space : Space) (index : Nat)
  /-- `RomTooLarge` (R203): the length. -/
  | romTooLarge (length : Nat)
  /-- `IllegalCommand` (R204): the command word. -/
  | illegalCommand (word : Word)
  /-- `InvalidKeyState` (R205): key code and state. -/
  | invalidKeyState (code state : Byte)
  /-- `AccumulatorOverflow` (R206): the timer. -/
  | accumulatorOverflow (timer : TimerId)
  /-- `ProcessorError` (R207): the processor's reason. -/
  | processorError (reason : Nat)
  deriving DecidableEq, Repr

/-- The contents of an address space: (address, byte) pairs with strictly rising addresses, no byte zero. An address that
is not listed reads as `0x00`, the value every element has at creation (R37). -/
abbrev Memory := List Host.Cell

/-- The machine. The bundle of R20 is `delay`, `sound`, `ram`, `vram` and `keys`; the other fields are the model's. -/
structure State where
  /-- The construction arguments (R5, R230). No command changes them. -/
  config : Config
  /-- The delay timer (R20). -/
  delay : Timer
  /-- The sound timer (R20). -/
  sound : Timer
  /-- RAM, 4096 bytes (R26). -/
  ram : Memory
  /-- The framebuffer, 256 bytes (R27). -/
  vram : Memory
  /-- The key latch, 16 entries (R28). -/
  keys : Memory
  /-- Every non-OK status a command has returned, oldest first (R29, R220). -/
  faults : List Error
  /-- The words pending on the host port, oldest first (R80, R184). -/
  hostIn : List Word
  /-- The words returned on the host port, oldest first (R78, R79). -/
  hostOut : List Word
  /-- The words returned on the processor port, oldest first (R78, R79). -/
  procOut : List Word
  /-- The processor's state `Q` (R180), by number. -/
  procQ : Nat
  /-- The part of the processor's `exec : Q → ProcAction` (R180) that is fixed; in a state that is not listed the processor
  does what the free value `Config.procAction` says. -/
  procTable : List (Nat × ProcAction)
  /-- A STEP whose chain never ends is running: the block makes no further progress (R180, U11). -/
  hung : Bool
  deriving DecidableEq, Repr

/-- The bundle record `S` of R20, "and nothing else is state of the block". -/
structure Bundle where
  delay : Timer
  sound : Timer
  ram : Memory
  vram : Memory
  keys : Memory
  deriving DecidableEq, Repr

/-- The bundle inside the machine. -/
def State.bundle (s : State) : Bundle :=
  { delay := s.delay, sound := s.sound, ram := s.ram, vram := s.vram, keys := s.keys }

/-- The reasons for which a step stops with a fault: there are none. The block has no trap mechanism and no error stops it
(R200, R210, R211): every error is a status in a response word, and the machine goes on. -/
inductive Fault where
  deriving DecidableEq, Repr

/-- The reasons for which a step has no meaning. -/
inductive Refusal where
  /-- Raised by an arm of `exec` whose instruction has no meaning yet; safe. No arm of this model raises it. -/
  | notModelled (mnemonic : String)
  deriving DecidableEq, Repr

/-- A timer as it is created (R37: "created zeroed"). -/
def Timer.zeroed : Timer := { count := 0#8, accumulated := 0#32, justCompleted := false }

/-- The bundle as it is created with a configuration (R37, R230), with nothing pending on a port and the processor in state
number 0 (log entry 17 names the values of the model's own fields). -/
def State.fresh (c : Config) : State :=
  { config := c
    delay := Timer.zeroed
    sound := Timer.zeroed
    ram := []
    vram := []
    keys := []
    faults := []
    hostIn := []
    hostOut := []
    procOut := []
    procQ := 0
    procTable := []
    hung := false }

/-- Construction (R230, R231): refused, so that no machine exists, unless the configuration is a legal one. -/
def State.create (c : Config) : Option State := if c.wf then some (State.fresh c) else none

/-- The machine right after creation (R230), its open parameters free. -/
def State.reset : State := State.fresh Config.machine

end Sys2Proof.Machine
end

