-- ==== Sys2Proof/Machine/Ops.lean ====
section
/-! DEFINITION. The named operations over the state: the memories (spec/20_memory.md), the timers' places, the responses of
spec/30_encoding.md R78 and R79, returning an error (spec/60_exceptions.md), and the outputs of spec/10_state.md R30. -/

namespace Sys2Proof.Machine

/-! ## Memory -/

/-- The byte at an index. What is not listed reads as 0x00, the value at creation (R37). -/
def Memory.read : Memory → Nat → Byte
  | [], _ => 0#8
  | (b, w) :: m, a => if a = b then w else Memory.read m a

/-- Write one byte, keeping the canonical form: writing 0x00 takes the entry away. -/
def Memory.write : Memory → Nat → Byte → Memory
  | [], a, v => if v = 0#8 then [] else [(a, v)]
  | (b, w) :: m, a, v =>
    if a < b then (if v = 0#8 then (b, w) :: m else (a, v) :: (b, w) :: m)
    else if a = b then (if v = 0#8 then m else (a, v) :: m)
    else (b, w) :: Memory.write m a v

/-- `MemRead(space, a, n)` (R9): the n bytes at `a .. a+n`. -/
def Memory.readBytes (m : Memory) (a n : Nat) : List Byte := (List.range n).map (fun i => Memory.read m (a + i))

/-- Bytes as the cells from address `a` on, the zero bytes left out. -/
def Memory.cells (a : Nat) : List Byte → Memory
  | [] => []
  | b :: bs => if b = 0#8 then Memory.cells (a + 1) bs else (a, b) :: Memory.cells (a + 1) bs

/-- `MemWrite(space, a, n, v)` (R9): the bytes at `a .. a+n` are replaced, what lies below and above them is kept. -/
def Memory.writeBytes (m : Memory) (a : Nat) (bytes : List Byte) : Memory :=
  m.filter (fun c => decide (c.1 < a)) ++ Memory.cells a bytes ++
    m.filter (fun c => decide (a + bytes.length ≤ c.1))

/-- Addresses strictly rising, every one at or above `low`, no listed byte zero. -/
def Memory.canonicalFrom (low : Nat) : Memory → Bool
  | [] => true
  | (b, w) :: m => decide (low ≤ b) && decide (w ≠ 0#8) && Memory.canonicalFrom (b + 1) m

/-- The canonical form of a memory. -/
def Memory.wf (m : Memory) : Bool := Memory.canonicalFrom 0 m

/-- Every listed address lies below `size`: the array has exactly `size` elements (R31). -/
def Memory.within (size : Nat) (m : Memory) : Bool := m.all (fun c => decide (c.1 < size))

/-- The size of an address space (R50). -/
def Space.size : Space → Nat
  | .ram => 4096
  | .vram => 256
  | .keys => 16

/-- An address space of the state (R50). -/
def State.memory (s : State) : Space → Memory
  | .ram => s.ram
  | .vram => s.vram
  | .keys => s.keys

/-- Put a memory in its place. -/
def State.setMemory (s : State) (sp : Space) (m : Memory) : State :=
  match sp with
  | .ram => { s with ram := m }
  | .vram => { s with vram := m }
  | .keys => { s with keys := m }

/-- Read one byte of a space (R9). -/
def State.readByte (s : State) (sp : Space) (i : Nat) : Byte := Memory.read (s.memory sp) i

/-- Write one byte of a space (R9). -/
def State.writeByte (s : State) (sp : Space) (i : Nat) (v : Byte) : State :=
  s.setMemory sp (Memory.write (s.memory sp) i v)

/-! ## The timers' places -/

/-- One of the two timers (R20). -/
def State.timer (s : State) : TimerId → Timer
  | .delay => s.delay
  | .sound => s.sound

/-- Put a timer in its place. -/
def State.setTimer (s : State) (id : TimerId) (t : Timer) : State :=
  match id with
  | .delay => { s with delay := t }
  | .sound => { s with sound := t }

/-! ## The processor's state and the host port's pending words -/

/-- `Q <- q'` (R181). -/
def State.setProcQ (s : State) (q : Nat) : State := { s with procQ := q }

/-- The running STEP never completes (R180). -/
def State.hang (s : State) : State := { s with hung := true }

/-- The words still pending on the host port. -/
def State.setHostIn (s : State) (ws : List Word) : State := { s with hostIn := ws }

/-! ## Responses (R78, R79) and errors (R200 to R212) -/

/-- The status of an error (R201). -/
def Error.code : Error → Byte
  | .outOfBounds _ _ => 0x01#8
  | .romTooLarge _ => 0x02#8
  | .illegalCommand _ => 0x03#8
  | .invalidKeyState _ _ => 0x04#8
  | .accumulatorOverflow _ => 0x05#8
  | .processorError _ => 0x06#8

/-- The response word: status in `resp[63:56]`, `resp[55:32]` zero, the value in `resp[31:0]` (R78). -/
def responseWord (status : Byte) (value : Half) : Word := status ++ 0#24 ++ value

/-- The response of a command that fails: its status, the value field 0 (R78, R201), no data words (R79). -/
def Error.response (e : Error) : Word := responseWord e.code 0#32

/-- What one command comes to before it is answered: OK with a value, the data words after the response and the state it
leaves; or an error, which writes no bundle state (R209). -/
inductive Result where
  | ok (value : Half) (data : List Word) (s : State)
  | error (e : Error)
  deriving DecidableEq, Repr

/-- Return words on a port. -/
def State.send (s : State) (p : Port) (ws : List Word) : State :=
  match p with
  | .host => { s with hostOut := s.hostOut ++ ws }
  | .processor => { s with procOut := s.procOut ++ ws }

/-- Note an error in `faults` (R29, R220). -/
def State.recordFault (s : State) (e : Error) : State := { s with faults := s.faults ++ [e] }

/-- THE ONE WAY AN ERROR IS RAISED (R200, R210): its status is returned to the caller on its port and noted in `faults`; no
state is saved, no mode changes, no handler runs. There is no return from it either (R211): the next command is served. -/
def State.raise (s : State) (p : Port) (e : Error) : State := (s.recordFault e).send p [e.response]

/-- Answer a command on its port (R78). -/
def State.reply (s : State) (p : Port) : Result → State
  | .ok value data s' => s'.send p (responseWord 0x00#8 value :: data)
  | .error e => s.raise p e

/-! ## The continuous outputs (R30) -/

/-- `sound_complete`, the completion strobe. -/
def State.soundComplete (s : State) : Bool := s.sound.justCompleted

/-- `vram_out`, the read-only view of the framebuffer. -/
def State.vramOut (s : State) : List Byte := Memory.readBytes s.vram 0 256

end Sys2Proof.Machine
end

