-- ==== Sys2Proof/Machine/Operands.lean ====
section
/-! DEFINITION. The checks on operands: the index of an access (spec/20_memory.md R59), a key state (spec/41_keys.md R140), and
the zero extension of a u8 result (spec/30_encoding.md R78). -/

namespace Sys2Proof.Machine

/-- Go on only with an index below its space's size; otherwise `OutOfBounds`, never wrapped or clamped (R59, R202). -/
def withIndex (sp : Space) (index : Nat) (next : Result) : Result :=
  if index ≥ sp.size then .error (.outOfBounds sp index) else next

/-- A key state is 0 (up) or 1 (down) (R28, R140). -/
def keyStateLegal (state : Byte) : Bool := state == 0#8 || state == 1#8

/-- `zext_32` of a byte read (R78). -/
def zextByte (b : Byte) : Half := b.setWidth 32

/-- A command that answers with a byte and writes nothing (R58). -/
def answerByte (s : State) (b : Byte) : Result := .ok (zextByte b) [] s

/-- A command with no result: it answers 0 (R78). -/
def answerDone (s : State) : Result := .ok 0#32 [] s

/-- Read one element of a space by index: the body of READRAM, READVRAM and READKEY (R150, R152, R141). -/
def readElement (sp : Space) (index : Nat) (s : State) : Result :=
  withIndex sp index (answerByte s (s.readByte sp index))

/-- Write one element of a space by index: the body of WRITERAM and WRITEVRAM (R151, R153). -/
def writeElement (sp : Space) (index : Nat) (value : Byte) (s : State) : Result :=
  withIndex sp index (answerDone (s.writeByte sp index value))

end Sys2Proof.Machine
end

