-- ==== Sys2Proof/Machine/Keys.lean ====
section
/-! DEFINITION. The key latch (spec/41_keys.md): SETKEY and READKEY. -/

namespace Sys2Proof.Machine

/-- SETKEY (R140): the index is checked before the state (R208). -/
def cmdSetkey (code state : Byte) (s : State) : Result :=
  withIndex .keys code.toNat
    (if keyStateLegal state then answerDone (s.writeByte .keys code.toNat state)
     else .error (.invalidKeyState code state))

/-- READKEY (R141). -/
def cmdReadkey (code : Nat) (s : State) : Result := readElement .keys code s

/-- SETKEY (R140) -/
def execSetkey (code state : Byte) (s : State) : Host.Outcome State Fault Refusal :=
  .next (s.reply .host (cmdSetkey code state s))

/-- READKEY (R141) -/
def execReadkey (code : Nat) (s : State) : Host.Outcome State Fault Refusal :=
  .next (s.reply .host (cmdReadkey code s))

end Sys2Proof.Machine
end

