-- ==== Sys2Proof/Machine/Ram.lean ====
section
/-! DEFINITION. RAM (spec/42_memory_video.md section 1) and the loading of a ROM and the font (its section 3): READRAM,
WRITERAM and LOADROM. -/

namespace Sys2Proof.Machine

/-- READRAM (R150). -/
def cmdReadram (addr : Nat) (s : State) : Result := readElement .ram addr s

/-- WRITERAM (R151): no address below 4096 is protected (R52). -/
def cmdWriteram (addr : Nat) (value : Byte) (s : State) : Result := writeElement .ram addr value s

/-- `ROM_BASE` (R5). -/
def romBase : Nat := 0x200

/-- `FONT_BASE` (R5). -/
def fontBase : Nat := 0x000

/-- RAM after a load (R157): the ROM's bytes from 0x200 on, then the font from 0x000 on. -/
def loadedRam (data font : List Byte) (ram : Memory) : Memory :=
  Memory.writeBytes (Memory.writeBytes ram romBase data) fontBase font

/-- LOADROM (R157): a ROM that does not fit is rejected with nothing written, the font included (D13). -/
def cmdLoadrom (data : List Byte) (s : State) : Result :=
  if romBase + data.length > Space.size .ram then .error (.romTooLarge data.length)
  else answerDone (s.setMemory .ram (loadedRam data s.config.font s.ram))

/-- READRAM (R150) -/
def execReadram (addr : Nat) (s : State) : Host.Outcome State Fault Refusal :=
  .next (s.reply .host (cmdReadram addr s))

/-- WRITERAM (R151) -/
def execWriteram (addr : Nat) (value : Byte) (s : State) : Host.Outcome State Fault Refusal :=
  .next (s.reply .host (cmdWriteram addr value s))

/-- LOADROM (R157) -/
def execLoadrom (data : List Byte) (s : State) : Host.Outcome State Fault Refusal :=
  .next (s.reply .host (cmdLoadrom data s))

end Sys2Proof.Machine
end

