-- ==== Sys2Proof/Machine/Flags.lean ====
section
/-! DEFINITION. The block's only flags are the timers' completion flags (spec/10_state.md R34), and only the timer update
writes them: how one tick boundary, and how k of them, change a count and its flag (spec/40_timer.md R100, R102). -/

namespace Sys2Proof.Machine

/-- One tick-boundary crossing of R100's loop, on the count and the flag: a count above 0 is decremented and the flag is set
when it reaches 0; a count already at 0 clears the flag. -/
def crossBoundary (cnt : Nat) (flag : Bool) : Nat × Bool :=
  if cnt > 0 then
    (cnt - 1, if cnt - 1 = 0 then true else flag)
  else
    (cnt, false)

/-- The count after `k` crossings (R102). -/
def countAfter (k c : Nat) : Nat := c - min k c

/-- The flag after `k` crossings, from count `c` and flag `f` (R102's table, line by line). -/
def flagAfter (k c : Nat) (f : Bool) : Bool :=
  if k = 0 then f
  else if c = 0 then false
  else if k < c then f
  else if k = c then true
  else false

end Sys2Proof.Machine
end

