-- ==== Sys2Proof/Machine/Timers.lean ====
section
/-! DEFINITION. The countdown timers (spec/40_timer.md): the timers' own operations R100 to R105, then the commands GETDELAY,
SETDELAY, GETSOUND, SETSOUND, PLAYSOUND and ADVANCE (R110 to R115). -/

namespace Sys2Proof.Machine

/-! ## Timer operations -/

/-- `accumulated + delta`, formed without wrap (R100, D4). -/
def Timer.elapsed (t : Timer) (delta : Half) : Nat := t.accumulated.toNat + delta.toNat

/-- R100's loop: while `acc >= P`, subtract the period once and cross one boundary. `fuel` bounds the iterations. -/
def drainLoop (p : Nat) : Nat → Nat → Nat → Bool → Nat × Nat × Bool
  | 0, acc, cnt, flag => (acc, cnt, flag)
  | fuel + 1, acc, cnt, flag =>
    if acc ≥ p then drainLoop p fuel (acc - p) (crossBoundary cnt flag).1 (crossBoundary cnt flag).2
    else (acc, cnt, flag)

/-- `update_drain` as R100 writes it, by the loop. With `P >= 1` the loop runs at most `acc` times. -/
def Timer.updateLoop (p : Nat) (t : Timer) (delta : Half) : Timer :=
  let r := drainLoop p (t.elapsed delta) (t.elapsed delta) t.count.toNat t.justCompleted
  { count := BitVec.ofNat 8 r.2.1, accumulated := BitVec.ofNat 32 r.1, justCompleted := r.2.2 }

/-- The boundaries one drained update crosses (R102: `k`). -/
def Timer.crossings (p : Nat) (t : Timer) (delta : Half) : Nat := t.elapsed delta / p

/-- `update_drain` in the closed form of R102; it is the function of R100's loop (`Timer.updateLoop`), and evaluates at once
whatever the delta. -/
def Timer.updateDrain (p : Nat) (t : Timer) (delta : Half) : Timer :=
  { count := BitVec.ofNat 8 (countAfter (t.crossings p delta) t.count.toNat)
    accumulated := BitVec.ofNat 32 (t.elapsed delta % p)
    justCompleted := flagAfter (t.crossings p delta) t.count.toNat t.justCompleted }

/-- What `update_single` leaves before its overflow check (R101): at most one boundary is crossed. -/
def singleTick (p : Nat) (acc cnt : Nat) (flag : Bool) : Nat × Nat × Bool :=
  if acc ≥ p then (acc - p, (crossBoundary cnt flag).1, (crossBoundary cnt flag).2) else (acc, cnt, flag)

/-- `update_single` (R101): `none` is `AccumulatorOverflow`, raised before any write. -/
def Timer.updateSingle (p : Nat) (t : Timer) (delta : Half) : Option Timer :=
  let r := singleTick p (t.elapsed delta) t.count.toNat t.justCompleted
  if r.1 ≥ 2 ^ 32 then none
  else some { count := BitVec.ofNat 8 r.2.1, accumulated := BitVec.ofNat 32 r.1, justCompleted := r.2.2 }

/-- `complete(T)` (R103). -/
def Timer.complete (t : Timer) : Bool := t.justCompleted

/-- `set_count(T, v)` (R104): it touches neither `accumulated` nor `just_completed`. -/
def Timer.setCount (t : Timer) (v : Byte) : Timer := { t with count := v }

/-- `get_count(T)` (R105). -/
def Timer.getCount (t : Timer) : Byte := t.count

/-! ## The commands -/

/-- GETDELAY (R110). -/
def cmdGetdelay (s : State) : Result := answerByte s (Timer.getCount (s.timer .delay))

/-- SETDELAY (R111). -/
def cmdSetdelay (v : Byte) (s : State) : Result :=
  answerDone (s.setTimer .delay (Timer.setCount (s.timer .delay) v))

/-- GETSOUND (R112). -/
def cmdGetsound (s : State) : Result := answerByte s (Timer.getCount (s.timer .sound))

/-- SETSOUND (R113). -/
def cmdSetsound (v : Byte) (s : State) : Result :=
  answerDone (s.setTimer .sound (Timer.setCount (s.timer .sound) v))

/-- PLAYSOUND (R114): it reads the sound timer's flag and does not clear it. -/
def cmdPlaysound (s : State) : Result :=
  .ok (if Timer.complete (s.timer .sound) then 1#32 else 0#32) [] s

/-- Both timers, in the fixed order delay then sound (R115, R116). -/
def State.setTimers (s : State) (delay sound : Timer) : State :=
  (s.setTimer .delay delay).setTimer .sound sound

/-- ADVANCE under `TICK_MODE = DRAIN` (R115, R100). -/
def advanceDrain (delta : Half) (s : State) : Result :=
  answerDone (s.setTimers (Timer.updateDrain s.config.tickPeriod.toNat s.delay delta)
    (Timer.updateDrain s.config.tickPeriod.toNat s.sound delta))

/-- ADVANCE under `TICK_MODE = SINGLE` (R115, R101): if either timer would overflow, neither is written; if both would, the
error names the delay timer (R208). -/
def advanceSingle (delta : Half) (s : State) : Result :=
  match Timer.updateSingle s.config.tickPeriod.toNat s.delay delta,
      Timer.updateSingle s.config.tickPeriod.toNat s.sound delta with
  | none, _ => .error (.accumulatorOverflow .delay)
  | some _, none => .error (.accumulatorOverflow .sound)
  | some d, some a => answerDone (s.setTimers d a)

/-- ADVANCE (R115). -/
def cmdAdvance (delta : Half) (s : State) : Result :=
  match s.config.tickMode with
  | .drain => advanceDrain delta s
  | .single => advanceSingle delta s

/-! ## Their meanings on the host port -/

/-- GETDELAY (R110) -/
def execGetdelay (s : State) : Host.Outcome State Fault Refusal := .next (s.reply .host (cmdGetdelay s))

/-- SETDELAY (R111) -/
def execSetdelay (v : Byte) (s : State) : Host.Outcome State Fault Refusal := .next (s.reply .host (cmdSetdelay v s))

/-- GETSOUND (R112) -/
def execGetsound (s : State) : Host.Outcome State Fault Refusal := .next (s.reply .host (cmdGetsound s))

/-- SETSOUND (R113) -/
def execSetsound (v : Byte) (s : State) : Host.Outcome State Fault Refusal := .next (s.reply .host (cmdSetsound v s))

/-- PLAYSOUND (R114) -/
def execPlaysound (s : State) : Host.Outcome State Fault Refusal := .next (s.reply .host (cmdPlaysound s))

/-- ADVANCE (R115) -/
def execAdvance (delta : Half) (s : State) : Host.Outcome State Fault Refusal :=
  .next (s.reply .host (cmdAdvance delta s))

end Sys2Proof.Machine
end

