-- ==== Sys2Proof/Machine/Video.lean ====
section
/-! DEFINITION. The framebuffer (spec/42_memory_video.md section 2): READVRAM, WRITEVRAM, XORVRAM and GETVRAM, and the pixel
layout of spec/20_memory.md R53. -/

namespace Sys2Proof.Machine

/-- READVRAM (R152). -/
def cmdReadvram (addr : Nat) (s : State) : Result := readElement .vram addr s

/-- WRITEVRAM (R153). -/
def cmdWritevram (addr : Nat) (value : Byte) (s : State) : Result := writeElement .vram addr value s

/-- XORVRAM (R154): one read-modify-write of the byte; no collision flag and no old value is returned. -/
def cmdXorvram (addr : Nat) (value : Byte) (s : State) : Result :=
  withIndex .vram addr (answerDone (s.writeByte .vram addr (s.readByte .vram addr ^^^ value)))

/-- The data words of GETVRAM (R79): word w holds `VRAM[8w .. 8w+8]`, `VRAM[8w]` in its most significant byte. -/
def vramWords (s : State) : List Word := packWords s.vramOut

/-- GETVRAM (R156): it answers 256 (R78), and 32 data words follow. -/
def cmdGetvram (s : State) : Result := .ok 256#32 (vramWords s) s

/-- The index of the VRAM byte that holds pixel (x, y) (R53). -/
def pixelByte (x y : Nat) : Nat := y * 8 + x / 8

/-- The bit of that byte (R53): x mod 8 = 0 is bit 7. -/
def pixelBit (x : Nat) : Nat := 7 - x % 8

/-- pixel(x, y) (R53): true is a set bit. -/
def State.pixel (s : State) (x y : Nat) : Bool := (s.readByte .vram (pixelByte x y)).getLsbD (pixelBit x)

/-- The collision a processor computes for one XORVRAM of `value` onto the byte `old` it read just before (R155). The block
has no state for it. -/
def collision (old value : Byte) : Bool := (old &&& value) != 0#8

/-- READVRAM (R152) -/
def execReadvram (addr : Nat) (s : State) : Host.Outcome State Fault Refusal :=
  .next (s.reply .host (cmdReadvram addr s))

/-- WRITEVRAM (R153) -/
def execWritevram (addr : Nat) (value : Byte) (s : State) : Host.Outcome State Fault Refusal :=
  .next (s.reply .host (cmdWritevram addr value s))

/-- XORVRAM (R154) -/
def execXorvram (addr : Nat) (value : Byte) (s : State) : Host.Outcome State Fault Refusal :=
  .next (s.reply .host (cmdXorvram addr value s))

/-- GETVRAM (R156) -/
def execGetvram (s : State) : Host.Outcome State Fault Refusal := .next (s.reply .host (cmdGetvram s))

end Sys2Proof.Machine
end

