-- ==== Sys2Proof/Machine/Processor.lean ====
section
/-! DEFINITION. The machine step (spec/43_step.md): the processor agent R180, the commands it issues on the processor port
(spec/30_encoding.md R80, R81), and STEP (R181, R182). -/

namespace Sys2Proof.Machine

/-! ## The processor port -/

/-- A command on the processor port (R81): every command but STEP, which decodes to `IllegalCommand` there. `word` is the
command word that carried it. -/
def processorCommand (word : Word) (i : Instr) (s : State) : Result :=
  match i with
  | .setkey code state => cmdSetkey code state s
  | .readkey code => cmdReadkey code s
  | .readram addr => cmdReadram addr s
  | .writeram addr value => cmdWriteram addr value s
  | .readvram addr => cmdReadvram addr s
  | .writevram addr value => cmdWritevram addr value s
  | .xorvram addr value => cmdXorvram addr value s
  | .getvram => cmdGetvram s
  | .loadrom data => cmdLoadrom data s
  | .getdelay => cmdGetdelay s
  | .setdelay v => cmdSetdelay v s
  | .getsound => cmdGetsound s
  | .setsound v => cmdSetsound v s
  | .playsound => cmdPlaysound s
  | .advance delta => cmdAdvance delta s
  | .step _ => .error (.illegalCommand word)

/-- The payload words that go with an issued word (R76). DESIGN CHOICE (log entry 11): a word that the processor's action
does not list is zero, and words beyond those the first word asks for are no part of the command. -/
def issuedPayload (word : Word) (payload : List Word) : List Word :=
  (List.range (payloadCount word)).map (fun i => payload.getD i 0#64)

/-- `perform(c) on the processor port` (R181). -/
def performIssue (word : Word) (payload : List Word) (s : State) : Result :=
  match decodeCommand word (issuedPayload word payload) with
  | .command i => processorCommand word i s
  | .illegal _ => .error (.illegalCommand word)

/-! ## One instruction of the processor -/

/-- How the chain of a processor instruction ends. -/
inductive ChainEnd where
  /-- `Done(q')` -/
  | done (q : Nat) (s : State)
  /-- A command failed, or `Fail(reason)`: the status STEP raises (R181). -/
  | failed (e : Error) (s : State)
  /-- The chain never ends (R180). -/
  | hang (s : State)
  deriving DecidableEq, Repr

/-- The loop of R181: perform each issued command in turn, give its response to the continuation, stop at the first
failure. Each command takes effect under its own rule, and stays in effect (R182). `last` is the last response. -/
def runChain : ProcAction → List Word → State → ChainEnd
  | .issue word payload next, _, s =>
    match performIssue word payload s with
    | .ok value data s' => runChain next (responseWord 0x00#8 value :: data) (s.reply .processor (.ok value data s'))
    | .error e => .failed e (s.reply .processor (.error e))
  | .onResponse response yes no, last, s =>
    if last = response then runChain yes last s else runChain no last s
  | .done q, _, s => .done q s
  | .fail reason, _, s => .failed (.processorError reason) s
  | .hang, _, s => .hang s

/-- The states that the commands of a chain leave, one after the other: in each of them the outputs can be observed, before
the STEP ends (R10, R30, D24; log entry 7). -/
def chainStates : ProcAction → List Word → State → List State
  | .issue word payload next, _, s =>
    match performIssue word payload s with
    | .ok value data s' =>
      s.reply .processor (.ok value data s') ::
        chainStates next (responseWord 0x00#8 value :: data) (s.reply .processor (.ok value data s'))
    | .error e => [s.reply .processor (.error e)]
  | .onResponse response yes no, last, s =>
    if last = response then chainStates yes last s else chainStates no last s
  | .done _, _, _ => []
  | .fail _, _, _ => []
  | .hang, _, _ => []

/-- `exec(Q)` (R180): the listed action of the processor's state, or the free value. -/
def State.procAction (s : State) : ProcAction :=
  match s.procTable.lookup s.procQ with
  | some a => a
  | none => Config.procAction s.procQ

/-! ## STEP -/

/-- What follows the processor's instruction in a STEP (R181, R182): ADVANCE after `Done`, and its answer is STEP's; the
error, unchanged, after a failure, with neither `Q` updated nor ADVANCE performed; nothing, ever, after a hang. -/
def finishStep (delta : Half) : ChainEnd → State
  | .done q s => (s.setProcQ q).reply .host (cmdAdvance delta (s.setProcQ q))
  | .failed e s => s.raise .host e
  | .hang s => s.hang

/-- STEP (R181): one processor instruction, then the timer advance. -/
def execStep (delta : Half) (s : State) : Host.Outcome State Fault Refusal :=
  .next (finishStep delta (runChain s.procAction [] s))

end Sys2Proof.Machine
end

