-- ==== Sys2Proof/Machine/Dispatch.lean ====
section
/-! DEFINITION. The meaning of every command on the host port (spec/30_encoding.md R74), one arm each. -/

namespace Sys2Proof.Machine

-- timers: spec/40_timer.md; keys: 41_keys.md; memories: 42_memory_video.md; STEP: 43_step.md
def exec (i : Instr) (s : State) : Host.Outcome State Fault Refusal :=
  match i with
  | .setkey code state => Sys2Proof.Machine.execSetkey code state s
  | .readkey code => Sys2Proof.Machine.execReadkey code s
  | .readram addr => Sys2Proof.Machine.execReadram addr s
  | .writeram addr value => Sys2Proof.Machine.execWriteram addr value s
  | .readvram addr => Sys2Proof.Machine.execReadvram addr s
  | .writevram addr value => Sys2Proof.Machine.execWritevram addr value s
  | .xorvram addr value => Sys2Proof.Machine.execXorvram addr value s
  | .getvram => Sys2Proof.Machine.execGetvram s
  | .loadrom data => Sys2Proof.Machine.execLoadrom data s
  | .getdelay => Sys2Proof.Machine.execGetdelay s
  | .setdelay v => Sys2Proof.Machine.execSetdelay v s
  | .getsound => Sys2Proof.Machine.execGetsound s
  | .setsound v => Sys2Proof.Machine.execSetsound v s
  | .playsound => Sys2Proof.Machine.execPlaysound s
  | .advance delta => Sys2Proof.Machine.execAdvance delta s
  | .step delta => Sys2Proof.Machine.execStep delta s

end Sys2Proof.Machine
end

