-- ==== Sys2Proof/Machine/Step.lean ====
section
/-! DEFINITION. One step of the machine: the block serves the next command pending on the host port (spec/30_encoding.md R80,
spec/20_memory.md R61). -/

namespace Sys2Proof.Machine

/-- Serve the next host command. With no whole command pending the block holds its whole state (R221). A word that is no
command is answered with `IllegalCommand` (R204). While a STEP hangs, no progress is made (R180). -/
def step (s : State) : Host.Outcome State Fault Refusal :=
  if s.hung then .next s
  else
    match fetch s.hostIn with
    | .waiting => .next s
    | .command i rest => exec i (s.setHostIn rest)
    | .illegal word rest => .next ((s.setHostIn rest).raise .host (.illegalCommand word))

/-- The state with a command's words put in front of those pending on the host port, and no STEP hanging, so that the next
step serves it. The words come from outside the machine: no program runs from `State.reset` by itself (log entry 12). -/
def State.withFetchWord (s : State) (nbits w : Nat) : State :=
  { s with hostIn := tableWords nbits w ++ s.hostIn, hung := false }

end Sys2Proof.Machine
end

