-- ==== Sys2Proof/Machine/Assembler.lean ====
section
/-! DEFINITION. The assembler of spec/30_encoding.md section 7 (R82 to R85): how a line of text becomes command words, and
the pseudo-instructions CLS, TOGGLE and SPRITEROW, with the raw word directive of log entry 24. It is notation
for writing programs (D20); the machine does not use it. -/

namespace Sys2Proof.Machine

/-! ## Pseudo-instructions: the commands each expands to -/

/-- `CLS` (R83): `WRITEVRAM i, 0` for i = 0, 1, ..., 255 in that order. -/
def expandCls : List Instr := (List.range 256).map (fun i => Instr.writevram i 0#8)

/-- `TOGGLE x, y` (R84); outside the screen it is an assembly error. -/
def expandToggle (x y : Nat) : Option (List Instr) :=
  if x < 64 ∧ y < 32 then some [.xorvram (pixelByte x y) (0x80#8 >>> (x % 8))] else none

/-- `SPRITEROW x, y, b` (R85): the byte of pixel (x, y), and the next byte of the row unless the row ends there. DESIGN CHOICE
(log entry 23): outside the screen it is an assembly error, as TOGGLE is by R84; R85 gives the bounds and no consequence. -/
def expandSpriterow (x y : Nat) (b : Byte) : Option (List Instr) :=
  if x < 64 ∧ y < 32 then
    if x % 8 = 0 then some [.xorvram (pixelByte x y) b]
    else if x / 8 < 7 then
      some [.xorvram (pixelByte x y) (b >>> (x % 8)), .xorvram (pixelByte x y + 1) (b <<< (8 - x % 8))]
    else some [.xorvram (pixelByte x y) (b >>> (x % 8))]
  else none

/-! ## Lexemes: words, commas and brackets; a comment runs from `;` to the end of the line (R82) -/

/-- The lexeme being read, if it has begun. -/
def flushLexeme (cur : List Char) : List (List Char) := if cur.isEmpty then [] else [cur]

/-- The lexemes of a line; `cur` is what has been read of the current one. -/
def lexemes : List Char → List Char → List (List Char)
  | [], cur => flushLexeme cur
  | c :: cs, cur =>
    if c = ';' then flushLexeme cur
    else if c = ' ' ∨ c = '\t' then flushLexeme cur ++ lexemes cs []
    else if c = ',' ∨ c = '[' ∨ c = ']' then flushLexeme cur ++ [c] :: lexemes cs []
    else lexemes cs (cur ++ [c])

/-- The value of a digit in the given base. -/
def digitValue (base : Nat) (c : Char) : Option Nat :=
  let n := c.toNat
  let v := if 48 ≤ n ∧ n ≤ 57 then n - 48
    else if 65 ≤ n ∧ n ≤ 70 then n - 55
    else if 97 ≤ n ∧ n ≤ 102 then n - 87
    else base
  if v < base then some v else none

/-- Digits read on from the value so far. -/
def readDigits (base : Nat) : List Char → Nat → Option Nat
  | [], acc => some acc
  | c :: cs, acc =>
    match digitValue base c with
    | some v => readDigits base cs (acc * base + v)
    | none => none

/-- An unsigned number, decimal or `0x` hexadecimal (R82). -/
def readNumber : List Char → Option Nat
  | '0' :: 'x' :: d :: ds => readDigits 16 (d :: ds) 0
  | d :: ds => readDigits 10 (d :: ds) 0
  | [] => none

/-- Comma-separated numbers (R82). -/
def readOperands : List (List Char) → Option (List Nat)
  | [] => some []
  | [n] => (readNumber n).map (fun v => [v])
  | n :: c :: rest =>
    if c = [','] ∧ rest ≠ [] then
      match readNumber n, readOperands rest with
      | some v, some vs => some (v :: vs)
      | _, _ => none
    else none

/-- A number that fits a byte; a larger one is an assembly error (R82). -/
def fitByte (n : Nat) : Option Byte := if n < 256 then some (BitVec.ofNat 8 n) else none

/-- A number that fits the 32 bits of a delta. -/
def fitDelta (n : Nat) : Option Half := if n < 2 ^ 32 then some (BitVec.ofNat 32 n) else none

/-- LOADROM's operand: a bracketed byte list (R82). -/
def readByteList (ls : List (List Char)) : Option (List Byte) :=
  match ls with
  | first :: rest =>
    if first = ['['] ∧ rest.getLast? = some [']'] then
      (readOperands rest.dropLast).bind (fun ns => ns.mapM fitByte)
    else none
  | [] => none

/-! ## A line of text -/

/-- The commands of a mnemonic with number operands, in the order of R70. -/
def assembleNumbers (mnemonic : List Char) (ops : List Nat) : Option (List Instr) :=
  match String.ofList mnemonic, ops with
  | "SETKEY", [c, v] => (fitByte c).bind (fun c' => (fitByte v).map (fun v' => [.setkey c' v']))
  | "READKEY", [c] => some [.readkey c]
  | "READRAM", [a] => some [.readram a]
  | "WRITERAM", [a, v] => (fitByte v).map (fun v' => [.writeram a v'])
  | "READVRAM", [a] => some [.readvram a]
  | "WRITEVRAM", [a, v] => (fitByte v).map (fun v' => [.writevram a v'])
  | "XORVRAM", [a, v] => (fitByte v).map (fun v' => [.xorvram a v'])
  | "GETVRAM", [] => some [.getvram]
  | "GETDELAY", [] => some [.getdelay]
  | "SETDELAY", [v] => (fitByte v).map (fun v' => [.setdelay v'])
  | "GETSOUND", [] => some [.getsound]
  | "SETSOUND", [v] => (fitByte v).map (fun v' => [.setsound v'])
  | "PLAYSOUND", [] => some [.playsound]
  | "ADVANCE", [t] => (fitDelta t).map (fun t' => [.advance t'])
  | "STEP", [t] => (fitDelta t).map (fun t' => [.step t'])
  | "CLS", [] => some expandCls
  | "TOGGLE", [x, y] => expandToggle x y
  | "SPRITEROW", [x, y, b] => (fitByte b).bind (fun b' => expandSpriterow x y b')
  | _, _ => none

/-- The commands a line stands for; none is an assembly error, and a line with no lexeme stands for no command (R82). -/
def parseLine (line : String) : Option (List Instr) :=
  match lexemes line.toList [] with
  | [] => some []
  | mnemonic :: ops =>
    if mnemonic = "LOADROM".toList then (readByteList ops).map (fun data => [.loadrom data])
    else (readOperands ops).bind (assembleNumbers mnemonic)

/-- The raw word directive `.word w` of spec/95_test_vectors.md Program 3, which R82 does not define. DESIGN CHOICE (log entry
24): it stands for the one 64-bit word `w`, a command or not; a number of 2^64 or more is an assembly error. -/
def readRawWord : List (List Char) → Option Word
  | [directive, n] =>
    if directive = ".word".toList then
      (readNumber n).bind (fun v => if v < 2 ^ 64 then some (BitVec.ofNat 64 v) else none)
    else none
  | _ => none

/-- The words of a line: of a raw word directive its word (log entry 24), else those of the commands it stands for; an operand
that does not fit its field is an assembly error (R82). -/
def assemble (line : String) : Option (List Word) :=
  match readRawWord (lexemes line.toList []) with
  | some w => some [w]
  | none => (parseLine line).bind (fun is => if is.all Instr.wellFormed then some (is.flatMap encode) else none)

end Sys2Proof.Machine
end

