-- ==== Sys2Proof/Safety.lean ====
section
/-! DEFINITION. The terms claims are made in: the invariant of spec/10_state.md R31, a run without faults (R29), what a
command leaves alone beside the bundle, sequences of commands, and the commands a processor instruction comes to issue. -/

namespace Sys2Proof.Machine

/-! ## The invariant -/

/-- "`accumulated < TICK_PERIOD`" under DRAIN (R31); under SINGLE it is not claimed. -/
def Timer.inPeriod (c : Config) (t : Timer) : Prop := c.tickMode = .drain → t.accumulated.toNat < c.tickPeriod.toNat

/-- What holds in every state reachable from creation (R31): a legal configuration (R231), memories in canonical form and of
their size, key-latch entries 0 or 1, and both accumulators below the period under DRAIN. -/
structure State.Inv (s : State) : Prop where
  config_wf : s.config.wf = true
  ram_wf : Memory.wf s.ram = true
  ram_within : Memory.within (Space.size .ram) s.ram = true
  vram_wf : Memory.wf s.vram = true
  vram_within : Memory.within (Space.size .vram) s.vram = true
  keys_wf : Memory.wf s.keys = true
  keys_within : Memory.within (Space.size .keys) s.keys = true
  keys_bit : ∀ i, s.readByte .keys i = 0#8 ∨ s.readByte .keys i = 1#8
  delay_inPeriod : Timer.inPeriod s.config s.delay
  sound_inPeriod : Timer.inPeriod s.config s.sound

/-! ## Runs -/

/-- No command has failed so far: the premise claims about a run take (R29, R220). -/
def State.clean (s : State) : Prop := s.faults = []

/-- Serve commands one after the other on the host port (R61). -/
def execAll : List Instr → State → Option State
  | [], s => some s
  | i :: is, s =>
    match exec i s with
    | .next t => execAll is t
    | .fault _ => none
    | .refused _ => none

/-- What a command leaves alone beside the bundle, `faults` and its response: the configuration, the words still pending,
the processor port, the processor, and that no STEP hangs. -/
def State.sameSurroundings (s t : State) : Prop :=
  t.config = s.config ∧ t.hostIn = s.hostIn ∧ t.procOut = s.procOut ∧ t.procQ = s.procQ ∧
    t.procTable = s.procTable ∧ t.hung = s.hung

/-- A command succeeded: status OK with a value, then data words, and no fault noted (R78, R79, R220). -/
def State.answeredOk (s t : State) (value : Half) (data : List Word) : Prop :=
  t.hostOut = s.hostOut ++ responseWord 0x00#8 value :: data ∧ t.faults = s.faults

/-- A command failed: its status with value 0, noted in `faults` (R78, R201, R220). -/
def State.answeredError (s t : State) (e : Error) : Prop :=
  t.hostOut = s.hostOut ++ [e.response] ∧ t.faults = s.faults ++ [e]

/-- Every byte of a space is as before, but for the addresses the predicate gives. -/
def State.sameBytes (s t : State) (sp : Space) (stored : Nat → Prop) : Prop :=
  ∀ a, ¬ stored a → t.readByte sp a = s.readByte sp a

/-- Every byte of every space is as before. -/
def State.sameMemory (s t : State) : Prop := ∀ sp, State.sameBytes s t sp (fun _ => False)

/-- Both timers are as before. -/
def State.sameTimers (s t : State) : Prop := t.delay = s.delay ∧ t.sound = s.sound

/-- How a one-word command is encoded (R73, R74): a word with `cmd and mask = match` is the command, with these operands; a
word with the command's `op` and a reserved bit set is illegal. -/
def encodedAs (op : Byte) (mtch mask : Word) (operands : Word → Instr) : Prop :=
  ∀ w : Word, (w &&& mask = mtch → decodeCommand w [] = .command (operands w)) ∧
    (w.extractLsb' 56 8 = op → w &&& mask ≠ mtch → decodeCommand w [] = .illegal .reservedBit)

/-- The bytes a command may store to (R140, R151, R153, R154, R157): those of its operand, and for LOADROM the font's 80 and the
ROM's. A STEP's processor may store anywhere. -/
def Instr.stores : Instr → Space → Nat → Prop
  | .setkey code _, sp, a => sp = .keys ∧ a = code.toNat
  | .writeram addr _, sp, a => sp = .ram ∧ a = addr
  | .writevram addr _, sp, a => sp = .vram ∧ a = addr
  | .xorvram addr _, sp, a => sp = .vram ∧ a = addr
  | .loadrom data, sp, a => sp = .ram ∧ (a < 0x050 ∨ (0x200 ≤ a ∧ a < 0x200 + data.length))
  | .step _, _, _ => True
  | .readkey _, _, _ | .readram _, _, _ | .readvram _, _, _ | .getvram, _, _ => False
  | .getdelay, _, _ | .setdelay _, _, _ | .getsound, _, _ | .setsound _, _, _ => False
  | .playsound, _, _ | .advance _, _, _ => False

/-! ## Processor instructions, by the commands they come to issue (R180) -/

/-- What an action comes to once its tests on the last response are made. -/
def resolveTests : ProcAction → List Word → ProcAction
  | .onResponse response yes no, last => if last = response then resolveTests yes last else resolveTests no last
  | .issue word payload next, _ => .issue word payload next
  | .done q, _ => .done q
  | .fail reason, _ => .fail reason
  | .hang, _ => .hang

/-- Given these responses to them, the action issues exactly these commands in order, and then comes to `final`. `last` is
the response before them. -/
def actionIssues : List (Instr × List Word) → ProcAction → List Word → ProcAction → Prop
  | [], a, last, final => resolveTests a last = final
  | (i, response) :: steps, a, last, final =>
    ∃ next, resolveTests a last = .issue (encodeHeader i) (encodePayload i) next ∧
      actionIssues steps next response final

/-- Served one after the other from `s`, the commands all succeed, with these responses, and lead to `t`. -/
def servedAs : List (Instr × List Word) → State → State → Prop
  | [], s, t => t = s
  | (i, response) :: steps, s, t =>
    ∃ u, exec i s = .next u ∧ u.faults = s.faults ∧ u.hostOut = s.hostOut ++ response ∧ servedAs steps u t

/-- The processor instruction that issues these commands in order and then ends with `last`. -/
def scriptAction (cmds : List Instr) (last : ProcAction) : ProcAction :=
  cmds.foldr (fun i a => .issue (encodeHeader i) (encodePayload i) a) last

/-- A command the processor port admits and the encoding can carry (R81, R82). -/
def Instr.issuable (i : Instr) : Prop := i.wellFormed = true ∧ ∀ delta, i ≠ .step delta

/-! ## What no command can observe (R36) -/

/-- The state with the delay timer's completion flag out of sight. -/
def State.hideDelayFlag (s : State) : State := { s with delay := { s.delay with justCompleted := false } }

end Sys2Proof.Machine
end

