-- ==== Sys2Proof/Certificates/Slice0/Obligations.lean ====
section
/-! DEFINITION. The statements about the machine, from the numbered rules of spec/. -/

open Sys2Proof Sys2Proof.Machine

/-! ## Encoding (spec/30_encoding.md) -/

/-- R71, R72, R74, R76, R77: the words of a well-formed command, whatever words follow them on the port, are fetched as that
command, and what follows is left. Every operand, at every value its field admits. -/
def Obligations.DecodeOfEncodeIsTheCommand : Prop :=
  ∀ (i : Instr) (rest : List Word), i.wellFormed = true → fetch (encode i ++ rest) = .command i rest

/-- R73, R74, R77: the other direction. A word and its payload that decode to a command are exactly that command's encoding,
so each command has one encoding and no bit of the words is dropped. -/
def Obligations.EncodeOfDecodeIsTheWords : Prop :=
  ∀ (w : Word) (payload : List Word) (i : Instr), payload.length = payloadCount w →
    decodeCommand w payload = .command i → i.wellFormed = true ∧ encode i = w :: payload

/-- R74: a word decodes to the row whose mask and match satisfy `cmd and mask = match`, no two rows fit one word, and the
decoded command takes its operands from the columns of the table. -/
def Obligations.WordDecodesToTheRowOfItsMaskAndMatch : Prop :=
  (∀ (w : Word), ∀ r ∈ opcodeMap, (rowOf w = some r ↔ w &&& r.mask = r.mtch)) ∧
  (∀ (w : Word), ∀ r ∈ opcodeMap, ∀ r' ∈ opcodeMap, w &&& r.mask = r.mtch → w &&& r'.mask = r'.mtch → r = r') ∧
  encodedAs 0x01#8 0x0100000000000000#64 0xFFFFFF00FFFFFF00#64
    (fun w => .setkey (w.extractLsb' 32 8) (w.extractLsb' 0 8)) ∧
  encodedAs 0x02#8 0x0200000000000000#64 0xFF000000FFFFFFFF#64 (fun w => .readkey (w.extractLsb' 32 24).toNat) ∧
  encodedAs 0x10#8 0x1000000000000000#64 0xFF000000FFFFFFFF#64 (fun w => .readram (w.extractLsb' 32 24).toNat) ∧
  encodedAs 0x11#8 0x1100000000000000#64 0xFF000000FFFFFF00#64
    (fun w => .writeram (w.extractLsb' 32 24).toNat (w.extractLsb' 0 8)) ∧
  encodedAs 0x12#8 0x1200000000000000#64 0xFF000000FFFFFFFF#64 (fun w => .readvram (w.extractLsb' 32 24).toNat) ∧
  encodedAs 0x13#8 0x1300000000000000#64 0xFF000000FFFFFF00#64
    (fun w => .writevram (w.extractLsb' 32 24).toNat (w.extractLsb' 0 8)) ∧
  encodedAs 0x14#8 0x1400000000000000#64 0xFF000000FFFFFF00#64
    (fun w => .xorvram (w.extractLsb' 32 24).toNat (w.extractLsb' 0 8)) ∧
  encodedAs 0x15#8 0x1500000000000000#64 0xFFFFFFFFFFFFFFFF#64 (fun _ => .getvram) ∧
  encodedAs 0x20#8 0x2000000000000000#64 0xFFFFFFFFFFFFFFFF#64 (fun _ => .getdelay) ∧
  encodedAs 0x21#8 0x2100000000000000#64 0xFFFFFFFFFFFFFF00#64 (fun w => .setdelay (w.extractLsb' 0 8)) ∧
  encodedAs 0x22#8 0x2200000000000000#64 0xFFFFFFFFFFFFFFFF#64 (fun _ => .getsound) ∧
  encodedAs 0x23#8 0x2300000000000000#64 0xFFFFFFFFFFFFFF00#64 (fun w => .setsound (w.extractLsb' 0 8)) ∧
  encodedAs 0x24#8 0x2400000000000000#64 0xFFFFFFFFFFFFFFFF#64 (fun _ => .playsound) ∧
  encodedAs 0x25#8 0x2500000000000000#64 0xFFFFFFFF00000000#64 (fun w => .advance (w.extractLsb' 0 32)) ∧
  encodedAs 0x30#8 0x3000000000000000#64 0xFFFFFFFF00000000#64 (fun w => .step (w.extractLsb' 0 32)) ∧
  (∀ (w : Word) (payload : List Word), w &&& 0xFFFFFFFF00000000#64 = 0x1600000000000000#64 →
    decodeCommand w payload = .illegal .paddingSet ∨
      ∃ data, decodeCommand w payload = .command (.loadrom data) ∧
        data = (unpackWords payload).take (w.extractLsb' 0 32).toNat)

/-- R73: a set bit that the table marks 0 makes the command `IllegalCommand`, on either port, and it writes no state. -/
def Obligations.ReservedBitIsAnsweredIllegalCommand : Prop :=
  ∀ (w : Word), ∀ r ∈ opcodeMap, w.extractLsb' 56 8 = r.op → w &&& r.mask ≠ r.mtch →
    (∀ payload, decodeCommand w payload = .illegal .reservedBit) ∧
    (∀ (payload : List Word) (s : State), performIssue w payload s = .error (.illegalCommand w)) ∧
    ∀ (s : State) (rest : List Word), s.hung = false → s.hostIn = w :: rest → payloadCount w ≤ rest.length →
      ∃ t, step s = .next t ∧ t.bundle = s.bundle ∧ State.answeredError s t (.illegalCommand w) ∧
        (Error.illegalCommand w).response = 0x0300000000000000#64

/-- R75: every op outside the table is reserved; a word with one is one word long, decodes to `IllegalCommand` on either port
and writes no state; and the decoder is total. -/
def Obligations.ReservedOpIsAnsweredIllegalCommand : Prop :=
  (∀ (w : Word),
    ((w.extractLsb' 56 8).toNat = 0 ∨ (0x03 ≤ (w.extractLsb' 56 8).toNat ∧ (w.extractLsb' 56 8).toNat ≤ 0x0F) ∨
      (0x17 ≤ (w.extractLsb' 56 8).toNat ∧ (w.extractLsb' 56 8).toNat ≤ 0x1F) ∨
      (0x26 ≤ (w.extractLsb' 56 8).toNat ∧ (w.extractLsb' 56 8).toNat ≤ 0x2F) ∨ 0x31 ≤ (w.extractLsb' 56 8).toNat) →
    (∀ payload, decodeCommand w payload = .illegal .reservedOp) ∧
    (∀ (payload : List Word) (s : State), performIssue w payload s = .error (.illegalCommand w)) ∧
    ∀ (s : State) (rest : List Word), s.hung = false → s.hostIn = w :: rest →
      ∃ t, step s = .next t ∧ t.bundle = s.bundle ∧ State.answeredError s t (.illegalCommand w) ∧ t.hostIn = rest) ∧
  (∀ (w : Word) (payload : List Word),
    (∃ i, decodeCommand w payload = .command i) ∨ (∃ why, decodeCommand w payload = .illegal why))

/-- R76: `N + 1` words with `N = ceil(L / 8)` if `op = 0x16`, whatever the header's other fields hold, and one word
otherwise; they are consumed whether or not the command is legal, and a command that then fails consumes no more. -/
def Obligations.FramingDependsOnTheFirstWordOnly : Prop :=
  ∀ (s : State) (w : Word) (rest : List Word) (n : Nat), s.hung = false → s.hostIn = w :: rest →
    n = (if w.extractLsb' 56 8 = 0x16#8 then ((w.extractLsb' 0 32).toNat + 7) / 8 else 0) → n ≤ rest.length →
      ∃ t, step s = .next t ∧ t.hostIn = rest.drop n

/-- R77: ROM byte i is in payload word `i div 8`, the first byte in the most significant byte; padding bytes must be zero, and
a nonzero one makes the whole command `IllegalCommand`, which writes nothing. That `faults` then keeps the header word is the
model's reading (log entry 16). -/
def Obligations.RomBytesArePackedFirstByteHigh : Prop :=
  ∀ (w : Word) (payload rest : List Word), w &&& 0xFFFFFFFF00000000#64 = 0x1600000000000000#64 →
    payload.length = ((w.extractLsb' 0 32).toNat + 7) / 8 →
      let byteAt : Nat → Byte := fun i => (payload.getD (i / 8) 0#64).extractLsb' (56 - 8 * (i % 8)) 8
      ((∀ i, (w.extractLsb' 0 32).toNat ≤ i → i < 8 * payload.length → byteAt i = 0#8) →
        ∃ data : List Byte, fetch (w :: payload ++ rest) = .command (.loadrom data) rest ∧
          data.length = (w.extractLsb' 0 32).toNat ∧ ∀ i < data.length, data.getD i 0#8 = byteAt i) ∧
      ((∃ i, (w.extractLsb' 0 32).toNat ≤ i ∧ i < 8 * payload.length ∧ byteAt i ≠ 0#8) →
        fetch (w :: payload ++ rest) = .illegal w rest ∧
        ∀ s : State, s.hung = false → s.hostIn = w :: payload ++ rest →
          ∃ t, step s = .next t ∧ t.bundle = s.bundle ∧ State.answeredError s t (.illegalCommand w))

/-- Words written out from R74's table and the examples of the rules, decoded. -/
def Obligations.SampleWordsDecode : Prop :=
  decodeTableWord 64 0x0100000F00000001 = some (.setkey 0xF#8 1#8) ∧
  decodeTableWord 64 0x0200000500000000 = some (.readkey 5) ∧
  decodeTableWord 64 0x11000FFF00000012 = some (.writeram 0xFFF 0x12#8) ∧
  decodeTableWord 64 0x140000000000000F = some (.xorvram 0 0x0F#8) ∧
  decodeTableWord 128 0xAABB0000000000001600000000000002 = some (.loadrom [0xAA#8, 0xBB#8]) ∧
  decodeTableWord 64 0x210000000000003C = some (.setdelay 60#8) ∧
  decodeTableWord 64 0x25000000000003E8 = some (.advance 1000#32) ∧
  decodeTableWord 64 0x30000000000003E8 = some (.step 1000#32)

/-! ## Serving commands (spec/20_memory.md R61, spec/60_exceptions.md) -/

/-- The next step runs the command whose words stand first on the host port, with those words taken off the port. -/
def Obligations.StepRunsTheDecodedCommand : Prop :=
  ∀ (s : State) (i : Instr) (rest : List Word), s.hung = false → i.wellFormed = true → s.hostIn = encode i ++ rest →
    step s = exec i { s with hostIn := rest }

/-- R221: when no command arrives the block holds its whole state unchanged, for as long as that lasts. -/
def Obligations.IdleHoldsTheWholeState : Prop :=
  ∀ (s : State) (n : Nat), s.hostIn = [] → Host.Core.run Sys2Proof.core n s = .next s

/-- A LOADROM whose payload has not all arrived is no command yet, and the block waits (log entry 5). -/
def Obligations.IncompleteCommandWaits : Prop :=
  ∀ (s : State) (w : Word) (rest : List Word), s.hostIn = w :: rest → w.extractLsb' 56 8 = 0x16#8 →
    rest.length < ((w.extractLsb' 0 32).toNat + 7) / 8 → step s = .next s

/-- R78: every command returns one response word, with bits [55:32] zero, a status of R201 and the value 0 on an error; data
words follow only GETVRAM's. A STEP that hangs is the one that returns nothing (R180). -/
def Obligations.EveryCommandReturnsOneResponseWord : Prop :=
  ∀ (s t : State) (i : Instr), exec i s = .next t → t.hung = false →
    ∃ (status : Byte) (value : Half) (data : List Word), t.hostOut = s.hostOut ++ responseWord status value :: data ∧
      status.toNat ≤ 6 ∧ (status ≠ 0#8 → value = 0#32) ∧ (i ≠ .getvram → data = []) ∧
      (responseWord status value).extractLsb' 56 8 = status ∧ (responseWord status value).extractLsb' 32 24 = 0#24 ∧
      (responseWord status value).extractLsb' 0 32 = value

/-- R202: an index at or above its space's size is answered `OutOfBounds`, of every command that takes an index; nothing is
written. -/
def Obligations.IndexOutOfItsSpaceIsOutOfBounds : Prop :=
  ∀ (s : State) (index : Nat) (v : Byte) (i : Instr) (sp : Space),
    ((4096 ≤ index ∧ sp = .ram ∧ (i = .readram index ∨ i = .writeram index v)) ∨
      (256 ≤ index ∧ sp = .vram ∧ (i = .readvram index ∨ i = .writevram index v ∨ i = .xorvram index v)) ∨
      (16 ≤ index ∧ sp = .keys ∧ (i = .readkey index ∨ ∃ code : Byte, code.toNat = index ∧ i = .setkey code v))) →
    ∃ t, exec i s = .next t ∧ t.bundle = s.bundle ∧ State.sameSurroundings s t ∧
      State.answeredError s t (.outOfBounds sp index) ∧
      (Error.outOfBounds sp index).response = 0x0100000000000000#64

/-- R209: a command that returns an error writes no bundle state; STEP is the one exception. -/
def Obligations.ErrorWritesNoBundleState : Prop :=
  ∀ (s t : State) (i : Instr), (∀ delta, i ≠ .step delta) → exec i s = .next t →
    (t.faults = s.faults ∧ ∃ value data, t.hostOut = s.hostOut ++ responseWord 0x00#8 value :: data) ∨
      (t.bundle = s.bundle ∧ State.sameSurroundings s t ∧ ∃ e, State.answeredError s t e)

/-- R212: issuing the same failing command again in the same state returns the same error. The state of the bundle is the
same, since the failed command wrote none of it. -/
def Obligations.SameCommandFailsTheSameWayAgain : Prop :=
  ∀ (s t u : State) (i : Instr) (e : Error), (∀ delta, i ≠ .step delta) → exec i s = .next t → exec i t = .next u →
    State.answeredError s t e → State.answeredError t u e

/-- R220, in part: nothing removes an entry of `faults`, and what a step notes comes after what was there. -/
def Obligations.FaultsAreNeverRemoved : Prop :=
  ∀ (s t : State), step s = .next t → ∃ es, t.faults = s.faults ++ es

/-- The machine never stops: no state and no command makes a step a fault or a refusal (R200, R210, R211). -/
def Obligations.EveryStepHasANextState : Prop :=
  (∀ s : State, ∃ t, step s = .next t) ∧ (∀ (i : Instr) (s : State), ∃ t, exec i s = .next t)

/-- R6: the configuration is fixed at construction and never changed afterwards. -/
def Obligations.NoStepChangesTheConfiguration : Prop :=
  ∀ (s t : State), step s = .next t → t.config = s.config

/-- The frame of every command but STEP: no byte of any space changes but those the command stores to, and nothing beside the
bundle but `faults` and the response. -/
def Obligations.CommandsStoreOnlyWhereTheySay : Prop :=
  ∀ (s t : State) (i : Instr), s.Inv → (∀ delta, i ≠ .step delta) → exec i s = .next t →
    (∀ sp, State.sameBytes s t sp (Instr.stores i sp)) ∧ State.sameSurroundings s t ∧
    ((∀ delta, i ≠ .advance delta) → (∀ v, i ≠ .setdelay v) → t.delay = s.delay) ∧
    ((∀ delta, i ≠ .advance delta) → (∀ v, i ≠ .setsound v) → t.sound = s.sound)

/-- R58: reads write no state, and every write but XORVRAM, ADVANCE and STEP is idempotent. -/
def Obligations.ReadsWriteNothingAndWritesAreIdempotent : Prop :=
  (∀ (s : State) (i : Instr), (∃ a, i = .readram a ∨ i = .readvram a ∨ i = .readkey a) ∨ i = .getvram ∨ i = .getdelay ∨
      i = .getsound ∨ i = .playsound →
    ∃ t, exec i s = .next t ∧ t.bundle = s.bundle ∧ State.sameSurroundings s t ∧
      ∃ u resp, exec i t = .next u ∧ t.hostOut = s.hostOut ++ resp ∧ u.hostOut = t.hostOut ++ resp) ∧
  (∀ (s t u : State) (i : Instr), s.Inv → (∀ delta, i ≠ .advance delta ∧ i ≠ .step delta) →
    (∀ a v, i ≠ .xorvram a v) → exec i s = .next t → exec i t = .next u → u.bundle = t.bundle)

/-! ## The key latch (spec/41_keys.md) -/

/-- R140: SETKEY writes one key-latch entry, checks the index before the state, and does nothing else. -/
def Obligations.SetkeyWritesOneLatchEntry : Prop :=
  encodedAs 0x01#8 0x0100000000000000#64 0xFFFFFF00FFFFFF00#64
    (fun w => .setkey (w.extractLsb' 32 8) (w.extractLsb' 0 8)) ∧
  ∀ (s : State) (code state : Byte), Memory.wf s.keys = true →
    (code.toNat ≥ 16 → ∃ t, exec (.setkey code state) s = .next t ∧ t.bundle = s.bundle ∧
      State.sameSurroundings s t ∧ State.answeredError s t (.outOfBounds .keys code.toNat)) ∧
    (code.toNat < 16 → state ≠ 0#8 ∧ state ≠ 1#8 → ∃ t, exec (.setkey code state) s = .next t ∧ t.bundle = s.bundle ∧
      State.sameSurroundings s t ∧ State.answeredError s t (.invalidKeyState code state)) ∧
    (code.toNat < 16 → state = 0#8 ∨ state = 1#8 → ∃ t, exec (.setkey code state) s = .next t ∧
      t.readByte .keys code.toNat = state ∧ State.sameBytes s t .keys (fun a => a = code.toNat) ∧
      State.sameBytes s t .ram (fun _ => False) ∧ State.sameBytes s t .vram (fun _ => False) ∧
      State.sameTimers s t ∧ State.sameSurroundings s t ∧ State.answeredOk s t 0#32 [])

/-- R142: SETKEY c, v and then READKEY c returns v, for v = 1 and v = 0 and every c below 16, whatever commands that store to no
byte of that entry come between. -/
def Obligations.ReadkeyReturnsWhatSetkeyWrote : Prop :=
  ∀ (s : State) (c v : Byte) (between : List Instr), s.Inv → c.toNat < 16 → v = 1#8 ∨ v = 0#8 →
    (∀ i ∈ between, ¬ Instr.stores i .keys c.toNat) →
    ∃ t u w, exec (.setkey c v) s = .next t ∧ execAll between t = some u ∧ exec (.readkey c.toNat) u = .next w ∧
      State.answeredOk u w (v.setWidth 32) []

/-! ## Reads (R141, R150, R152, R156) -/

/-- R141, R150, R152: READKEY, READRAM and READVRAM answer with the element of that index, or with `OutOfBounds`; the
whole rest of the machine is as before. -/
def Obligations.ElementReadsAnswerTheElement : Prop :=
  encodedAs 0x02#8 0x0200000000000000#64 0xFF000000FFFFFFFF#64 (fun w => .readkey (w.extractLsb' 32 24).toNat) ∧
  encodedAs 0x10#8 0x1000000000000000#64 0xFF000000FFFFFFFF#64 (fun w => .readram (w.extractLsb' 32 24).toNat) ∧
  encodedAs 0x12#8 0x1200000000000000#64 0xFF000000FFFFFFFF#64 (fun w => .readvram (w.extractLsb' 32 24).toNat) ∧
  ∀ (s : State) (a : Nat),
    (a < 16 → exec (.readkey a) s =
      .next { s with hostOut := s.hostOut ++ [responseWord 0x00#8 ((Memory.read s.keys a).setWidth 32)] }) ∧
    (a < 4096 → exec (.readram a) s =
      .next { s with hostOut := s.hostOut ++ [responseWord 0x00#8 ((Memory.read s.ram a).setWidth 32)] }) ∧
    (a < 256 → exec (.readvram a) s =
      .next { s with hostOut := s.hostOut ++ [responseWord 0x00#8 ((Memory.read s.vram a).setWidth 32)] }) ∧
    (16 ≤ a → exec (.readkey a) s =
      .next { s with hostOut := s.hostOut ++ [0x0100000000000000#64], faults := s.faults ++ [.outOfBounds .keys a] }) ∧
    (4096 ≤ a → exec (.readram a) s =
      .next { s with hostOut := s.hostOut ++ [0x0100000000000000#64], faults := s.faults ++ [.outOfBounds .ram a] }) ∧
    (256 ≤ a → exec (.readvram a) s =
      .next { s with hostOut := s.hostOut ++ [0x0100000000000000#64], faults := s.faults ++ [.outOfBounds .vram a] })

/-- R156: GETVRAM answers 256 and 32 data words, of which word w holds `VRAM[8w .. 8w+8]`, `VRAM[8w]` in bits [63:56];
the machine is otherwise as before. They are the bytes of the output `vram_out` (R30). -/
def Obligations.GetvramReturnsTheFramebuffer : Prop :=
  encodedAs 0x15#8 0x1500000000000000#64 0xFFFFFFFFFFFFFFFF#64 (fun _ => .getvram) ∧
  ∀ s : State, ∃ data : List Word,
    exec .getvram s = .next { s with hostOut := s.hostOut ++ responseWord 0x00#8 256#32 :: data } ∧
    data.length = 32 ∧ s.vramOut.length = 256 ∧
    ∀ w < 32, ∀ j < 8, (data.getD w 0#64).extractLsb' (56 - 8 * j) 8 = Memory.read s.vram (8 * w + j) ∧
      s.vramOut.getD (8 * w + j) 0#8 = Memory.read s.vram (8 * w + j)

/-! ## Writes to RAM and VRAM (R151, R153, R154) -/

/-- R151: WRITERAM stores one byte at an address below 4096, the font and reserved region included (R52), and changes no
other byte, timer or flag. At or above 4096 it writes nothing. -/
def Obligations.WriteramStoresOneByte : Prop :=
  encodedAs 0x11#8 0x1100000000000000#64 0xFF000000FFFFFF00#64
    (fun w => .writeram (w.extractLsb' 32 24).toNat (w.extractLsb' 0 8)) ∧
  ∀ (s : State) (addr : Nat) (v : Byte), Memory.wf s.ram = true →
    (addr < 4096 → ∃ t, exec (.writeram addr v) s = .next t ∧ t.readByte .ram addr = v ∧
      State.sameBytes s t .ram (fun a => a = addr) ∧ State.sameBytes s t .vram (fun _ => False) ∧
      State.sameBytes s t .keys (fun _ => False) ∧ State.sameTimers s t ∧ State.sameSurroundings s t ∧
      State.answeredOk s t 0#32 []) ∧
    (4096 ≤ addr → ∃ t, exec (.writeram addr v) s = .next t ∧ t.bundle = s.bundle ∧ State.sameSurroundings s t ∧
      State.answeredError s t (.outOfBounds .ram addr))

/-- R153, R154: WRITEVRAM overwrites one framebuffer byte and XORVRAM XORs into it; no other byte, timer or flag changes. At
or above 256 they write nothing. -/
def Obligations.VideoWritesChangeOneByte : Prop :=
  encodedAs 0x13#8 0x1300000000000000#64 0xFF000000FFFFFF00#64
    (fun w => .writevram (w.extractLsb' 32 24).toNat (w.extractLsb' 0 8)) ∧
  encodedAs 0x14#8 0x1400000000000000#64 0xFF000000FFFFFF00#64
    (fun w => .xorvram (w.extractLsb' 32 24).toNat (w.extractLsb' 0 8)) ∧
  ∀ (s : State) (addr : Nat) (v : Byte) (i : Instr) (stored : Byte), Memory.wf s.vram = true →
    (i = .writevram addr v ∧ stored = v) ∨ (i = .xorvram addr v ∧ stored = Memory.read s.vram addr ^^^ v) →
    (addr < 256 → ∃ t, exec i s = .next t ∧ t.readByte .vram addr = stored ∧
      State.sameBytes s t .vram (fun a => a = addr) ∧ State.sameBytes s t .ram (fun _ => False) ∧
      State.sameBytes s t .keys (fun _ => False) ∧ State.sameTimers s t ∧ State.sameSurroundings s t ∧
      State.answeredOk s t 0#32 []) ∧
    (256 ≤ addr → ∃ t, exec i s = .next t ∧ t.bundle = s.bundle ∧ State.sameSurroundings s t ∧
      State.answeredError s t (.outOfBounds .vram addr))

/-- A read after a write returns the value of the last write to that address, and every other address reads as before the
write (R61), in RAM and VRAM. -/
def Obligations.ReadAfterWriteReturnsTheLastWrite : Prop :=
  ∀ (s : State) (a b : Nat) (v : Byte), s.Inv →
    (a < 4096 → b < 4096 → ∃ t u, exec (.writeram a v) s = .next t ∧ exec (.readram b) t = .next u ∧
      State.answeredOk t u ((if b = a then v else Memory.read s.ram b).setWidth 32) []) ∧
    (a < 256 → b < 256 → ∃ t u, exec (.writevram a v) s = .next t ∧ exec (.readvram b) t = .next u ∧
      State.answeredOk t u ((if b = a then v else Memory.read s.vram b).setWidth 32) [])

/-- R158: two XORVRAMs of one value to one address leave that byte as it was, whatever commands that do not store to it come
between; with none between, they leave the bundle as it was. -/
def Obligations.XorvramTwiceRestores : Prop :=
  ∀ (s : State) (addr : Nat) (v : Byte), s.Inv → addr < 256 →
    (∀ between : List Instr, (∀ i ∈ between, ¬ Instr.stores i .vram addr) →
      ∃ t u w, exec (.xorvram addr v) s = .next t ∧ execAll between t = some u ∧ exec (.xorvram addr v) u = .next w ∧
        w.readByte .vram addr = s.readByte .vram addr) ∧
    ∃ t w, exec (.xorvram addr v) s = .next t ∧ exec (.xorvram addr v) t = .next w ∧ w.bundle = s.bundle

/-- R155: the bits that one XORVRAM takes from 1 to 0 are those where the old byte and the value both have a 1; the
collision is that there is one. -/
def Obligations.CollisionIsABitThatGoesOut : Prop :=
  ∀ old value : Byte, (collision old value = true ↔ ∃ k < 8, old.getLsbD k = true ∧ (old ^^^ value).getLsbD k = false)

/-! ## Pixels and the pseudo-instructions (R53, R83 to R85) -/

/-- R84: TOGGLE x, y is one XORVRAM, which flips pixel (x, y) and no other, for x below 64 and y below 32; elsewhere it is an
assembly error. -/
def Obligations.ToggleFlipsOnePixel : Prop :=
  ∀ (x y : Nat),
    (x < 64 ∧ y < 32 → expandToggle x y = some [.xorvram (y * 8 + x / 8) (0x80#8 >>> (x % 8))] ∧
      ∀ s : State, Memory.wf s.vram = true →
        ∃ t, execAll [.xorvram (y * 8 + x / 8) (0x80#8 >>> (x % 8))] s = some t ∧ t.faults = s.faults ∧
          ∀ x' y', x' < 64 → y' < 32 → t.pixel x' y' = (if x' = x ∧ y' = y then !s.pixel x' y' else s.pixel x' y')) ∧
    (64 ≤ x ∨ 32 ≤ y → expandToggle x y = none)

/-- R85: SPRITEROW x, y, b is one or two XORVRAMs; they XOR the bits of b, the first in bit 7, onto the pixels x, x+1, ... of row
y, and drop those beyond column 63. That SPRITEROW off the screen is an assembly error is the model's choice (log entry 23):
R84 says it of TOGGLE only. -/
def Obligations.SpriterowXorsEightPixelsClipped : Prop :=
  ∀ (x y : Nat) (b : Byte),
    (x < 64 ∧ y < 32 →
      (x % 8 = 0 → expandSpriterow x y b = some [.xorvram (y * 8 + x / 8) b]) ∧
      (0 < x % 8 → x / 8 < 7 → expandSpriterow x y b =
        some [.xorvram (y * 8 + x / 8) (b >>> (x % 8)), .xorvram (y * 8 + x / 8 + 1) (b <<< (8 - x % 8))]) ∧
      (0 < x % 8 → 7 ≤ x / 8 → expandSpriterow x y b = some [.xorvram (y * 8 + x / 8) (b >>> (x % 8))]) ∧
      ∀ s : State, Memory.wf s.vram = true →
        ∃ is t, expandSpriterow x y b = some is ∧ execAll is s = some t ∧ t.faults = s.faults ∧
          ∀ x' y', x' < 64 → y' < 32 → t.pixel x' y' =
            (s.pixel x' y' ^^ (decide (y' = y ∧ x ≤ x' ∧ x' < x + 8) && b.getLsbD (7 - (x' - x))))) ∧
    (64 ≤ x ∨ 32 ≤ y → expandSpriterow x y b = none)

/-- R83: CLS is 256 WRITEVRAMs of 0, and after them every pixel is dark and the rest of the bundle as before. -/
def Obligations.ClsClearsTheScreen : Prop :=
  expandCls.length = 256 ∧ (∀ i < 256, expandCls[i]? = some (.writevram i 0#8)) ∧
  ∀ s : State, Memory.wf s.vram = true → ∃ t, execAll expandCls s = some t ∧ t.faults = s.faults ∧
    (∀ a < 256, t.readByte .vram a = 0#8) ∧ (∀ x y, x < 64 → y < 32 → t.pixel x y = false) ∧
    t.ram = s.ram ∧ t.keys = s.keys ∧ State.sameTimers s t

/-- R82: the examples of the assembler's syntax. -/
def Obligations.AssemblerExamples : Prop :=
  assemble "WRITERAM 0x200, 0x12" = some [0x1100020000000012#64] ∧
  assemble "LOADROM [0xAA, 0xBB] ; a comment" = some [0x1600000000000002#64, 0xAABB000000000000#64] ∧
  assemble "WRITERAM 512, 256" = none ∧ assemble "READRAM 0x1000000" = none

/-! ## ROM and font loading (R157, R159, R160, R203) -/

/-- R160: a LOADROM that succeeds puts data[i] at 0x200 + i and leaves every other address at or above 0x050 unchanged. -/
def Obligations.LoadromPlacesTheRom : Prop :=
  ∀ (s : State) (data : List Byte), s.config.wf = true → data.length ≤ 3584 →
    ∃ t, exec (.loadrom data) s = .next t ∧ State.answeredOk s t 0#32 [] ∧
      (∀ i < data.length, t.readByte .ram (0x200 + i) = data.getD i 0#8) ∧
      (∀ a, 0x050 ≤ a → ¬ (0x200 ≤ a ∧ a < 0x200 + data.length) → t.readByte .ram a = s.readByte .ram a)

/-- R159: after a LOADROM that succeeds, READRAM i returns FONT[i] for every i below 80, whatever the ROM holds, until a
WRITERAM to that address: other commands and further LOADROMs may come between. -/
def Obligations.LoadromInstallsTheFont : Prop :=
  ∀ (s : State) (data : List Byte) (between : List Instr) (i : Nat), s.Inv → data.length ≤ 3584 → i < 80 →
    (∀ c ∈ between, (∀ delta, c ≠ .step delta) ∧ ∀ v, c ≠ .writeram i v) →
    ∃ t u w, exec (.loadrom data) s = .next t ∧ execAll between t = some u ∧ exec (.readram i) u = .next w ∧
      State.answeredOk u w ((s.config.font.getD i 0#8).setWidth 32) [] ∧ (i = 0 → s.config.font.getD i 0#8 = 0xF0#8)

/-- LOADROM's frame (R157, D14): the framebuffer, the keys, the timers and their flags are untouched, and so is every byte
of RAM but the font's 80 and the ROM's. -/
def Obligations.LoadromLeavesTheRest : Prop :=
  ∀ (s t : State) (data : List Byte), s.config.wf = true → exec (.loadrom data) s = .next t →
    State.sameBytes s t .ram (fun a => a < 80 ∨ (0x200 ≤ a ∧ a < 0x200 + data.length)) ∧ t.vram = s.vram ∧
      t.keys = s.keys ∧ State.sameTimers s t ∧ State.sameSurroundings s t

/-- R203: LOADROM of more than 3584 bytes is rejected with `RomTooLarge`, and nothing is written, the font included. -/
def Obligations.RomTooLargeIsRejectedWhole : Prop :=
  ∀ (s : State) (data : List Byte), 3584 < data.length →
    exec (.loadrom data) s =
      .next { s with hostOut := s.hostOut ++ [0x0200000000000000#64], faults := s.faults ++ [.romTooLarge data.length] }

/-! ## Timers (spec/40_timer.md, spec/70_reset_and_hazards.md) -/

/-- R110 to R114: the count of either timer read and set, and the completion strobe read; SETDELAY and SETSOUND touch
neither the accumulator nor the flag, PLAYSOUND does not clear the flag and returns the output `sound_complete`. -/
def Obligations.TimerAccessCommands : Prop :=
  encodedAs 0x20#8 0x2000000000000000#64 0xFFFFFFFFFFFFFFFF#64 (fun _ => .getdelay) ∧
  encodedAs 0x21#8 0x2100000000000000#64 0xFFFFFFFFFFFFFF00#64 (fun w => .setdelay (w.extractLsb' 0 8)) ∧
  encodedAs 0x22#8 0x2200000000000000#64 0xFFFFFFFFFFFFFFFF#64 (fun _ => .getsound) ∧
  encodedAs 0x23#8 0x2300000000000000#64 0xFFFFFFFFFFFFFF00#64 (fun w => .setsound (w.extractLsb' 0 8)) ∧
  encodedAs 0x24#8 0x2400000000000000#64 0xFFFFFFFFFFFFFFFF#64 (fun _ => .playsound) ∧
  ∀ (s : State) (v : Byte),
    exec .getdelay s = .next { s with hostOut := s.hostOut ++ [responseWord 0x00#8 (s.delay.count.setWidth 32)] } ∧
    exec .getsound s = .next { s with hostOut := s.hostOut ++ [responseWord 0x00#8 (s.sound.count.setWidth 32)] } ∧
    exec (.setdelay v) s = .next { s with delay := { s.delay with count := v }, hostOut := s.hostOut ++ [0#64] } ∧
    exec (.setsound v) s = .next { s with sound := { s.sound with count := v }, hostOut := s.hostOut ++ [0#64] } ∧
    exec .playsound s = .next { s with hostOut := s.hostOut ++
      [if s.soundComplete = true then 0x0000000000000001#64 else 0x0000000000000000#64] }

/-- R100: under DRAIN, ADVANCE runs the loop of `update_drain` on both timers, whatever the delta: the machine's closed form
is that loop. -/
def Obligations.AdvanceRunsTheDrainLoop : Prop :=
  ∀ (s : State) (delta : Half), s.config.wf = true → s.config.tickMode = .drain →
    exec (.advance delta) s =
      .next { s with
        delay := Timer.updateLoop s.config.tickPeriod.toNat s.delay delta
        sound := Timer.updateLoop s.config.tickPeriod.toNat s.sound delta
        hostOut := s.hostOut ++ [0#64] }

/-- R102: the closed form of R100's loop, and of R101 with `k1` in place of `k`. -/
def Obligations.UpdatesHaveTheClosedForm : Prop :=
  ∀ (p : Nat) (t : Timer) (delta : Half), 1 ≤ p → p < 2 ^ 32 →
    let sum := t.accumulated.toNat + delta.toNat
    let c := t.count.toNat
    let table : Nat → Timer → Prop := fun k t' =>
      t'.count.toNat = c - min k c ∧
      (k = 0 → t'.justCompleted = t.justCompleted) ∧
      (k ≥ 1 → c = 0 → t'.justCompleted = false) ∧
      (1 ≤ k → k < c → t'.justCompleted = t.justCompleted) ∧
      (k = c → c ≥ 1 → t'.justCompleted = true) ∧
      (k > c → c ≥ 1 → t'.justCompleted = false)
    ((Timer.updateLoop p t delta).accumulated.toNat = sum % p ∧ table (sum / p) (Timer.updateLoop p t delta)) ∧
    ∀ k1, k1 = (if sum ≥ p then 1 else 0) →
      (sum - k1 * p < 2 ^ 32 → ∃ t', Timer.updateSingle p t delta = some t' ∧
        t'.accumulated.toNat = sum - k1 * p ∧ table k1 t') ∧
      (sum - k1 * p ≥ 2 ^ 32 → Timer.updateSingle p t delta = none)

/-- R115: ADVANCE updates both timers with one delta, each for itself, and answers 0; under SINGLE, if either update would
overflow, neither timer is written. Memory, keys and the rest are untouched. -/
def Obligations.AdvanceUpdatesBothTimers : Prop :=
  encodedAs 0x25#8 0x2500000000000000#64 0xFFFFFFFF00000000#64 (fun w => .advance (w.extractLsb' 0 32)) ∧
  ∀ (s : State) (delta : Half), s.config.wf = true →
    (s.config.tickMode = .drain → ∃ t, exec (.advance delta) s = .next t ∧
      t.delay = Timer.updateLoop s.config.tickPeriod.toNat s.delay delta ∧
      t.sound = Timer.updateLoop s.config.tickPeriod.toNat s.sound delta ∧
      State.sameMemory s t ∧ State.sameSurroundings s t ∧ State.answeredOk s t 0#32 []) ∧
    (s.config.tickMode = .single → ∀ d a, Timer.updateSingle s.config.tickPeriod.toNat s.delay delta = some d →
      Timer.updateSingle s.config.tickPeriod.toNat s.sound delta = some a → ∃ t, exec (.advance delta) s = .next t ∧
        t.delay = d ∧ t.sound = a ∧ State.sameMemory s t ∧ State.sameSurroundings s t ∧ State.answeredOk s t 0#32 []) ∧
    (s.config.tickMode = .single → (Timer.updateSingle s.config.tickPeriod.toNat s.delay delta = none ∨
      Timer.updateSingle s.config.tickPeriod.toNat s.sound delta = none) → ∃ t, exec (.advance delta) s = .next t ∧
        t.bundle = s.bundle ∧ State.sameSurroundings s t ∧ ∃ id, State.answeredError s t (.accumulatorOverflow id))

/-- R206: `AccumulatorOverflow` is raised exactly under SINGLE when a timer's accumulator, after the one permitted
subtraction, would be 2^32 or more, and names the delay timer if both would (R208). Under DRAIN it is never raised. -/
def Obligations.OverflowOnlyUnderSingle : Prop :=
  ∀ (s : State) (delta : Half), s.config.wf = true →
    let exceeds : Timer → Prop := fun t =>
      t.accumulated.toNat + delta.toNat -
        (if t.accumulated.toNat + delta.toNat ≥ s.config.tickPeriod.toNat then s.config.tickPeriod.toNat else 0) ≥ 2 ^ 32
    (s.config.tickMode = .drain → ∃ t, exec (.advance delta) s = .next t ∧ t.faults = s.faults) ∧
    (s.config.tickMode = .single → ∃ t, exec (.advance delta) s = .next t ∧
      (exceeds s.delay → State.answeredError s t (.accumulatorOverflow .delay)) ∧
      (¬ exceeds s.delay → exceeds s.sound → State.answeredError s t (.accumulatorOverflow .sound)) ∧
      (¬ exceeds s.delay → ¬ exceeds s.sound → t.faults = s.faults))

/-- R246: under DRAIN two ADVANCEs with deltas a and b, with a + b below 2^32, have the effect of one of a + b; under SINGLE
they need not. -/
def Obligations.AdvancesAddUp : Prop :=
  (∀ (s : State) (a b : Half), s.config.wf = true → s.config.tickMode = .drain → a.toNat + b.toNat < 2 ^ 32 →
    ∃ t u v, exec (.advance a) s = .next t ∧ exec (.advance b) t = .next u ∧ exec (.advance (a + b)) s = .next v ∧
      u.bundle = v.bundle) ∧
  (∃ (s t u v : State) (a b : Half), s.config.wf = true ∧ s.config.tickMode = .single ∧ a.toNat + b.toNat < 2 ^ 32 ∧
    exec (.advance a) s = .next t ∧ exec (.advance b) t = .next u ∧ exec (.advance (a + b)) s = .next v ∧
      u.bundle ≠ v.bundle)

/-- R117: a timer with count N >= 1, accumulator 0 and the flag down that receives deltas summing to N * P reaches 0 at the last
positive delta and not before; its flag is down before that update and up from it on. Under SINGLE this can fail: N = 2
and the one delta 2P end with count 1 and accumulator P. -/
def Obligations.CountdownCompletesAtTheLastPositiveDelta : Prop :=
  (∀ (p n : Nat) (t : Timer) (before after : List Half) (last : Half), 1 ≤ p → p < 2 ^ 32 → 1 ≤ n →
    t.count.toNat = n → t.accumulated = 0#32 → t.justCompleted = false → last ≠ 0#32 → (∀ d ∈ after, d = 0#32) →
    ((before ++ last :: after).map BitVec.toNat).sum = n * p →
      (∀ pre, pre <+: before → (pre.foldl (Timer.updateLoop p) t).count ≠ 0#8 ∧
        (pre.foldl (Timer.updateLoop p) t).justCompleted = false) ∧
      (∀ post, post <+: after → ((before ++ last :: post).foldl (Timer.updateLoop p) t).count = 0#8 ∧
        ((before ++ last :: post).foldl (Timer.updateLoop p) t).justCompleted = true)) ∧
  (∀ (p : Nat) (t : Timer), 1 ≤ p → 2 * p < 2 ^ 32 → t.count = 2#8 → t.accumulated = 0#32 → t.justCompleted = false →
    Timer.updateSingle p t (BitVec.ofNat 32 (2 * p)) =
      some { count := 1#8, accumulated := BitVec.ofNat 32 p, justCompleted := false })

/-- R241: after SETDELAY or SETSOUND v with accumulator r, the m-th decrement comes when the delta since has reached
`(m - 1) * P + (P - r)`; so the first needs `P - r`, later ones a full P each, and the count is 0 from
`(v - 1) * P + (P - r)` on. -/
def Obligations.ArmingKeepsThePhase : Prop :=
  ∀ (s : State) (v : Byte) (delta : Half) (m : Nat), s.Inv → s.config.tickMode = .drain → 1 ≤ m → m ≤ v.toNat →
    (∃ t u, exec (.setdelay v) s = .next t ∧ exec (.advance delta) t = .next u ∧
      (u.delay.count.toNat ≤ v.toNat - m ↔ (m - 1) * s.config.tickPeriod.toNat +
        (s.config.tickPeriod.toNat - s.delay.accumulated.toNat) ≤ delta.toNat)) ∧
    (∃ t u, exec (.setsound v) s = .next t ∧ exec (.advance delta) t = .next u ∧
      (u.sound.count.toNat ≤ v.toNat - m ↔ (m - 1) * s.config.tickPeriod.toNat +
        (s.config.tickPeriod.toNat - s.sound.accumulated.toNat) ≤ delta.toNat))

/-- R242: with the strobe up, SETSOUND v with v >= 1 leaves it up, and PLAYSOUND returns true during the whole new countdown;
only a boundary crossing at count 0 takes it down. -/
def Obligations.StrobeSurvivesARearm : Prop :=
  ∀ (s : State) (v : Byte) (delta : Half), s.config.wf = true → s.config.tickMode = .drain →
    s.sound.justCompleted = true → v ≠ 0#8 →
      ∃ t u w, exec (.setsound v) s = .next t ∧ exec (.advance delta) t = .next u ∧ exec .playsound u = .next w ∧
        t.sound.justCompleted = true ∧
        w.hostOut = u.hostOut ++ [if (s.sound.accumulated.toNat + delta.toNat) / s.config.tickPeriod.toNat ≤ v.toNat
          then 0x0000000000000001#64 else 0x0000000000000000#64]

/-- R243: one ADVANCE that crosses more boundaries than the count had left ends with the flag down; a delta below P crosses
at most one boundary, so that a completion is then always seen. -/
def Obligations.StrobeIsLostOnlyByALargeDelta : Prop :=
  ∀ (s : State) (delta : Half), s.Inv → s.config.tickMode = .drain → s.sound.count ≠ 0#8 →
    ∃ t, exec (.advance delta) s = .next t ∧
      ((s.sound.accumulated.toNat + delta.toNat) / s.config.tickPeriod.toNat > s.sound.count.toNat →
        t.sound.count = 0#8 ∧ t.sound.justCompleted = false) ∧
      (delta.toNat < s.config.tickPeriod.toNat →
        (s.sound.accumulated.toNat + delta.toNat) / s.config.tickPeriod.toNat ≤ 1 ∧
        (t.sound.count = 0#8 → t.sound.justCompleted = true))

/-- R34: only the timer update, run by ADVANCE and by STEP, writes the completion flags, and both are false at creation. The
same of the accumulators (R23). -/
def Obligations.OnlyTheTimerUpdateWritesFlags : Prop :=
  (∀ (s t : State) (i : Instr), (∀ delta, i ≠ .advance delta ∧ i ≠ .step delta) → exec i s = .next t →
    t.delay.justCompleted = s.delay.justCompleted ∧ t.sound.justCompleted = s.sound.justCompleted ∧
    t.delay.accumulated = s.delay.accumulated ∧ t.sound.accumulated = s.sound.accumulated) ∧
  (∀ c : Config, (State.fresh c).delay.justCompleted = false ∧ (State.fresh c).sound.justCompleted = false)

/-- R22: a count only ever decreases except by its SET command: no other command of the bundle raises it, and an update
never wraps it below 0. -/
def Obligations.CountsOnlyDecreaseExceptBySet : Prop :=
  ∀ (s t : State) (i : Instr), (∀ delta, i ≠ .step delta) → exec i s = .next t →
    ((∀ v, i ≠ .setdelay v) → t.delay.count.toNat ≤ s.delay.count.toNat) ∧
    ((∀ v, i ≠ .setsound v) → t.sound.count.toNat ≤ s.sound.count.toNat)

/-- R36: the delay timer's completion flag influences nothing observable: two machines that differ in it alone take steps
to machines that differ in it alone, STEPs with their processor commands included. -/
def Obligations.DelayFlagIsNeverObserved : Prop :=
  ∀ (s s' t t' : State), s.hideDelayFlag = s'.hideDelayFlag → step s = .next t → step s' = .next t' →
    t.hideDelayFlag = t'.hideDelayFlag ∧ t.hostOut = t'.hostOut ∧ t.procOut = t'.procOut

/-! ## The machine step (spec/43_step.md) -/

/-- R181, the case of an instruction that issues no command: STEP still advances the timers, exactly once, and takes the
processor to its next state. -/
def Obligations.StepOfAnIdleInstructionAdvances : Prop :=
  ∀ (s : State) (delta : Half) (q : Nat), s.config.wf = true → s.config.tickMode = .drain →
    s.procAction = .done q →
      exec (.step delta) s =
        .next { s with
          delay := Timer.updateLoop s.config.tickPeriod.toNat s.delay delta
          sound := Timer.updateLoop s.config.tickPeriod.toNat s.sound delta
          procQ := q
          hostOut := s.hostOut ++ [0#64] }

/-- R181: STEP is the commands the processor's instruction issues, each under its own rule and each response given to the
continuation, and then one ADVANCE, whose answer is STEP's. Where the commands succeed, the machine ends as if the host had
served them in turn and then ADVANCE, but for the ports their responses go to and the processor's next state. A command that
fails, or a word that is no command, makes STEP return its status, and `Fail` makes it return `ProcessorError`. That the ADVANCE
inside a STEP has no response and no fault entry of its own is the model's reading (log entry 22). -/
def Obligations.StepIsTheCommandsThenAdvance : Prop :=
  encodedAs 0x30#8 0x3000000000000000#64 0xFFFFFFFF00000000#64 (fun w => .step (w.extractLsb' 0 32)) ∧
  ∀ (s t : State) (delta : Half) (steps : List (Instr × List Word)) (final : ProcAction), (∀ p ∈ steps, Instr.issuable p.1) →
    actionIssues steps s.procAction [] final → servedAs steps s t →
      (∀ (u : State) (q : Nat), final = .done q → exec (.advance delta) t = .next u →
        ∃ v resp, exec (.step delta) s = .next v ∧ v.bundle = u.bundle ∧ v.faults = u.faults ∧
          (u.faults = t.faults → v.procQ = q) ∧ u.hostOut = t.hostOut ++ [resp] ∧ v.hostOut = s.hostOut ++ [resp] ∧
          v.procOut = s.procOut ++ (steps.map Prod.snd).flatten ∧
          v.config = s.config ∧ v.hostIn = s.hostIn ∧ v.procTable = s.procTable ∧ v.hung = s.hung) ∧
      (∀ (i : Instr) (next : ProcAction) (u : State) (e : Error), Instr.issuable i →
        final = .issue (encodeHeader i) (encodePayload i) next → exec i t = .next u → State.answeredError t u e →
          ∃ v, exec (.step delta) s = .next v ∧ v.hostOut = s.hostOut ++ [e.response]) ∧
      (∀ (word : Word) (payload : List Word) (next : ProcAction) (e : Error), final = .issue word payload next →
        performIssue word payload t = .error e →
          ∃ v, exec (.step delta) s = .next v ∧ v.hostOut = s.hostOut ++ [e.response]) ∧
      (∀ reason : Nat, final = .fail reason →
        ∃ v, exec (.step delta) s = .next v ∧ v.hostOut = s.hostOut ++ [0x0600000000000000#64])

/-- R10, R30: a STEP is not atomic. Between the processor's commands an observer of the outputs sees what the commands so far
have left. That these states are given by `chainStates`, beside `step`, is the model's choice (log entry 7). The state after the
n-th command is, for the bundle and both outputs, that of serving the first n commands; and STEP goes on from the last of
them, by ADVANCE, by returning an error or by hanging (R180 to R182). How it goes on is the model's reading: the ADVANCE's answer
is the STEP's (DEDUCED, log entry 22) and Q is updated before it, even if it overflows (DEDUCED, log entry 10); the error of a
command that fails is noted once more, as the STEP's (DEDUCED, log entry 9); and a chain that never ends sets `hung` (DESIGN
CHOICE, log entry 8). -/
def Obligations.OutputsShowEachProcessorCommand : Prop :=
  (∀ (s t : State) (before : List (Instr × List Word)) (p : Instr × List Word) (rest : ProcAction),
    (∀ p' ∈ before ++ [p], Instr.issuable p'.1) → actionIssues (before ++ [p]) s.procAction [] rest →
    servedAs (before ++ [p]) s t →
      ∃ v, (chainStates s.procAction [] s)[before.length]? = some v ∧ v.bundle = t.bundle ∧
        v.vramOut = t.vramOut ∧ v.soundComplete = t.soundComplete) ∧
  (∀ (s : State) (delta : Half), ∃ v w, v = (chainStates s.procAction [] s).getLast?.getD s ∧
    exec (.step delta) s = .next w ∧
      ((∃ q, exec (.advance delta) { v with procQ := q } = .next w) ∨
        (∃ e, w.bundle = v.bundle ∧ State.sameSurroundings v w ∧ State.answeredError v w e) ∨ w = { v with hung := true }))

/-- R182, R207: a STEP whose instruction fails, by a command that fails, by a word that is no command or is a nested STEP (R204),
or by `Fail(reason)`, stops there: the commands before it stay in effect, neither is `Q` updated nor ADVANCE performed, and
the error is returned on the host port and noted. -/
def Obligations.StepStopsAtTheFailingCommand : Prop :=
  ∀ (s t : State) (delta : Half) (steps : List (Instr × List Word)) (final : ProcAction) (e : Error) (last : List Word),
    (∀ p ∈ steps, Instr.issuable p.1) → actionIssues steps s.procAction [] final → servedAs steps s t →
    (∃ i next u, Instr.issuable i ∧ final = .issue (encodeHeader i) (encodePayload i) next ∧ exec i t = .next u ∧
      State.answeredError t u e ∧ last = [e.response]) ∨
    (∃ word payload next, final = .issue word payload next ∧ performIssue word payload t = .error e ∧
      last = [e.response]) ∨
    (∃ reason, final = .fail reason ∧ e = .processorError reason ∧ last = []) →
      ∃ v, exec (.step delta) s = .next v ∧ v.bundle = t.bundle ∧ v.procQ = s.procQ ∧ v.config = s.config ∧
        v.hung = s.hung ∧ v.hostIn = s.hostIn ∧ v.procTable = s.procTable ∧ v.hostOut = s.hostOut ++ [e.response] ∧
        v.procOut = s.procOut ++ (steps.map Prod.snd).flatten ++ last ∧ (∃ es, v.faults = s.faults ++ es ∧ e ∈ es) ∧
        ∀ reason, e = .processorError reason → e.response = 0x0600000000000000#64

/-- A STEP whose chain never ends never completes, and the block makes no further progress (R180). That such a chain is the
action `hang`, reached after finitely many commands, which stay in effect and are the last to write the bundle, is the model's
choice (log entry 8). -/
def Obligations.HangingChainNeverCompletes : Prop :=
  ∀ (s t : State) (delta : Half) (steps : List (Instr × List Word)), (∀ p ∈ steps, Instr.issuable p.1) →
    actionIssues steps s.procAction [] .hang → servedAs steps s t →
      ∃ v, exec (.step delta) s = .next v ∧ v.hostOut = s.hostOut ∧ v.bundle = t.bundle ∧ v.procQ = s.procQ ∧
        ∀ n, Host.Core.run Sys2Proof.core n v = .next v

/-- R81: STEP on the processor port is `IllegalCommand` and writes no state, whatever payload is listed with it and whatever the
state in which it is issued; every other command is admitted there, and has the result and effect it has on the host port. -/
def Obligations.ProcessorPortAdmitsEverythingButStep : Prop :=
  (∀ (s : State) (inner : Half) (payload : List Word),
    performIssue (encodeHeader (.step inner)) payload s = .error (.illegalCommand (encodeHeader (.step inner)))) ∧
  (∀ (s : State) (delta inner : Half) (payload : List Word) (next : ProcAction),
    s.procAction = .issue (encodeHeader (.step inner)) payload next →
      ∃ t, exec (.step delta) s = .next t ∧ t.bundle = s.bundle ∧ t.procQ = s.procQ ∧
        t.hostOut = s.hostOut ++ [0x0300000000000000#64] ∧ t.procOut = s.procOut ++ [0x0300000000000000#64]) ∧
  (∀ (s t : State) (i : Instr), Instr.issuable i → exec i s = .next t →
    t = s.reply .host (performIssue (encodeHeader i) (encodePayload i) s))

/-- R183: an instruction that sets the delay timer, or the sound timer, and reads it in the same step reads the value set, under
either tick mode; the tick of this step comes after it. -/
def Obligations.InstructionPrecedesTheTick : Prop :=
  ∀ (s : State) (delta : Half) (v : Byte) (q : Nat),
    (s.procAction = scriptAction [.setdelay v, .getdelay] (.done q) →
      ∃ t, exec (.step delta) s = .next t ∧
        t.procOut = s.procOut ++ [0#64, responseWord 0x00#8 (v.setWidth 32)] ∧
        (s.config.wf = true → s.config.tickMode = .drain →
          t.delay = Timer.updateLoop s.config.tickPeriod.toNat { s.delay with count := v } delta)) ∧
    (s.procAction = scriptAction [.setsound v, .getsound] (.done q) →
      ∃ t, exec (.step delta) s = .next t ∧
        t.procOut = s.procOut ++ [0#64, responseWord 0x00#8 (v.setWidth 32)] ∧
        (s.config.wf = true → s.config.tickMode = .drain →
          t.sound = Timer.updateLoop s.config.tickPeriod.toNat { s.sound with count := v } delta))

/-! ## Creation and the invariant (spec/10_state.md R31, R37; spec/70_reset_and_hazards.md) -/

/-- R231 and R37: construction is refused unless the tick period is at least 1 and FONT is 80 bytes that begin with 0xF0; a
bundle that is constructed starts with every count, accumulator, byte and key zero and both flags false. -/
def Obligations.CreationRefusesOrStartsZeroed : Prop :=
  ∀ c : Config,
    (State.create c = none ↔ c.tickPeriod = 0#32 ∨ c.font.length ≠ 80 ∨ c.font.head? ≠ some 0xF0#8) ∧
    ∀ s, State.create c = some s → s.config = c ∧ s.faults = [] ∧
      s.delay = { count := 0#8, accumulated := 0#32, justCompleted := false } ∧
      s.sound = { count := 0#8, accumulated := 0#32, justCompleted := false } ∧ ∀ sp a, s.readByte sp a = 0#8

/-- R31 at creation: the invariant holds of every bundle that is constructed, and of `State.reset`. -/
def Obligations.InvariantHoldsAtCreation : Prop :=
  State.reset.Inv ∧ ∀ c s, State.create c = some s → s.Inv

/-- R31: every step keeps the invariant: the accumulators below the period under DRAIN, the key-latch entries 0 or 1, and
RAM, VRAM and the key latch of their size, in canonical form. -/
def Obligations.EveryStepKeepsTheInvariant : Prop :=
  ∀ s t : State, s.Inv → step s = .next t → t.Inv
end

