-- ==== Sys2Proof/Laws/State.lean ====
section
/-! SUPPORT. One lemma for each field of the state under each named update, so that no proof unfolds a record update. -/

namespace Sys2Proof.Machine

/-! ## Places by name -/

@[simp] theorem State.memory_ram (s : State) : s.memory .ram = s.ram := rfl
@[simp] theorem State.memory_vram (s : State) : s.memory .vram = s.vram := rfl
@[simp] theorem State.memory_keys (s : State) : s.memory .keys = s.keys := rfl
@[simp] theorem State.timer_delay (s : State) : s.timer .delay = s.delay := rfl
@[simp] theorem State.timer_sound (s : State) : s.timer .sound = s.sound := rfl
@[simp] theorem State.bundle_delay (s : State) : s.bundle.delay = s.delay := rfl
@[simp] theorem State.bundle_sound (s : State) : s.bundle.sound = s.sound := rfl
@[simp] theorem State.bundle_ram (s : State) : s.bundle.ram = s.ram := rfl
@[simp] theorem State.bundle_vram (s : State) : s.bundle.vram = s.vram := rfl
@[simp] theorem State.bundle_keys (s : State) : s.bundle.keys = s.keys := rfl

theorem State.bundle_eq_iff (s t : State) : s.bundle = t.bundle ↔
    s.delay = t.delay ∧ s.sound = t.sound ∧ s.ram = t.ram ∧ s.vram = t.vram ∧ s.keys = t.keys := by
  simp [State.bundle]

/-! ## `setProcQ` -/

@[simp] theorem State.setProcQ_config (s : State) (q : Nat) : (s.setProcQ q).config = s.config := rfl
@[simp] theorem State.setProcQ_delay (s : State) (q : Nat) : (s.setProcQ q).delay = s.delay := rfl
@[simp] theorem State.setProcQ_sound (s : State) (q : Nat) : (s.setProcQ q).sound = s.sound := rfl
@[simp] theorem State.setProcQ_ram (s : State) (q : Nat) : (s.setProcQ q).ram = s.ram := rfl
@[simp] theorem State.setProcQ_vram (s : State) (q : Nat) : (s.setProcQ q).vram = s.vram := rfl
@[simp] theorem State.setProcQ_keys (s : State) (q : Nat) : (s.setProcQ q).keys = s.keys := rfl
@[simp] theorem State.setProcQ_faults (s : State) (q : Nat) : (s.setProcQ q).faults = s.faults := rfl
@[simp] theorem State.setProcQ_hostIn (s : State) (q : Nat) : (s.setProcQ q).hostIn = s.hostIn := rfl
@[simp] theorem State.setProcQ_hostOut (s : State) (q : Nat) : (s.setProcQ q).hostOut = s.hostOut := rfl
@[simp] theorem State.setProcQ_procOut (s : State) (q : Nat) : (s.setProcQ q).procOut = s.procOut := rfl
@[simp] theorem State.setProcQ_procQ (s : State) (q : Nat) : (s.setProcQ q).procQ = q := rfl
@[simp] theorem State.setProcQ_procTable (s : State) (q : Nat) : (s.setProcQ q).procTable = s.procTable := rfl
@[simp] theorem State.setProcQ_hung (s : State) (q : Nat) : (s.setProcQ q).hung = s.hung := rfl

/-! ## `hang` -/

@[simp] theorem State.hang_config (s : State) : (s.hang).config = s.config := rfl
@[simp] theorem State.hang_delay (s : State) : (s.hang).delay = s.delay := rfl
@[simp] theorem State.hang_sound (s : State) : (s.hang).sound = s.sound := rfl
@[simp] theorem State.hang_ram (s : State) : (s.hang).ram = s.ram := rfl
@[simp] theorem State.hang_vram (s : State) : (s.hang).vram = s.vram := rfl
@[simp] theorem State.hang_keys (s : State) : (s.hang).keys = s.keys := rfl
@[simp] theorem State.hang_faults (s : State) : (s.hang).faults = s.faults := rfl
@[simp] theorem State.hang_hostIn (s : State) : (s.hang).hostIn = s.hostIn := rfl
@[simp] theorem State.hang_hostOut (s : State) : (s.hang).hostOut = s.hostOut := rfl
@[simp] theorem State.hang_procOut (s : State) : (s.hang).procOut = s.procOut := rfl
@[simp] theorem State.hang_procQ (s : State) : (s.hang).procQ = s.procQ := rfl
@[simp] theorem State.hang_procTable (s : State) : (s.hang).procTable = s.procTable := rfl
@[simp] theorem State.hang_hung (s : State) : (s.hang).hung = true := rfl

/-! ## `setHostIn` -/

@[simp] theorem State.setHostIn_config (s : State) (ws : List Word) : (s.setHostIn ws).config = s.config := rfl
@[simp] theorem State.setHostIn_delay (s : State) (ws : List Word) : (s.setHostIn ws).delay = s.delay := rfl
@[simp] theorem State.setHostIn_sound (s : State) (ws : List Word) : (s.setHostIn ws).sound = s.sound := rfl
@[simp] theorem State.setHostIn_ram (s : State) (ws : List Word) : (s.setHostIn ws).ram = s.ram := rfl
@[simp] theorem State.setHostIn_vram (s : State) (ws : List Word) : (s.setHostIn ws).vram = s.vram := rfl
@[simp] theorem State.setHostIn_keys (s : State) (ws : List Word) : (s.setHostIn ws).keys = s.keys := rfl
@[simp] theorem State.setHostIn_faults (s : State) (ws : List Word) : (s.setHostIn ws).faults = s.faults := rfl
@[simp] theorem State.setHostIn_hostIn (s : State) (ws : List Word) : (s.setHostIn ws).hostIn = ws := rfl
@[simp] theorem State.setHostIn_hostOut (s : State) (ws : List Word) : (s.setHostIn ws).hostOut = s.hostOut := rfl
@[simp] theorem State.setHostIn_procOut (s : State) (ws : List Word) : (s.setHostIn ws).procOut = s.procOut := rfl
@[simp] theorem State.setHostIn_procQ (s : State) (ws : List Word) : (s.setHostIn ws).procQ = s.procQ := rfl
@[simp] theorem State.setHostIn_procTable (s : State) (ws : List Word) : (s.setHostIn ws).procTable = s.procTable := rfl
@[simp] theorem State.setHostIn_hung (s : State) (ws : List Word) : (s.setHostIn ws).hung = s.hung := rfl

/-! ## `recordFault` -/

@[simp] theorem State.recordFault_config (s : State) (e : Error) : (s.recordFault e).config = s.config := rfl
@[simp] theorem State.recordFault_delay (s : State) (e : Error) : (s.recordFault e).delay = s.delay := rfl
@[simp] theorem State.recordFault_sound (s : State) (e : Error) : (s.recordFault e).sound = s.sound := rfl
@[simp] theorem State.recordFault_ram (s : State) (e : Error) : (s.recordFault e).ram = s.ram := rfl
@[simp] theorem State.recordFault_vram (s : State) (e : Error) : (s.recordFault e).vram = s.vram := rfl
@[simp] theorem State.recordFault_keys (s : State) (e : Error) : (s.recordFault e).keys = s.keys := rfl
@[simp] theorem State.recordFault_faults (s : State) (e : Error) : (s.recordFault e).faults = s.faults ++ [e] := rfl
@[simp] theorem State.recordFault_hostIn (s : State) (e : Error) : (s.recordFault e).hostIn = s.hostIn := rfl
@[simp] theorem State.recordFault_hostOut (s : State) (e : Error) : (s.recordFault e).hostOut = s.hostOut := rfl
@[simp] theorem State.recordFault_procOut (s : State) (e : Error) : (s.recordFault e).procOut = s.procOut := rfl
@[simp] theorem State.recordFault_procQ (s : State) (e : Error) : (s.recordFault e).procQ = s.procQ := rfl
@[simp] theorem State.recordFault_procTable (s : State) (e : Error) : (s.recordFault e).procTable = s.procTable := rfl
@[simp] theorem State.recordFault_hung (s : State) (e : Error) : (s.recordFault e).hung = s.hung := rfl

/-! ## `send .host` -/

@[simp] theorem State.send_host_config (s : State) (ws : List Word) : (s.send .host ws).config = s.config := rfl
@[simp] theorem State.send_host_delay (s : State) (ws : List Word) : (s.send .host ws).delay = s.delay := rfl
@[simp] theorem State.send_host_sound (s : State) (ws : List Word) : (s.send .host ws).sound = s.sound := rfl
@[simp] theorem State.send_host_ram (s : State) (ws : List Word) : (s.send .host ws).ram = s.ram := rfl
@[simp] theorem State.send_host_vram (s : State) (ws : List Word) : (s.send .host ws).vram = s.vram := rfl
@[simp] theorem State.send_host_keys (s : State) (ws : List Word) : (s.send .host ws).keys = s.keys := rfl
@[simp] theorem State.send_host_faults (s : State) (ws : List Word) : (s.send .host ws).faults = s.faults := rfl
@[simp] theorem State.send_host_hostIn (s : State) (ws : List Word) : (s.send .host ws).hostIn = s.hostIn := rfl
@[simp] theorem State.send_host_hostOut (s : State) (ws : List Word) : (s.send .host ws).hostOut = s.hostOut ++ ws := rfl
@[simp] theorem State.send_host_procOut (s : State) (ws : List Word) : (s.send .host ws).procOut = s.procOut := rfl
@[simp] theorem State.send_host_procQ (s : State) (ws : List Word) : (s.send .host ws).procQ = s.procQ := rfl
@[simp] theorem State.send_host_procTable (s : State) (ws : List Word) : (s.send .host ws).procTable = s.procTable := rfl
@[simp] theorem State.send_host_hung (s : State) (ws : List Word) : (s.send .host ws).hung = s.hung := rfl

/-! ## `send .processor` -/

@[simp] theorem State.send_processor_config (s : State) (ws : List Word) : (s.send .processor ws).config = s.config := rfl
@[simp] theorem State.send_processor_delay (s : State) (ws : List Word) : (s.send .processor ws).delay = s.delay := rfl
@[simp] theorem State.send_processor_sound (s : State) (ws : List Word) : (s.send .processor ws).sound = s.sound := rfl
@[simp] theorem State.send_processor_ram (s : State) (ws : List Word) : (s.send .processor ws).ram = s.ram := rfl
@[simp] theorem State.send_processor_vram (s : State) (ws : List Word) : (s.send .processor ws).vram = s.vram := rfl
@[simp] theorem State.send_processor_keys (s : State) (ws : List Word) : (s.send .processor ws).keys = s.keys := rfl
@[simp] theorem State.send_processor_faults (s : State) (ws : List Word) : (s.send .processor ws).faults = s.faults := rfl
@[simp] theorem State.send_processor_hostIn (s : State) (ws : List Word) : (s.send .processor ws).hostIn = s.hostIn := rfl
@[simp] theorem State.send_processor_hostOut (s : State) (ws : List Word) : (s.send .processor ws).hostOut = s.hostOut := rfl
@[simp] theorem State.send_processor_procOut (s : State) (ws : List Word) : (s.send .processor ws).procOut = s.procOut ++ ws := rfl
@[simp] theorem State.send_processor_procQ (s : State) (ws : List Word) : (s.send .processor ws).procQ = s.procQ := rfl
@[simp] theorem State.send_processor_procTable (s : State) (ws : List Word) : (s.send .processor ws).procTable = s.procTable := rfl
@[simp] theorem State.send_processor_hung (s : State) (ws : List Word) : (s.send .processor ws).hung = s.hung := rfl

/-! ## `raise .host` -/

@[simp] theorem State.raise_host_config (s : State) (e : Error) : (s.raise .host e).config = s.config := rfl
@[simp] theorem State.raise_host_delay (s : State) (e : Error) : (s.raise .host e).delay = s.delay := rfl
@[simp] theorem State.raise_host_sound (s : State) (e : Error) : (s.raise .host e).sound = s.sound := rfl
@[simp] theorem State.raise_host_ram (s : State) (e : Error) : (s.raise .host e).ram = s.ram := rfl
@[simp] theorem State.raise_host_vram (s : State) (e : Error) : (s.raise .host e).vram = s.vram := rfl
@[simp] theorem State.raise_host_keys (s : State) (e : Error) : (s.raise .host e).keys = s.keys := rfl
@[simp] theorem State.raise_host_faults (s : State) (e : Error) : (s.raise .host e).faults = s.faults ++ [e] := rfl
@[simp] theorem State.raise_host_hostIn (s : State) (e : Error) : (s.raise .host e).hostIn = s.hostIn := rfl
@[simp] theorem State.raise_host_hostOut (s : State) (e : Error) : (s.raise .host e).hostOut = s.hostOut ++ [e.response] := rfl
@[simp] theorem State.raise_host_procOut (s : State) (e : Error) : (s.raise .host e).procOut = s.procOut := rfl
@[simp] theorem State.raise_host_procQ (s : State) (e : Error) : (s.raise .host e).procQ = s.procQ := rfl
@[simp] theorem State.raise_host_procTable (s : State) (e : Error) : (s.raise .host e).procTable = s.procTable := rfl
@[simp] theorem State.raise_host_hung (s : State) (e : Error) : (s.raise .host e).hung = s.hung := rfl

/-! ## `raise .processor` -/

@[simp] theorem State.raise_processor_config (s : State) (e : Error) : (s.raise .processor e).config = s.config := rfl
@[simp] theorem State.raise_processor_delay (s : State) (e : Error) : (s.raise .processor e).delay = s.delay := rfl
@[simp] theorem State.raise_processor_sound (s : State) (e : Error) : (s.raise .processor e).sound = s.sound := rfl
@[simp] theorem State.raise_processor_ram (s : State) (e : Error) : (s.raise .processor e).ram = s.ram := rfl
@[simp] theorem State.raise_processor_vram (s : State) (e : Error) : (s.raise .processor e).vram = s.vram := rfl
@[simp] theorem State.raise_processor_keys (s : State) (e : Error) : (s.raise .processor e).keys = s.keys := rfl
@[simp] theorem State.raise_processor_faults (s : State) (e : Error) : (s.raise .processor e).faults = s.faults ++ [e] := rfl
@[simp] theorem State.raise_processor_hostIn (s : State) (e : Error) : (s.raise .processor e).hostIn = s.hostIn := rfl
@[simp] theorem State.raise_processor_hostOut (s : State) (e : Error) : (s.raise .processor e).hostOut = s.hostOut := rfl
@[simp] theorem State.raise_processor_procOut (s : State) (e : Error) : (s.raise .processor e).procOut = s.procOut ++ [e.response] := rfl
@[simp] theorem State.raise_processor_procQ (s : State) (e : Error) : (s.raise .processor e).procQ = s.procQ := rfl
@[simp] theorem State.raise_processor_procTable (s : State) (e : Error) : (s.raise .processor e).procTable = s.procTable := rfl
@[simp] theorem State.raise_processor_hung (s : State) (e : Error) : (s.raise .processor e).hung = s.hung := rfl

/-! ## `setTimer .delay` -/

@[simp] theorem State.setTimer_delay_config (s : State) (t : Timer) : (s.setTimer .delay t).config = s.config := rfl
@[simp] theorem State.setTimer_delay_delay (s : State) (t : Timer) : (s.setTimer .delay t).delay = t := rfl
@[simp] theorem State.setTimer_delay_sound (s : State) (t : Timer) : (s.setTimer .delay t).sound = s.sound := rfl
@[simp] theorem State.setTimer_delay_ram (s : State) (t : Timer) : (s.setTimer .delay t).ram = s.ram := rfl
@[simp] theorem State.setTimer_delay_vram (s : State) (t : Timer) : (s.setTimer .delay t).vram = s.vram := rfl
@[simp] theorem State.setTimer_delay_keys (s : State) (t : Timer) : (s.setTimer .delay t).keys = s.keys := rfl
@[simp] theorem State.setTimer_delay_faults (s : State) (t : Timer) : (s.setTimer .delay t).faults = s.faults := rfl
@[simp] theorem State.setTimer_delay_hostIn (s : State) (t : Timer) : (s.setTimer .delay t).hostIn = s.hostIn := rfl
@[simp] theorem State.setTimer_delay_hostOut (s : State) (t : Timer) : (s.setTimer .delay t).hostOut = s.hostOut := rfl
@[simp] theorem State.setTimer_delay_procOut (s : State) (t : Timer) : (s.setTimer .delay t).procOut = s.procOut := rfl
@[simp] theorem State.setTimer_delay_procQ (s : State) (t : Timer) : (s.setTimer .delay t).procQ = s.procQ := rfl
@[simp] theorem State.setTimer_delay_procTable (s : State) (t : Timer) : (s.setTimer .delay t).procTable = s.procTable := rfl
@[simp] theorem State.setTimer_delay_hung (s : State) (t : Timer) : (s.setTimer .delay t).hung = s.hung := rfl

/-! ## `setTimer .sound` -/

@[simp] theorem State.setTimer_sound_config (s : State) (t : Timer) : (s.setTimer .sound t).config = s.config := rfl
@[simp] theorem State.setTimer_sound_delay (s : State) (t : Timer) : (s.setTimer .sound t).delay = s.delay := rfl
@[simp] theorem State.setTimer_sound_sound (s : State) (t : Timer) : (s.setTimer .sound t).sound = t := rfl
@[simp] theorem State.setTimer_sound_ram (s : State) (t : Timer) : (s.setTimer .sound t).ram = s.ram := rfl
@[simp] theorem State.setTimer_sound_vram (s : State) (t : Timer) : (s.setTimer .sound t).vram = s.vram := rfl
@[simp] theorem State.setTimer_sound_keys (s : State) (t : Timer) : (s.setTimer .sound t).keys = s.keys := rfl
@[simp] theorem State.setTimer_sound_faults (s : State) (t : Timer) : (s.setTimer .sound t).faults = s.faults := rfl
@[simp] theorem State.setTimer_sound_hostIn (s : State) (t : Timer) : (s.setTimer .sound t).hostIn = s.hostIn := rfl
@[simp] theorem State.setTimer_sound_hostOut (s : State) (t : Timer) : (s.setTimer .sound t).hostOut = s.hostOut := rfl
@[simp] theorem State.setTimer_sound_procOut (s : State) (t : Timer) : (s.setTimer .sound t).procOut = s.procOut := rfl
@[simp] theorem State.setTimer_sound_procQ (s : State) (t : Timer) : (s.setTimer .sound t).procQ = s.procQ := rfl
@[simp] theorem State.setTimer_sound_procTable (s : State) (t : Timer) : (s.setTimer .sound t).procTable = s.procTable := rfl
@[simp] theorem State.setTimer_sound_hung (s : State) (t : Timer) : (s.setTimer .sound t).hung = s.hung := rfl

/-! ## `setTimers` -/

@[simp] theorem State.setTimers_config (s : State) (d a : Timer) : (s.setTimers d a).config = s.config := rfl
@[simp] theorem State.setTimers_delay (s : State) (d a : Timer) : (s.setTimers d a).delay = d := rfl
@[simp] theorem State.setTimers_sound (s : State) (d a : Timer) : (s.setTimers d a).sound = a := rfl
@[simp] theorem State.setTimers_ram (s : State) (d a : Timer) : (s.setTimers d a).ram = s.ram := rfl
@[simp] theorem State.setTimers_vram (s : State) (d a : Timer) : (s.setTimers d a).vram = s.vram := rfl
@[simp] theorem State.setTimers_keys (s : State) (d a : Timer) : (s.setTimers d a).keys = s.keys := rfl
@[simp] theorem State.setTimers_faults (s : State) (d a : Timer) : (s.setTimers d a).faults = s.faults := rfl
@[simp] theorem State.setTimers_hostIn (s : State) (d a : Timer) : (s.setTimers d a).hostIn = s.hostIn := rfl
@[simp] theorem State.setTimers_hostOut (s : State) (d a : Timer) : (s.setTimers d a).hostOut = s.hostOut := rfl
@[simp] theorem State.setTimers_procOut (s : State) (d a : Timer) : (s.setTimers d a).procOut = s.procOut := rfl
@[simp] theorem State.setTimers_procQ (s : State) (d a : Timer) : (s.setTimers d a).procQ = s.procQ := rfl
@[simp] theorem State.setTimers_procTable (s : State) (d a : Timer) : (s.setTimers d a).procTable = s.procTable := rfl
@[simp] theorem State.setTimers_hung (s : State) (d a : Timer) : (s.setTimers d a).hung = s.hung := rfl

/-! ## `setMemory .ram` -/

@[simp] theorem State.setMemory_ram_config (s : State) (m : Memory) : (s.setMemory .ram m).config = s.config := rfl
@[simp] theorem State.setMemory_ram_delay (s : State) (m : Memory) : (s.setMemory .ram m).delay = s.delay := rfl
@[simp] theorem State.setMemory_ram_sound (s : State) (m : Memory) : (s.setMemory .ram m).sound = s.sound := rfl
@[simp] theorem State.setMemory_ram_ram (s : State) (m : Memory) : (s.setMemory .ram m).ram = m := rfl
@[simp] theorem State.setMemory_ram_vram (s : State) (m : Memory) : (s.setMemory .ram m).vram = s.vram := rfl
@[simp] theorem State.setMemory_ram_keys (s : State) (m : Memory) : (s.setMemory .ram m).keys = s.keys := rfl
@[simp] theorem State.setMemory_ram_faults (s : State) (m : Memory) : (s.setMemory .ram m).faults = s.faults := rfl
@[simp] theorem State.setMemory_ram_hostIn (s : State) (m : Memory) : (s.setMemory .ram m).hostIn = s.hostIn := rfl
@[simp] theorem State.setMemory_ram_hostOut (s : State) (m : Memory) : (s.setMemory .ram m).hostOut = s.hostOut := rfl
@[simp] theorem State.setMemory_ram_procOut (s : State) (m : Memory) : (s.setMemory .ram m).procOut = s.procOut := rfl
@[simp] theorem State.setMemory_ram_procQ (s : State) (m : Memory) : (s.setMemory .ram m).procQ = s.procQ := rfl
@[simp] theorem State.setMemory_ram_procTable (s : State) (m : Memory) : (s.setMemory .ram m).procTable = s.procTable := rfl
@[simp] theorem State.setMemory_ram_hung (s : State) (m : Memory) : (s.setMemory .ram m).hung = s.hung := rfl

/-! ## `setMemory .vram` -/

@[simp] theorem State.setMemory_vram_config (s : State) (m : Memory) : (s.setMemory .vram m).config = s.config := rfl
@[simp] theorem State.setMemory_vram_delay (s : State) (m : Memory) : (s.setMemory .vram m).delay = s.delay := rfl
@[simp] theorem State.setMemory_vram_sound (s : State) (m : Memory) : (s.setMemory .vram m).sound = s.sound := rfl
@[simp] theorem State.setMemory_vram_ram (s : State) (m : Memory) : (s.setMemory .vram m).ram = s.ram := rfl
@[simp] theorem State.setMemory_vram_vram (s : State) (m : Memory) : (s.setMemory .vram m).vram = m := rfl
@[simp] theorem State.setMemory_vram_keys (s : State) (m : Memory) : (s.setMemory .vram m).keys = s.keys := rfl
@[simp] theorem State.setMemory_vram_faults (s : State) (m : Memory) : (s.setMemory .vram m).faults = s.faults := rfl
@[simp] theorem State.setMemory_vram_hostIn (s : State) (m : Memory) : (s.setMemory .vram m).hostIn = s.hostIn := rfl
@[simp] theorem State.setMemory_vram_hostOut (s : State) (m : Memory) : (s.setMemory .vram m).hostOut = s.hostOut := rfl
@[simp] theorem State.setMemory_vram_procOut (s : State) (m : Memory) : (s.setMemory .vram m).procOut = s.procOut := rfl
@[simp] theorem State.setMemory_vram_procQ (s : State) (m : Memory) : (s.setMemory .vram m).procQ = s.procQ := rfl
@[simp] theorem State.setMemory_vram_procTable (s : State) (m : Memory) : (s.setMemory .vram m).procTable = s.procTable := rfl
@[simp] theorem State.setMemory_vram_hung (s : State) (m : Memory) : (s.setMemory .vram m).hung = s.hung := rfl

/-! ## `setMemory .keys` -/

@[simp] theorem State.setMemory_keys_config (s : State) (m : Memory) : (s.setMemory .keys m).config = s.config := rfl
@[simp] theorem State.setMemory_keys_delay (s : State) (m : Memory) : (s.setMemory .keys m).delay = s.delay := rfl
@[simp] theorem State.setMemory_keys_sound (s : State) (m : Memory) : (s.setMemory .keys m).sound = s.sound := rfl
@[simp] theorem State.setMemory_keys_ram (s : State) (m : Memory) : (s.setMemory .keys m).ram = s.ram := rfl
@[simp] theorem State.setMemory_keys_vram (s : State) (m : Memory) : (s.setMemory .keys m).vram = s.vram := rfl
@[simp] theorem State.setMemory_keys_keys (s : State) (m : Memory) : (s.setMemory .keys m).keys = m := rfl
@[simp] theorem State.setMemory_keys_faults (s : State) (m : Memory) : (s.setMemory .keys m).faults = s.faults := rfl
@[simp] theorem State.setMemory_keys_hostIn (s : State) (m : Memory) : (s.setMemory .keys m).hostIn = s.hostIn := rfl
@[simp] theorem State.setMemory_keys_hostOut (s : State) (m : Memory) : (s.setMemory .keys m).hostOut = s.hostOut := rfl
@[simp] theorem State.setMemory_keys_procOut (s : State) (m : Memory) : (s.setMemory .keys m).procOut = s.procOut := rfl
@[simp] theorem State.setMemory_keys_procQ (s : State) (m : Memory) : (s.setMemory .keys m).procQ = s.procQ := rfl
@[simp] theorem State.setMemory_keys_procTable (s : State) (m : Memory) : (s.setMemory .keys m).procTable = s.procTable := rfl
@[simp] theorem State.setMemory_keys_hung (s : State) (m : Memory) : (s.setMemory .keys m).hung = s.hung := rfl

/-! ## `writeByte .ram` -/

@[simp] theorem State.writeByte_ram_config (s : State) (i : Nat) (v : Byte) : (s.writeByte .ram i v).config = s.config := rfl
@[simp] theorem State.writeByte_ram_delay (s : State) (i : Nat) (v : Byte) : (s.writeByte .ram i v).delay = s.delay := rfl
@[simp] theorem State.writeByte_ram_sound (s : State) (i : Nat) (v : Byte) : (s.writeByte .ram i v).sound = s.sound := rfl
@[simp] theorem State.writeByte_ram_ram (s : State) (i : Nat) (v : Byte) : (s.writeByte .ram i v).ram = Memory.write s.ram i v := rfl
@[simp] theorem State.writeByte_ram_vram (s : State) (i : Nat) (v : Byte) : (s.writeByte .ram i v).vram = s.vram := rfl
@[simp] theorem State.writeByte_ram_keys (s : State) (i : Nat) (v : Byte) : (s.writeByte .ram i v).keys = s.keys := rfl
@[simp] theorem State.writeByte_ram_faults (s : State) (i : Nat) (v : Byte) : (s.writeByte .ram i v).faults = s.faults := rfl
@[simp] theorem State.writeByte_ram_hostIn (s : State) (i : Nat) (v : Byte) : (s.writeByte .ram i v).hostIn = s.hostIn := rfl
@[simp] theorem State.writeByte_ram_hostOut (s : State) (i : Nat) (v : Byte) : (s.writeByte .ram i v).hostOut = s.hostOut := rfl
@[simp] theorem State.writeByte_ram_procOut (s : State) (i : Nat) (v : Byte) : (s.writeByte .ram i v).procOut = s.procOut := rfl
@[simp] theorem State.writeByte_ram_procQ (s : State) (i : Nat) (v : Byte) : (s.writeByte .ram i v).procQ = s.procQ := rfl
@[simp] theorem State.writeByte_ram_procTable (s : State) (i : Nat) (v : Byte) : (s.writeByte .ram i v).procTable = s.procTable := rfl
@[simp] theorem State.writeByte_ram_hung (s : State) (i : Nat) (v : Byte) : (s.writeByte .ram i v).hung = s.hung := rfl

/-! ## `writeByte .vram` -/

@[simp] theorem State.writeByte_vram_config (s : State) (i : Nat) (v : Byte) : (s.writeByte .vram i v).config = s.config := rfl
@[simp] theorem State.writeByte_vram_delay (s : State) (i : Nat) (v : Byte) : (s.writeByte .vram i v).delay = s.delay := rfl
@[simp] theorem State.writeByte_vram_sound (s : State) (i : Nat) (v : Byte) : (s.writeByte .vram i v).sound = s.sound := rfl
@[simp] theorem State.writeByte_vram_ram (s : State) (i : Nat) (v : Byte) : (s.writeByte .vram i v).ram = s.ram := rfl
@[simp] theorem State.writeByte_vram_vram (s : State) (i : Nat) (v : Byte) : (s.writeByte .vram i v).vram = Memory.write s.vram i v := rfl
@[simp] theorem State.writeByte_vram_keys (s : State) (i : Nat) (v : Byte) : (s.writeByte .vram i v).keys = s.keys := rfl
@[simp] theorem State.writeByte_vram_faults (s : State) (i : Nat) (v : Byte) : (s.writeByte .vram i v).faults = s.faults := rfl
@[simp] theorem State.writeByte_vram_hostIn (s : State) (i : Nat) (v : Byte) : (s.writeByte .vram i v).hostIn = s.hostIn := rfl
@[simp] theorem State.writeByte_vram_hostOut (s : State) (i : Nat) (v : Byte) : (s.writeByte .vram i v).hostOut = s.hostOut := rfl
@[simp] theorem State.writeByte_vram_procOut (s : State) (i : Nat) (v : Byte) : (s.writeByte .vram i v).procOut = s.procOut := rfl
@[simp] theorem State.writeByte_vram_procQ (s : State) (i : Nat) (v : Byte) : (s.writeByte .vram i v).procQ = s.procQ := rfl
@[simp] theorem State.writeByte_vram_procTable (s : State) (i : Nat) (v : Byte) : (s.writeByte .vram i v).procTable = s.procTable := rfl
@[simp] theorem State.writeByte_vram_hung (s : State) (i : Nat) (v : Byte) : (s.writeByte .vram i v).hung = s.hung := rfl

/-! ## `writeByte .keys` -/

@[simp] theorem State.writeByte_keys_config (s : State) (i : Nat) (v : Byte) : (s.writeByte .keys i v).config = s.config := rfl
@[simp] theorem State.writeByte_keys_delay (s : State) (i : Nat) (v : Byte) : (s.writeByte .keys i v).delay = s.delay := rfl
@[simp] theorem State.writeByte_keys_sound (s : State) (i : Nat) (v : Byte) : (s.writeByte .keys i v).sound = s.sound := rfl
@[simp] theorem State.writeByte_keys_ram (s : State) (i : Nat) (v : Byte) : (s.writeByte .keys i v).ram = s.ram := rfl
@[simp] theorem State.writeByte_keys_vram (s : State) (i : Nat) (v : Byte) : (s.writeByte .keys i v).vram = s.vram := rfl
@[simp] theorem State.writeByte_keys_keys (s : State) (i : Nat) (v : Byte) : (s.writeByte .keys i v).keys = Memory.write s.keys i v := rfl
@[simp] theorem State.writeByte_keys_faults (s : State) (i : Nat) (v : Byte) : (s.writeByte .keys i v).faults = s.faults := rfl
@[simp] theorem State.writeByte_keys_hostIn (s : State) (i : Nat) (v : Byte) : (s.writeByte .keys i v).hostIn = s.hostIn := rfl
@[simp] theorem State.writeByte_keys_hostOut (s : State) (i : Nat) (v : Byte) : (s.writeByte .keys i v).hostOut = s.hostOut := rfl
@[simp] theorem State.writeByte_keys_procOut (s : State) (i : Nat) (v : Byte) : (s.writeByte .keys i v).procOut = s.procOut := rfl
@[simp] theorem State.writeByte_keys_procQ (s : State) (i : Nat) (v : Byte) : (s.writeByte .keys i v).procQ = s.procQ := rfl
@[simp] theorem State.writeByte_keys_procTable (s : State) (i : Nat) (v : Byte) : (s.writeByte .keys i v).procTable = s.procTable := rfl
@[simp] theorem State.writeByte_keys_hung (s : State) (i : Nat) (v : Byte) : (s.writeByte .keys i v).hung = s.hung := rfl

/-! ## `hideDelayFlag` -/

@[simp] theorem State.hideDelayFlag_config (s : State) : s.hideDelayFlag.config = s.config := rfl
@[simp] theorem State.hideDelayFlag_delay (s : State) :
    s.hideDelayFlag.delay = { s.delay with justCompleted := false } := rfl
@[simp] theorem State.hideDelayFlag_sound (s : State) : s.hideDelayFlag.sound = s.sound := rfl
@[simp] theorem State.hideDelayFlag_ram (s : State) : s.hideDelayFlag.ram = s.ram := rfl
@[simp] theorem State.hideDelayFlag_vram (s : State) : s.hideDelayFlag.vram = s.vram := rfl
@[simp] theorem State.hideDelayFlag_keys (s : State) : s.hideDelayFlag.keys = s.keys := rfl
@[simp] theorem State.hideDelayFlag_faults (s : State) : s.hideDelayFlag.faults = s.faults := rfl
@[simp] theorem State.hideDelayFlag_hostIn (s : State) : s.hideDelayFlag.hostIn = s.hostIn := rfl
@[simp] theorem State.hideDelayFlag_hostOut (s : State) : s.hideDelayFlag.hostOut = s.hostOut := rfl
@[simp] theorem State.hideDelayFlag_procOut (s : State) : s.hideDelayFlag.procOut = s.procOut := rfl
@[simp] theorem State.hideDelayFlag_procQ (s : State) : s.hideDelayFlag.procQ = s.procQ := rfl
@[simp] theorem State.hideDelayFlag_procTable (s : State) : s.hideDelayFlag.procTable = s.procTable := rfl
@[simp] theorem State.hideDelayFlag_hung (s : State) : s.hideDelayFlag.hung = s.hung := rfl

/-! ## The bundle under the updates that are not of the bundle -/

@[simp] theorem State.setProcQ_bundle (s : State) (q : Nat) : (s.setProcQ q).bundle = s.bundle := rfl
@[simp] theorem State.hang_bundle (s : State) : (s.hang).bundle = s.bundle := rfl
@[simp] theorem State.setHostIn_bundle (s : State) (ws : List Word) : (s.setHostIn ws).bundle = s.bundle := rfl
@[simp] theorem State.recordFault_bundle (s : State) (e : Error) : (s.recordFault e).bundle = s.bundle := rfl
@[simp] theorem State.send_bundle (s : State) (p : Port) (ws : List Word) : (s.send p ws).bundle = s.bundle := by
  cases p <;> rfl
@[simp] theorem State.raise_bundle (s : State) (p : Port) (e : Error) : (s.raise p e).bundle = s.bundle := by
  cases p <;> rfl

/-! ## Timers -/

@[simp] theorem Timer.setCount_count (t : Timer) (v : Byte) : (Timer.setCount t v).count = v := rfl
@[simp] theorem Timer.setCount_accumulated (t : Timer) (v : Byte) : (Timer.setCount t v).accumulated = t.accumulated := rfl
@[simp] theorem Timer.setCount_justCompleted (t : Timer) (v : Byte) :
    (Timer.setCount t v).justCompleted = t.justCompleted := rfl

/-! ## The state right after creation -/

@[simp] theorem State.fresh_config (c : Config) : (State.fresh c).config = c := rfl
@[simp] theorem State.fresh_delay (c : Config) : (State.fresh c).delay = Timer.zeroed := rfl
@[simp] theorem State.fresh_sound (c : Config) : (State.fresh c).sound = Timer.zeroed := rfl
@[simp] theorem State.fresh_ram (c : Config) : (State.fresh c).ram = [] := rfl
@[simp] theorem State.fresh_vram (c : Config) : (State.fresh c).vram = [] := rfl
@[simp] theorem State.fresh_keys (c : Config) : (State.fresh c).keys = [] := rfl
@[simp] theorem State.fresh_faults (c : Config) : (State.fresh c).faults = [] := rfl
@[simp] theorem State.fresh_hostIn (c : Config) : (State.fresh c).hostIn = [] := rfl
@[simp] theorem State.fresh_hostOut (c : Config) : (State.fresh c).hostOut = [] := rfl
@[simp] theorem State.fresh_procOut (c : Config) : (State.fresh c).procOut = [] := rfl
@[simp] theorem State.fresh_procQ (c : Config) : (State.fresh c).procQ = 0 := rfl
@[simp] theorem State.fresh_procTable (c : Config) : (State.fresh c).procTable = [] := rfl
@[simp] theorem State.fresh_hung (c : Config) : (State.fresh c).hung = false := rfl

end Sys2Proof.Machine
end

