-- ==== Sys2Proof/Laws/Memory.lean ====
section
/-! SUPPORT. What the memory operations do: a read after a write, that every operation keeps the canonical form and the
size, and that canonical memories with the same bytes are equal. -/

namespace Sys2Proof.Machine

@[simp] theorem Memory.read_nil (a : Nat) : Memory.read [] a = 0#8 := rfl

theorem Memory.read_cons (b : Nat) (w : Byte) (m : Memory) (a : Nat) :
    Memory.read ((b, w) :: m) a = if a = b then w else Memory.read m a := rfl

/-! ## The canonical form -/

theorem Memory.canonicalFrom_cons (low b : Nat) (w : Byte) (m : Memory) :
    Memory.canonicalFrom low ((b, w) :: m) = true ↔
      low ≤ b ∧ w ≠ 0#8 ∧ Memory.canonicalFrom (b + 1) m = true := by
  simp [Memory.canonicalFrom, and_assoc]

/-- A memory canonical from `low` is canonical from every lower address. -/
theorem Memory.canonicalFrom_mono {low low' : Nat} (h : low' ≤ low) :
    ∀ {m : Memory}, Memory.canonicalFrom low m = true → Memory.canonicalFrom low' m = true
  | [], _ => rfl
  | (b, w) :: m, hm => by
    rw [Memory.canonicalFrom_cons] at hm ⊢
    exact ⟨le_trans h hm.1, hm.2⟩

/-- Below its lowest possible address a canonical memory reads as it was created. -/
theorem Memory.read_of_lt {low a : Nat} (h : a < low) :
    ∀ {m : Memory}, Memory.canonicalFrom low m = true → Memory.read m a = 0#8
  | [], _ => rfl
  | (b, w) :: m, hm => by
    rw [Memory.canonicalFrom_cons] at hm
    rw [Memory.read_cons, if_neg (by omega)]
    exact Memory.read_of_lt (by omega) hm.2.2

/-! ## One write -/

/-- A read after a write to the same address gives the value written. -/
theorem Memory.read_write_self (a : Nat) (v : Byte) :
    ∀ {m : Memory} {low : Nat}, Memory.canonicalFrom low m = true → Memory.read (Memory.write m a v) a = v
  | [], _, _ => by
    by_cases hv : v = 0#8 <;> simp [Memory.write, hv, Memory.read]
  | (b, w) :: m, low, hm => by
    rw [Memory.canonicalFrom_cons] at hm
    rw [Memory.write]
    by_cases hlt : a < b
    · rw [if_pos hlt]
      by_cases hv : v = 0#8
      · rw [if_pos hv, Memory.read_cons, if_neg (by omega), Memory.read_of_lt (by omega) hm.2.2, hv]
      · rw [if_neg hv, Memory.read_cons, if_pos rfl]
    · rw [if_neg hlt]
      by_cases hab : a = b
      · rw [if_pos hab]
        by_cases hv : v = 0#8
        · rw [if_pos hv, Memory.read_of_lt (by omega) hm.2.2, hv]
        · rw [if_neg hv, Memory.read_cons, if_pos rfl]
      · rw [if_neg hab, Memory.read_cons, if_neg hab]
        exact Memory.read_write_self a v hm.2.2

/-- A write leaves every other address alone. -/
theorem Memory.read_write_other {a b : Nat} (v : Byte) (hne : b ≠ a) :
    ∀ m : Memory, Memory.read (Memory.write m a v) b = Memory.read m b
  | [] => by
    by_cases hv : v = 0#8 <;> simp [Memory.write, hv, Memory.read, hne]
  | (c, w) :: m => by
    rw [Memory.write]
    split_ifs with h1 h2 h3 h4
    · rfl
    · rw [Memory.read_cons, if_neg hne]
    · rw [Memory.read_cons, if_neg (by omega)]
    · rw [Memory.read_cons, Memory.read_cons, if_neg hne, if_neg (by omega)]
    · rw [Memory.read_cons, Memory.read_cons, Memory.read_write_other v hne m]

/-- A read after a write, at every address. -/
theorem Memory.read_write {m : Memory} (hm : Memory.wf m = true) (a : Nat) (v : Byte) (b : Nat) :
    Memory.read (Memory.write m a v) b = if b = a then v else Memory.read m b := by
  split_ifs with h
  · rw [h]; exact Memory.read_write_self a v hm
  · exact Memory.read_write_other v h m

/-- A write keeps the canonical form. -/
theorem Memory.canonicalFrom_write (a : Nat) (v : Byte) :
    ∀ {m : Memory} {low : Nat}, low ≤ a → Memory.canonicalFrom low m = true →
      Memory.canonicalFrom low (Memory.write m a v) = true
  | [], low, ha, _ => by
    by_cases hv : v = 0#8 <;> simp [Memory.write, hv, Memory.canonicalFrom, ha]
  | (b, w) :: m, low, ha, hm => by
    rw [Memory.canonicalFrom_cons] at hm
    rw [Memory.write]
    split_ifs with h1 h2 h3 h4
    · exact (Memory.canonicalFrom_cons ..).2 hm
    · exact (Memory.canonicalFrom_cons ..).2 ⟨ha, h2, (Memory.canonicalFrom_cons ..).2 ⟨by omega, hm.2⟩⟩
    · exact Memory.canonicalFrom_mono (by omega) hm.2.2
    · exact (Memory.canonicalFrom_cons ..).2 ⟨ha, h4, h3 ▸ hm.2.2⟩
    · exact (Memory.canonicalFrom_cons ..).2
        ⟨hm.1, hm.2.1, Memory.canonicalFrom_write a v (by omega) hm.2.2⟩

theorem Memory.wf_write {m : Memory} (hm : Memory.wf m = true) (a : Nat) (v : Byte) :
    Memory.wf (Memory.write m a v) = true := Memory.canonicalFrom_write a v (Nat.zero_le a) hm

theorem Memory.within_cons (size b : Nat) (w : Byte) (m : Memory) :
    Memory.within size ((b, w) :: m) = true ↔ b < size ∧ Memory.within size m = true := by
  simp [Memory.within]

/-- A write below the size keeps every listed address below it. -/
theorem Memory.within_write {size a : Nat} (v : Byte) (ha : a < size) :
    ∀ {m : Memory}, Memory.within size m = true → Memory.within size (Memory.write m a v) = true
  | [], _ => by
    by_cases hv : v = 0#8 <;> simp [Memory.write, hv, Memory.within, ha]
  | (b, w) :: m, hm => by
    rw [Memory.within_cons] at hm
    have ih := Memory.within_write v ha hm.2
    rw [Memory.write]
    split_ifs
    · exact (Memory.within_cons ..).2 hm
    · exact (Memory.within_cons ..).2 ⟨ha, (Memory.within_cons ..).2 hm⟩
    · exact hm.2
    · exact (Memory.within_cons ..).2 ⟨ha, hm.2⟩
    · exact (Memory.within_cons ..).2 ⟨hm.1, ih⟩

/-! ## Bytes written as a block -/

/-- A read of the cells of a list of bytes. -/
theorem Memory.read_cells : ∀ (bytes : List Byte) (a i : Nat),
    Memory.read (Memory.cells a bytes) i = if a ≤ i then bytes.getD (i - a) 0#8 else 0#8
  | [], a, i => by simp [Memory.cells]
  | b :: bs, a, i => by
    have ih := Memory.read_cells bs (a + 1) i
    rw [Memory.cells]
    by_cases hi : i = a
    · subst hi
      split_ifs with hb
      · rw [ih, if_neg (by omega)]; simp [hb]
      · exact absurd (le_refl i) ‹_›
      · rw [Memory.read_cons, if_pos rfl]; simp
      · exact absurd (le_refl i) ‹_›
    · have hrest : Memory.read (Memory.cells (a + 1) bs) i = if a ≤ i then (b :: bs).getD (i - a) 0#8 else 0#8 := by
        rw [ih]
        by_cases h : a ≤ i
        · rw [if_pos h, if_pos (by omega), show i - a = (i - (a + 1)) + 1 by omega]; rfl
        · rw [if_neg h, if_neg (by omega)]
      split_ifs with hb
      · simpa using hrest.trans (if_pos ‹_›)
      · simpa using hrest.trans (if_neg ‹_›)
      · rw [Memory.read_cons, if_neg hi]; exact hrest.trans (if_pos ‹_›)
      · rw [Memory.read_cons, if_neg hi]; exact hrest.trans (if_neg ‹_›)

/-- A read of two memories joined: the first decides where it lists the address. -/
theorem Memory.read_append (m' : Memory) (i : Nat) : ∀ m : Memory,
    Memory.read (m ++ m') i = if i ∈ m.map Prod.fst then Memory.read m i else Memory.read m' i
  | [] => by simp
  | (b, w) :: m => by
    rw [List.cons_append, Memory.read_cons, Memory.read_append m' i m]
    by_cases h : i = b <;> simp [h, Memory.read_cons]

/-- A read of the cells that a predicate on addresses keeps. -/
theorem Memory.read_filter (p : Nat → Bool) (i : Nat) : ∀ m : Memory,
    Memory.read (m.filter (fun c => p c.1)) i = if p i then Memory.read m i else 0#8
  | [] => by simp
  | (b, w) :: m => by
    have ih := Memory.read_filter p i m
    rw [List.filter_cons]
    by_cases hb : p b = true
    · rw [if_pos (by simpa using hb), Memory.read_cons, Memory.read_cons]
      by_cases h : i = b
      · simp [h, hb]
      · simp [h, ih]
    · rw [if_neg (by simpa using hb), ih, Memory.read_cons]
      by_cases h : i = b
      · simp [h, hb]
      · simp [h]

/-- An address a memory does not list reads as it was created. -/
theorem Memory.read_not_mem {i : Nat} : ∀ {m : Memory}, i ∉ m.map Prod.fst → Memory.read m i = 0#8
  | [], _ => rfl
  | (b, w) :: m, h => by
    simp only [List.map_cons, List.mem_cons, not_or] at h
    rw [Memory.read_cons, if_neg h.1]
    exact Memory.read_not_mem h.2

theorem Memory.cells_bounds : ∀ (bytes : List Byte) (a i : Nat),
    i ∈ (Memory.cells a bytes).map Prod.fst → a ≤ i ∧ i < a + bytes.length
  | [], _, _, h => by simp [Memory.cells] at h
  | b :: bs, a, i, h => by
    rw [Memory.cells] at h
    have rest := Memory.cells_bounds bs (a + 1) i
    simp only [List.length_cons]
    split_ifs at h
    · have := rest h; omega
    · simp only [List.map_cons, List.mem_cons] at h
      rcases h with h | h
      · omega
      · have := rest h; omega

theorem Memory.mem_filter_addr {p : Nat → Bool} {i : Nat} {m : Memory}
    (h : i ∈ (m.filter (fun c => p c.1)).map Prod.fst) : p i = true := by
  simp only [List.mem_map, List.mem_filter] at h
  obtain ⟨c, ⟨-, hp⟩, rfl⟩ := h
  exact hp

/-- A read after a block write, at every address. -/
theorem Memory.read_writeBytes (m : Memory) (a : Nat) (bytes : List Byte) (i : Nat) :
    Memory.read (Memory.writeBytes m a bytes) i =
      if a ≤ i ∧ i < a + bytes.length then bytes.getD (i - a) 0#8 else Memory.read m i := by
  have hb := Memory.read_filter (fun b => decide (b < a)) i m
  have ht := Memory.read_filter (fun b => decide (a + bytes.length ≤ b)) i m
  have hc := Memory.read_cells bytes a i
  have low : ∀ {x : Memory}, a ≤ i → i ∉ (List.filter (fun c => decide (c.1 < a)) x).map Prod.fst := by
    intro x h hm
    have := Memory.mem_filter_addr (p := fun b => decide (b < a)) hm
    simp at this; omega
  rw [Memory.writeBytes, List.append_assoc, Memory.read_append, Memory.read_append]
  by_cases h1 : i < a
  · rw [if_neg (by omega : ¬(a ≤ i ∧ i < a + bytes.length))]
    have hcell : i ∉ (Memory.cells a bytes).map Prod.fst := fun h => by
      have := Memory.cells_bounds _ _ _ h; omega
    rw [if_neg hcell]
    split_ifs with hm
    · rw [hb]; simp [h1]
    · have := Memory.read_not_mem hm
      rw [hb] at this
      rw [ht]; simp [h1] at this ⊢; rw [this]; simp
  · rw [if_neg (low (by omega))]
    by_cases h2 : i < a + bytes.length
    · rw [if_pos (⟨by omega, h2⟩ : a ≤ i ∧ i < a + bytes.length)]
      split_ifs with hm
      · rw [hc, if_pos (by omega)]
      · have := Memory.read_not_mem hm
        rw [hc, if_pos (by omega)] at this
        rw [ht, this]; simp [show ¬ a + bytes.length ≤ i by omega]
    · rw [if_neg (by omega : ¬(a ≤ i ∧ i < a + bytes.length))]
      have hcell : i ∉ (Memory.cells a bytes).map Prod.fst := fun h => by
        have := Memory.cells_bounds _ _ _ h; omega
      rw [if_neg hcell, ht]; simp [show a + bytes.length ≤ i by omega]

/-- Two canonical memories joined are canonical where the first ends below the second. -/
theorem Memory.canonicalFrom_append {bound : Nat} {m' : Memory} (hm' : Memory.canonicalFrom bound m' = true) :
    ∀ {m : Memory} {low : Nat}, low ≤ bound → Memory.canonicalFrom low m = true →
      (∀ i ∈ m.map Prod.fst, i < bound) → Memory.canonicalFrom low (m ++ m') = true
  | [], _, h, _, _ => Memory.canonicalFrom_mono h hm'
  | (b, w) :: m, low, h, hm, hlt => by
    rw [Memory.canonicalFrom_cons] at hm
    have hb : b < bound := hlt b (by simp)
    exact (Memory.canonicalFrom_cons ..).2 ⟨hm.1, hm.2.1,
      Memory.canonicalFrom_append hm' (by omega) hm.2.2 (fun i hi => hlt i (by simp [hi]))⟩

theorem Memory.canonicalFrom_filter (p : Nat → Bool) :
    ∀ {m : Memory} {low : Nat}, Memory.canonicalFrom low m = true →
      Memory.canonicalFrom low (m.filter (fun c => p c.1)) = true
  | [], _, _ => rfl
  | (b, w) :: m, low, hm => by
    rw [Memory.canonicalFrom_cons] at hm
    have ih := Memory.canonicalFrom_filter p hm.2.2
    rw [List.filter_cons]
    split_ifs
    · exact (Memory.canonicalFrom_cons ..).2 ⟨hm.1, hm.2.1, ih⟩
    · exact Memory.canonicalFrom_mono (by omega) ih

/-- A canonical memory whose addresses lie at or above `low` is canonical from there. -/
theorem Memory.canonicalFrom_raise {low : Nat} : ∀ {m : Memory} {low' : Nat},
    Memory.canonicalFrom low' m = true → (∀ i ∈ m.map Prod.fst, low ≤ i) → Memory.canonicalFrom low m = true
  | [], _, _, _ => rfl
  | (b, w) :: m, _, hm, h => by
    rw [Memory.canonicalFrom_cons] at hm ⊢
    exact ⟨h b (by simp), hm.2⟩

theorem Memory.canonicalFrom_cells : ∀ (bytes : List Byte) (a : Nat),
    Memory.canonicalFrom a (Memory.cells a bytes) = true
  | [], _ => rfl
  | b :: bs, a => by
    have ih := Memory.canonicalFrom_cells bs (a + 1)
    rw [Memory.cells]
    split_ifs with hb
    · exact Memory.canonicalFrom_mono (Nat.le_succ a) ih
    · exact (Memory.canonicalFrom_cons ..).2 ⟨le_refl a, hb, ih⟩

/-- A block write keeps the canonical form. -/
theorem Memory.wf_writeBytes {m : Memory} (hm : Memory.wf m = true) (a : Nat) (bytes : List Byte) :
    Memory.wf (Memory.writeBytes m a bytes) = true := by
  have high : Memory.canonicalFrom (a + bytes.length)
      (m.filter (fun c => decide (a + bytes.length ≤ c.1))) = true :=
    Memory.canonicalFrom_raise
      (Memory.canonicalFrom_filter (fun b => decide (a + bytes.length ≤ b)) hm)
      (fun i hi => by simpa using Memory.mem_filter_addr (p := fun b => decide (a + bytes.length ≤ b)) hi)
  have mid : Memory.canonicalFrom a (Memory.cells a bytes ++
      m.filter (fun c => decide (a + bytes.length ≤ c.1))) = true :=
    Memory.canonicalFrom_append high (by omega) (Memory.canonicalFrom_cells bytes a)
      (fun i hi => (Memory.cells_bounds _ _ _ hi).2)
  rw [Memory.wf, Memory.writeBytes, List.append_assoc]
  exact Memory.canonicalFrom_append mid (Nat.zero_le a)
    (Memory.canonicalFrom_filter (fun b => decide (b < a)) hm)
    (fun i hi => by simpa using Memory.mem_filter_addr (p := fun b => decide (b < a)) hi)

theorem Memory.within_iff (size : Nat) (m : Memory) :
    Memory.within size m = true ↔ ∀ i ∈ m.map Prod.fst, i < size := by
  simp [Memory.within]

/-- A block write below the size keeps every listed address below it. -/
theorem Memory.within_writeBytes {size a : Nat} {bytes : List Byte} (h : a + bytes.length ≤ size)
    {m : Memory} (hm : Memory.within size m = true) :
    Memory.within size (Memory.writeBytes m a bytes) = true := by
  rw [Memory.within_iff] at hm ⊢
  intro i hi
  have sub : ∀ {p : Nat → Bool}, i ∈ (m.filter (fun c => p c.1)).map Prod.fst → i < size := by
    intro p hp
    obtain ⟨c, hc, rfl⟩ := List.mem_map.1 hp
    exact hm _ (List.mem_map.2 ⟨c, (List.mem_filter.1 hc).1, rfl⟩)
  rw [Memory.writeBytes, List.map_append, List.map_append, List.mem_append, List.mem_append] at hi
  rcases hi with (hi | hi) | hi
  · exact sub (p := fun b => decide (b < a)) hi
  · have := Memory.cells_bounds _ _ _ hi; omega
  · exact sub (p := fun b => decide (a + bytes.length ≤ b)) hi

/-! ## Equal bytes, equal memories -/

/-- Two canonical memories that read the same at every address are the same list. -/
theorem Memory.ext_of_canonicalFrom : ∀ {m m' : Memory} {low : Nat},
    Memory.canonicalFrom low m = true → Memory.canonicalFrom low m' = true →
      (∀ a, Memory.read m a = Memory.read m' a) → m = m'
  | [], [], _, _, _, _ => rfl
  | [], (b, w) :: m', _, _, h', h => by
    rw [Memory.canonicalFrom_cons] at h'
    have := h b
    rw [Memory.read_nil, Memory.read_cons, if_pos rfl] at this
    exact absurd this.symm h'.2.1
  | (b, w) :: m, [], _, hm, _, h => by
    rw [Memory.canonicalFrom_cons] at hm
    have := h b
    rw [Memory.read_nil, Memory.read_cons, if_pos rfl] at this
    exact absurd this hm.2.1
  | (b, w) :: m, (b', w') :: m', low, hm, hm', h => by
    rw [Memory.canonicalFrom_cons] at hm hm'
    have key : b = b' := by
      rcases Nat.lt_trichotomy b b' with hlt | heq | hlt
      · have := h b
        rw [Memory.read_cons, if_pos rfl, Memory.read_cons, if_neg (by omega),
          Memory.read_of_lt (by omega) hm'.2.2] at this
        exact absurd this hm.2.1
      · exact heq
      · have := h b'
        rw [Memory.read_cons, if_neg (by omega), Memory.read_cons, if_pos rfl,
          Memory.read_of_lt (by omega) hm.2.2] at this
        exact absurd this.symm hm'.2.1
    subst key
    have hw : w = w' := by have := h b; rwa [Memory.read_cons, if_pos rfl, Memory.read_cons, if_pos rfl] at this
    subst hw
    have tail : m = m' := Memory.ext_of_canonicalFrom hm.2.2 hm'.2.2 (fun a => by
      by_cases ha : a = b
      · subst ha
        rw [Memory.read_of_lt (Nat.lt_succ_self a) hm.2.2, Memory.read_of_lt (Nat.lt_succ_self a) hm'.2.2]
      · have := h a
        rwa [Memory.read_cons, if_neg ha, Memory.read_cons, if_neg ha] at this)
    rw [tail]

theorem Memory.ext {m m' : Memory} (hm : Memory.wf m = true) (hm' : Memory.wf m' = true)
    (h : ∀ a, Memory.read m a = Memory.read m' a) : m = m' := Memory.ext_of_canonicalFrom hm hm' h

/-! ## The bytes of the state -/

theorem State.readByte_ram (s : State) (i : Nat) : s.readByte .ram i = Memory.read s.ram i := rfl
theorem State.readByte_vram (s : State) (i : Nat) : s.readByte .vram i = Memory.read s.vram i := rfl
theorem State.readByte_keys (s : State) (i : Nat) : s.readByte .keys i = Memory.read s.keys i := rfl

@[simp] theorem Memory.readBytes_length (m : Memory) (a n : Nat) : (Memory.readBytes m a n).length = n := by
  simp [Memory.readBytes]

theorem Memory.readBytes_getD (m : Memory) {a n i : Nat} (h : i < n) :
    (Memory.readBytes m a n).getD i 0#8 = Memory.read m (a + i) := by
  simp [Memory.readBytes, h]

/-! ## The loading of a ROM -/

/-- RAM after a load, at every address (R157). -/
theorem loadedRam_read {data font : List Byte} (hf : font.length = fontSize) (m : Memory) (a : Nat) :
    Memory.read (loadedRam data font m) a =
      if a < fontSize then font.getD a 0#8
      else if romBase ≤ a ∧ a < romBase + data.length then data.getD (a - romBase) 0#8
      else Memory.read m a := by
  rw [loadedRam, Memory.read_writeBytes, Memory.read_writeBytes, show fontBase = 0 from rfl, hf]
  by_cases h : a < fontSize
  · rw [if_pos h, if_pos (by omega), Nat.sub_zero]
  · rw [if_neg h, if_neg (by omega)]

/-- A load keeps the canonical form. -/
theorem loadedRam_wf {m : Memory} (hm : Memory.wf m = true) (data font : List Byte) :
    Memory.wf (loadedRam data font m) = true :=
  Memory.wf_writeBytes (Memory.wf_writeBytes hm _ _) _ _

end Sys2Proof.Machine
end

