-- ==== Sys2Proof/Laws/Timers.lean ====
section
/-! SUPPORT. What the timer updates do, field by field, as natural numbers; and what one iteration of R100's loop does. -/

namespace Sys2Proof.Machine

theorem countAfter_le (k c : Nat) : countAfter k c ≤ c := Nat.sub_le _ _

/-- Crossing `j` boundaries and then `k` is crossing `j + k`: the count. -/
theorem countAfter_add (j k c : Nat) : countAfter k (countAfter j c) = countAfter (j + k) c := by
  simp only [countAfter]; omega

/-- Crossing `j` boundaries and then `k` is crossing `j + k`: the flag. -/
theorem flagAfter_add (j k c : Nat) (f : Bool) :
    flagAfter k (countAfter j c) (flagAfter j c f) = flagAfter (j + k) c f := by
  unfold flagAfter countAfter
  split_ifs <;> first | rfl | omega

/-- One crossing, in the closed form. -/
theorem crossBoundary_eq (c : Nat) (f : Bool) : crossBoundary c f = (countAfter 1 c, flagAfter 1 c f) := by
  unfold crossBoundary countAfter flagAfter
  split_ifs <;> simp_all <;> omega

/-! ## One iteration of the loop -/

theorem drainLoop_of_lt {p acc : Nat} (h : acc < p) (fuel cnt : Nat) (flag : Bool) :
    drainLoop p fuel acc cnt flag = (acc, cnt, flag) := by
  cases fuel with
  | zero => rfl
  | succ n => rw [drainLoop, if_neg (by omega)]

theorem drainLoop_of_ge {p acc : Nat} (h : p ≤ acc) (fuel cnt : Nat) (flag : Bool) :
    drainLoop p (fuel + 1) acc cnt flag =
      drainLoop p fuel (acc - p) (crossBoundary cnt flag).1 (crossBoundary cnt flag).2 := by
  rw [drainLoop, if_pos h]

/-! ## The drained update, field by field -/

theorem Timer.count_le (t : Timer) : t.count.toNat ≤ 255 := by have := t.count.isLt; omega

@[simp] theorem Timer.updateDrain_count (p : Nat) (t : Timer) (delta : Half) :
    (Timer.updateDrain p t delta).count.toNat = countAfter (t.crossings p delta) t.count.toNat := by
  have h := countAfter_le (t.crossings p delta) t.count.toNat
  have := t.count_le
  simp only [Timer.updateDrain, BitVec.toNat_ofNat]
  omega

theorem Timer.updateDrain_accumulated {p : Nat} (h1 : 1 ≤ p) (h2 : p < 2 ^ 32) (t : Timer) (delta : Half) :
    (Timer.updateDrain p t delta).accumulated.toNat = t.elapsed delta % p := by
  have := Nat.mod_lt (t.elapsed delta) h1
  simp only [Timer.updateDrain, BitVec.toNat_ofNat]
  omega

@[simp] theorem Timer.updateDrain_justCompleted (p : Nat) (t : Timer) (delta : Half) :
    (Timer.updateDrain p t delta).justCompleted =
      flagAfter (t.crossings p delta) t.count.toNat t.justCompleted := rfl

/-- After a drained update the accumulator is below the period (R31). -/
theorem Timer.updateDrain_lt {p : Nat} (h1 : 1 ≤ p) (h2 : p < 2 ^ 32) (t : Timer) (delta : Half) :
    (Timer.updateDrain p t delta).accumulated.toNat < p := by
  rw [Timer.updateDrain_accumulated h1 h2]
  exact Nat.mod_lt _ h1

/-- Two timers with the same three fields are equal. -/
theorem Timer.ext' {t u : Timer} (hc : t.count.toNat = u.count.toNat)
    (ha : t.accumulated.toNat = u.accumulated.toNat) (hf : t.justCompleted = u.justCompleted) : t = u := by
  cases t; cases u
  simp_all [BitVec.toNat_inj]

/-! ## What a legal configuration gives -/

theorem Config.wf_iff (c : Config) : c.wf = true ↔
    1 ≤ c.tickPeriod.toNat ∧ c.font.length = 80 ∧ c.font.head? = some 0xF0#8 := by
  simp only [Config.wf, Bool.and_eq_true, decide_eq_true_eq, and_assoc]
  rfl

theorem Config.period_lt (c : Config) : c.tickPeriod.toNat < 2 ^ 32 := c.tickPeriod.isLt

end Sys2Proof.Machine
end

