-- ==== Sys2Proof/Laws/Commands.lean ====
section
/-! SUPPORT. What a command may do, said once for the fifteen commands that both ports serve: `exec` on the host port and the
processor port run the same operations, which touch the bundle alone and depend on it and the configuration alone. -/

namespace Sys2Proof.Machine

/-! ## Answers -/

@[simp] theorem State.reply_ok (s : State) (p : Port) (v : Half) (data : List Word) (s' : State) :
    s.reply p (.ok v data s') = s'.send p (responseWord 0x00#8 v :: data) := rfl

@[simp] theorem State.reply_error (s : State) (p : Port) (e : Error) : s.reply p (.error e) = s.raise p e := rfl

/-- A check on an index either passes or is `OutOfBounds`. -/
theorem withIndex_of_lt {sp : Space} {i : Nat} (h : i < sp.size) (r : Result) : withIndex sp i r = r := by
  rw [withIndex, if_neg (by omega)]

theorem withIndex_of_ge {sp : Space} {i : Nat} (h : sp.size ≤ i) (r : Result) :
    withIndex sp i r = .error (.outOfBounds sp i) := by
  rw [withIndex, if_pos h]

theorem withIndex_cases (sp : Space) (i : Nat) (r : Result) :
    (i < sp.size ∧ withIndex sp i r = r) ∨ (sp.size ≤ i ∧ withIndex sp i r = .error (.outOfBounds sp i)) := by
  by_cases h : i < sp.size
  · exact .inl ⟨h, withIndex_of_lt h r⟩
  · exact .inr ⟨by omega, withIndex_of_ge (by omega) r⟩

/-- The statuses of errors are 1 to 6 (R201). -/
theorem Error.code_bounds (e : Error) : 1 ≤ e.code.toNat ∧ e.code.toNat ≤ 6 := by
  cases e <;> simp [Error.code]

theorem keyStateLegal_iff (v : Byte) : keyStateLegal v = true ↔ v = 0#8 ∨ v = 1#8 := by simp [keyStateLegal]

/-! ## Both ports run the same operations -/

/-- On the host port every command but STEP is answered with what the processor port's operation comes to. -/
theorem exec_eq_reply (word : Word) {i : Instr} (hi : ∀ delta, i ≠ .step delta) (s : State) :
    exec i s = .next (s.reply .host (processorCommand word i s)) := by
  cases i with
  | step delta => exact absurd rfl (hi delta)
  | _ => rfl

/-- A result writes the bundle alone: nothing else of the machine. -/
def Result.bundleOnly (s : State) : Result → Prop
  | .ok _ _ s' => State.sameSurroundings s s' ∧ s'.faults = s.faults ∧ s'.hostOut = s.hostOut
  | .error _ => True

theorem Result.bundleOnly_self (s : State) (v : Half) (data : List Word) : Result.bundleOnly s (.ok v data s) :=
  ⟨⟨rfl, rfl, rfl, rfl, rfl, rfl⟩, rfl, rfl⟩

theorem withIndex_bundleOnly {s : State} {sp : Space} {i : Nat} {r : Result} (h : r.bundleOnly s) :
    (withIndex sp i r).bundleOnly s := by
  rcases withIndex_cases sp i r with ⟨-, hw⟩ | ⟨-, hw⟩ <;> rw [hw]
  · exact h
  · exact trivial

theorem writeByte_bundleOnly (s : State) (sp : Space) (i : Nat) (v : Byte) :
    Result.bundleOnly s (answerDone (s.writeByte sp i v)) := by
  cases sp <;> exact ⟨⟨rfl, rfl, rfl, rfl, rfl, rfl⟩, rfl, rfl⟩

theorem setTimers_bundleOnly (s : State) (d a : Timer) : Result.bundleOnly s (answerDone (s.setTimers d a)) :=
  ⟨⟨rfl, rfl, rfl, rfl, rfl, rfl⟩, rfl, rfl⟩

theorem cmdAdvance_bundleOnly (delta : Half) (s : State) : (cmdAdvance delta s).bundleOnly s := by
  unfold cmdAdvance
  cases s.config.tickMode with
  | drain => exact setTimers_bundleOnly ..
  | single =>
    simp only [advanceSingle]
    cases Timer.updateSingle s.config.tickPeriod.toNat s.delay delta with
    | none => exact trivial
    | some d =>
      cases Timer.updateSingle s.config.tickPeriod.toNat s.sound delta with
      | none => exact trivial
      | some a => exact setTimers_bundleOnly ..

/-- Every command writes the bundle alone. -/
theorem processorCommand_bundleOnly (word : Word) (i : Instr) (s : State) :
    (processorCommand word i s).bundleOnly s := by
  cases i with
  | setkey code state =>
    apply withIndex_bundleOnly
    cases keyStateLegal state
    · exact trivial
    · exact writeByte_bundleOnly ..
  | readkey code => exact withIndex_bundleOnly (Result.bundleOnly_self ..)
  | readram addr => exact withIndex_bundleOnly (Result.bundleOnly_self ..)
  | writeram addr value => exact withIndex_bundleOnly (writeByte_bundleOnly ..)
  | readvram addr => exact withIndex_bundleOnly (Result.bundleOnly_self ..)
  | writevram addr value => exact withIndex_bundleOnly (writeByte_bundleOnly ..)
  | xorvram addr value => exact withIndex_bundleOnly (writeByte_bundleOnly ..)
  | getvram => exact Result.bundleOnly_self ..
  | loadrom data =>
    simp only [processorCommand, cmdLoadrom]
    split_ifs
    · exact trivial
    · exact ⟨⟨rfl, rfl, rfl, rfl, rfl, rfl⟩, rfl, rfl⟩
  | getdelay => exact Result.bundleOnly_self ..
  | setdelay v => exact ⟨⟨rfl, rfl, rfl, rfl, rfl, rfl⟩, rfl, rfl⟩
  | getsound => exact Result.bundleOnly_self ..
  | setsound v => exact ⟨⟨rfl, rfl, rfl, rfl, rfl, rfl⟩, rfl, rfl⟩
  | playsound => exact Result.bundleOnly_self ..
  | advance delta => exact cmdAdvance_bundleOnly delta s
  | step delta => exact trivial

/-- What a command other than STEP can do on the host port: fail, noting and returning its error; or succeed, leaving a
state that differs from the old one in the bundle alone, and return a value. -/
theorem exec_cases {i : Instr} (hi : ∀ delta, i ≠ .step delta) (word : Word) (s : State) :
    (∃ e, processorCommand word i s = .error e ∧ exec i s = .next (s.raise .host e)) ∨
    (∃ v data s', processorCommand word i s = .ok v data s' ∧ State.sameSurroundings s s' ∧ s'.faults = s.faults ∧
      s'.hostOut = s.hostOut ∧ exec i s = .next (s'.send .host (responseWord 0x00#8 v :: data))) := by
  have hb := processorCommand_bundleOnly word i s
  rw [exec_eq_reply word hi]
  cases hc : processorCommand word i s with
  | error e => exact .inl ⟨e, rfl, rfl⟩
  | ok v data s' =>
    rw [hc] at hb
    exact .inr ⟨v, data, s', rfl, hb.1, hb.2.1, hb.2.2, rfl⟩

/-! ## A command depends on the bundle and the configuration alone -/

/-- Two results agree: the same error, or the same answer and the same bundle. -/
def Result.agree : Result → Result → Prop
  | .ok v data s, .ok v' data' s' => v = v' ∧ data = data' ∧ s.bundle = s'.bundle
  | .error e, .error e' => e = e'
  | _, _ => False

/-- Machines with the same bundle and configuration answer a command alike and end with the same bundle. -/
theorem processorCommand_agree (word : Word) (i : Instr) {s s' : State} (hb : s.bundle = s'.bundle)
    (hc : s.config = s'.config) : (processorCommand word i s).agree (processorCommand word i s') := by
  obtain ⟨hd, ha, hr, hv, hk⟩ := (State.bundle_eq_iff s s').1 hb
  have hbyte : ∀ sp j, s.readByte sp j = s'.readByte sp j := fun sp j => by
    cases sp <;> simp [State.readByte, hr, hv, hk]
  have hindex : ∀ {sp : Space} {j : Nat} {r r' : Result}, r.agree r' → (withIndex sp j r).agree (withIndex sp j r') := by
    intro sp j r r' h
    rcases withIndex_cases sp j r with ⟨hlt, hw⟩ | ⟨hge, hw⟩
    · rw [hw, withIndex_of_lt hlt]; exact h
    · rw [hw, withIndex_of_ge hge]; exact rfl
  have hread : ∀ sp j, (readElement sp j s).agree (readElement sp j s') := fun sp j =>
    hindex ⟨by rw [hbyte], rfl, hb⟩
  have hwrite : ∀ sp j v, (s.writeByte sp j v).bundle = (s'.writeByte sp j v).bundle := fun sp j v => by
    cases sp <;> simp [State.bundle_eq_iff, hd, ha, hr, hv, hk]
  have htimers : ∀ d a : Timer, (s.setTimers d a).bundle = (s'.setTimers d a).bundle := fun d a => by
    simp [State.bundle_eq_iff, hr, hv, hk]
  cases i with
  | setkey code state =>
    apply hindex
    cases keyStateLegal state
    · exact rfl
    · exact ⟨rfl, rfl, hwrite ..⟩
  | readkey code => exact hread ..
  | readram addr => exact hread ..
  | writeram addr value => exact hindex ⟨rfl, rfl, hwrite ..⟩
  | readvram addr => exact hread ..
  | writevram addr value => exact hindex ⟨rfl, rfl, hwrite ..⟩
  | xorvram addr value =>
    refine hindex ⟨rfl, rfl, ?_⟩
    rw [hbyte]; exact hwrite ..
  | getvram => exact ⟨rfl, by simp [vramWords, State.vramOut, hv], hb⟩
  | loadrom data =>
    simp only [processorCommand, cmdLoadrom]
    split_ifs
    · exact rfl
    · exact ⟨rfl, rfl, by simp [State.bundle_eq_iff, hd, ha, hr, hv, hk, hc]⟩
  | getdelay => exact ⟨by simp [hd], rfl, hb⟩
  | setdelay v => exact ⟨rfl, rfl, by simp [State.bundle_eq_iff, hd, ha, hr, hv, hk]⟩
  | getsound => exact ⟨by simp [ha], rfl, hb⟩
  | setsound v => exact ⟨rfl, rfl, by simp [State.bundle_eq_iff, hd, ha, hr, hv, hk]⟩
  | playsound => exact ⟨congrArg (fun t => if Timer.complete t = true then 1#32 else 0#32) ha, rfl, hb⟩
  | advance delta =>
    simp only [processorCommand, cmdAdvance, advanceDrain, advanceSingle, hc, hd, ha]
    cases s'.config.tickMode with
    | drain => exact ⟨rfl, rfl, htimers ..⟩
    | single =>
      dsimp only
      cases Timer.updateSingle s'.config.tickPeriod.toNat s'.delay delta with
      | none => exact rfl
      | some d =>
        cases Timer.updateSingle s'.config.tickPeriod.toNat s'.sound delta with
        | none => exact rfl
        | some a => exact ⟨rfl, rfl, htimers ..⟩
  | step delta => exact rfl

end Sys2Proof.Machine
end

