-- ==== Sys2Proof/Laws/Decode.lean ====
section
/-! SUPPORT. What the decoder's parts do: the fields of a word, the rows of the opcode map, the packing of bytes into words,
and the framing of a port's words. -/

namespace Sys2Proof

/-! ## Fields -/

/-- A word is its three fields (R71). -/
theorem word_ext {v w : Word} (ho : opField v = opField w) (ha : aField v = aField w) (hd : dField v = dField w) :
    v = w := by
  apply BitVec.eq_of_getLsbD_eq
  intro k hk
  have h0 : ∀ {n start : Nat}, v.extractLsb' start n = w.extractLsb' start n → start ≤ k → k < start + n →
      v.getLsbD k = w.getLsbD k := by
    intro n start h hs hlt
    have := congrArg (fun x => x.getLsbD (k - start)) h
    simpa [BitVec.getLsbD_extractLsb', show k - start < n by omega, show start + (k - start) = k by omega] using this
  by_cases h1 : k < 32
  · exact h0 hd (by omega) (by omega)
  · by_cases h2 : k < 56
    · exact h0 ha (by omega) (by omega)
    · exact h0 ho (by omega) (by omega)

@[simp] theorem opField_and (v w : Word) : opField (v &&& w) = opField v &&& opField w :=
  BitVec.eq_of_getLsbD_eq (fun k hk => by simp [opField, hk])
@[simp] theorem aField_and (v w : Word) : aField (v &&& w) = aField v &&& aField w :=
  BitVec.eq_of_getLsbD_eq (fun k hk => by simp [aField, hk])
@[simp] theorem dField_and (v w : Word) : dField (v &&& w) = dField v &&& dField w :=
  BitVec.eq_of_getLsbD_eq (fun k hk => by simp [dField, hk])

/-- The bits of a word made from its fields. -/
theorem getLsbD_encodeFields (op : Byte) (a : BitVec 24) (d : Half) (k : Nat) :
    (encodeFields op a d).getLsbD k =
      if k < 32 then d.getLsbD k else if k - 32 < 24 then a.getLsbD (k - 32) else op.getLsbD (k - 32 - 24) := by
  show @BitVec.getLsbD (8 + 24 + 32) (op ++ a ++ d) k = _
  rw [BitVec.getLsbD_append]
  split_ifs with h1 h2
  · rfl
  · rw [BitVec.getLsbD_append, if_pos h2]
  · rw [BitVec.getLsbD_append, if_neg h2]

@[simp] theorem opField_encodeFields (op : Byte) (a : BitVec 24) (d : Half) : opField (encodeFields op a d) = op := by
  apply BitVec.eq_of_getLsbD_eq
  intro k hk
  rw [opField, BitVec.getLsbD_extractLsb', getLsbD_encodeFields, if_neg (by omega), if_neg (by omega),
    show 56 + k - 32 - 24 = k by omega]
  simp [hk]

@[simp] theorem aField_encodeFields (op : Byte) (a : BitVec 24) (d : Half) : aField (encodeFields op a d) = a := by
  apply BitVec.eq_of_getLsbD_eq
  intro k hk
  rw [aField, BitVec.getLsbD_extractLsb', getLsbD_encodeFields, if_neg (by omega), if_pos (by omega),
    show 32 + k - 32 = k by omega]
  simp [hk]

@[simp] theorem dField_encodeFields (op : Byte) (a : BitVec 24) (d : Half) : dField (encodeFields op a d) = d := by
  apply BitVec.eq_of_getLsbD_eq
  intro k hk
  rw [dField, BitVec.getLsbD_extractLsb', getLsbD_encodeFields, if_pos (by omega), Nat.zero_add]
  simp [hk]

/-- A word is the encoding of its fields. -/
theorem encodeFields_fields (w : Word) : encodeFields (opField w) (aField w) (dField w) = w :=
  word_ext (by simp) (by simp) (by simp)

/-- `a[7:0]` within `a`. -/
theorem aByte_eq (w : Word) : aByte w = (aField w).setWidth 8 := by
  apply BitVec.eq_of_getLsbD_eq
  intro k hk
  simp [aByte, aField, hk, show k < 24 by omega]

/-- `d[7:0]` within `d`. -/
theorem dByte_eq (w : Word) : dByte w = (dField w).setWidth 8 := by
  apply BitVec.eq_of_getLsbD_eq
  intro k hk
  simp [dByte, dField, hk, show k < 32 by omega]

/-! ## Rows -/

/-- Every row's mask covers `op`, and its match carries the row's own. -/
theorem opcodeMap_op : ∀ r ∈ opcodeMap, opField r.mask = 0xFF#8 ∧ opField r.mtch = r.op := by decide

/-- `op` differs in every row (R74). -/
theorem opcodeMap_op_inj : ∀ r ∈ opcodeMap, ∀ r' ∈ opcodeMap, r.op = r'.op → r = r' := by decide

/-- A word that fits a row has the row's `op`. -/
theorem op_of_mask {w : Word} {r : Row} (hr : r ∈ opcodeMap) (h : w &&& r.mask = r.mtch) : opField w = r.op := by
  have := congrArg opField h
  rw [opField_and, (opcodeMap_op r hr).1, (opcodeMap_op r hr).2] at this
  rwa [show (0xFF#8 : Byte) = BitVec.allOnes 8 from rfl, BitVec.and_allOnes] at this

/-- What `rowOf` finds is a row of the map that the word fits. -/
theorem rowOf_some {w : Word} {r : Row} (h : rowOf w = some r) : r ∈ opcodeMap ∧ w &&& r.mask = r.mtch :=
  ⟨List.mem_of_find?_eq_some h, by simpa using List.find?_some h⟩

/-- A word that fits a row decodes by that row. -/
theorem rowOf_of_mask {w : Word} {r : Row} (hr : r ∈ opcodeMap) (h : w &&& r.mask = r.mtch) : rowOf w = some r := by
  cases hf : rowOf w with
  | none =>
    have := List.find?_eq_none.1 hf r hr
    simp [h] at this
  | some r' =>
    have h' := rowOf_some hf
    rw [opcodeMap_op_inj r' h'.1 r hr ((op_of_mask h'.1 h'.2).symm.trans (op_of_mask hr h))]

/-- A word that fits no row decodes by none. -/
theorem rowOf_none {w : Word} (h : ∀ r ∈ opcodeMap, w &&& r.mask ≠ r.mtch) : rowOf w = none :=
  List.find?_eq_none.2 (fun r hr => by simpa using h r hr)

/-- Only a word with `op = 0x16` has payload words (R76). -/
theorem payloadCount_of_ne {w : Word} (h : opField w ≠ 0x16#8) : payloadCount w = 0 := by simp [payloadCount, h]

theorem payloadCount_of_eq {w : Word} (h : opField w = 0x16#8) : payloadCount w = ((dField w).toNat + 7) / 8 := by
  simp [payloadCount, h]

/-! ## Packing (R77) -/

/-- The bits of a word packed from eight bytes. -/
theorem getLsbD_wordOfBytes (b0 b1 b2 b3 b4 b5 b6 b7 : Byte) (k : Nat) :
    (wordOfBytes b0 b1 b2 b3 b4 b5 b6 b7).getLsbD k =
      if k < 8 then b7.getLsbD k else if k < 16 then b6.getLsbD (k - 8) else if k < 24 then b5.getLsbD (k - 16)
      else if k < 32 then b4.getLsbD (k - 24) else if k < 40 then b3.getLsbD (k - 32)
      else if k < 48 then b2.getLsbD (k - 40) else if k < 56 then b1.getLsbD (k - 48)
      else b0.getLsbD (k - 56) := by
  show @BitVec.getLsbD (8 + 8 + 8 + 8 + 8 + 8 + 8 + 8) (b0 ++ b1 ++ b2 ++ b3 ++ b4 ++ b5 ++ b6 ++ b7) k = _
  simp only [BitVec.getLsbD_append, Nat.sub_sub]
  split_ifs <;> first | rfl | omega

/-- A word packed from eight bytes unpacks to them. -/
theorem bytesOfWord_wordOfBytes (b0 b1 b2 b3 b4 b5 b6 b7 : Byte) :
    bytesOfWord (wordOfBytes b0 b1 b2 b3 b4 b5 b6 b7) = [b0, b1, b2, b3, b4, b5, b6, b7] := by
  have byte : ∀ (j : Nat) (b : Byte), (∀ k < 8, (wordOfBytes b0 b1 b2 b3 b4 b5 b6 b7).getLsbD (j + k) = b.getLsbD k) →
      (wordOfBytes b0 b1 b2 b3 b4 b5 b6 b7).extractLsb' j 8 = b := fun j b h =>
    BitVec.eq_of_getLsbD_eq (fun k hk => by rw [BitVec.getLsbD_extractLsb', h k hk]; simp [hk])
  simp only [bytesOfWord, List.cons.injEq, and_true]
  refine ⟨byte _ _ ?_, byte _ _ ?_, byte _ _ ?_, byte _ _ ?_, byte _ _ ?_, byte _ _ ?_, byte _ _ ?_, byte _ _ ?_⟩ <;>
  · intro k hk
    rw [getLsbD_wordOfBytes]
    split_ifs <;> first | omega | (congr 1; omega)

/-- A word is packed from its eight bytes. -/
theorem wordOfBytes_bytesOfWord (w : Word) :
    wordOfBytes (w.extractLsb' 56 8) (w.extractLsb' 48 8) (w.extractLsb' 40 8) (w.extractLsb' 32 8)
      (w.extractLsb' 24 8) (w.extractLsb' 16 8) (w.extractLsb' 8 8) (w.extractLsb' 0 8) = w := by
  apply BitVec.eq_of_getLsbD_eq
  intro k hk
  have bit : ∀ j i : Nat, j + i = k → i < 8 → (w.extractLsb' j 8).getLsbD i = w.getLsbD k := fun j i h hi => by
    rw [BitVec.getLsbD_extractLsb', h]; simp [hi]
  rw [getLsbD_wordOfBytes]
  split_ifs <;> exact bit _ _ (by omega) (by omega)

@[simp] theorem unpackWords_length : ∀ ws : List Word, (unpackWords ws).length = 8 * ws.length
  | [] => rfl
  | w :: ws => by
    rw [unpackWords, List.length_append, unpackWords_length ws, List.length_cons]
    simp [bytesOfWord]; omega

/-- `ceil(L / 8)` words hold L bytes (R76). -/
theorem packWords_length : ∀ bs : List Byte, (packWords bs).length = (bs.length + 7) / 8
  | [] => rfl
  | [_] | [_, _] | [_, _, _] | [_, _, _, _] | [_, _, _, _, _] | [_, _, _, _, _, _] | [_, _, _, _, _, _, _] => by
    simp [packWords]
  | b0 :: b1 :: b2 :: b3 :: b4 :: b5 :: b6 :: b7 :: rest => by
    rw [packWords, List.length_cons, packWords_length rest]
    simp only [List.length_cons]; omega

/-- Bytes packed and unpacked come back, followed by zero padding. -/
theorem unpackWords_packWords : ∀ bs : List Byte,
    unpackWords (packWords bs) = bs ++ List.replicate (8 * ((bs.length + 7) / 8) - bs.length) 0#8
  | [] => rfl
  | [_] | [_, _] | [_, _, _] | [_, _, _, _] | [_, _, _, _, _] | [_, _, _, _, _, _] => by
    simp [packWords, unpackWords, bytesOfWord_wordOfBytes, List.replicate]
  | [_, _, _, _, _, _, _] => by simp [packWords, unpackWords, bytesOfWord_wordOfBytes]
  | b0 :: b1 :: b2 :: b3 :: b4 :: b5 :: b6 :: b7 :: rest => by
    rw [packWords, unpackWords, bytesOfWord_wordOfBytes, unpackWords_packWords rest]
    simp only [List.length_cons, List.cons_append, List.nil_append, List.cons.injEq, true_and]
    congr 2
    omega

/-- Byte i of the unpacked words is byte `i mod 8` of word `i div 8`, the first the most significant (R77). -/
theorem unpackWords_getD : ∀ (ws : List Word) (i : Nat), i < 8 * ws.length →
    (unpackWords ws).getD i 0#8 = (ws.getD (i / 8) 0#64).extractLsb' (56 - 8 * (i % 8)) 8
  | [], i, h => by simp at h
  | w :: ws, i, h => by
    rw [List.length_cons] at h
    rw [unpackWords]
    by_cases hi : i < 8
    · rw [List.getD_append _ _ _ _ (by simpa [bytesOfWord] using hi), show i / 8 = 0 by omega,
        show i % 8 = i by omega]
      rcases i with _ | _ | _ | _ | _ | _ | _ | _ | i <;> first | rfl | omega
    · rw [List.getD_append_right _ _ _ _ (by simp [bytesOfWord]; omega)]
      have ih := unpackWords_getD ws (i - 8) (by omega)
      rw [show (bytesOfWord w).length = 8 from rfl, ih, show i / 8 = (i - 8) / 8 + 1 by omega,
        show (i - 8) % 8 = i % 8 by omega]
      rfl

/-! ## Framing (R76) -/

/-- With its payload there, a first word is fetched as what it decodes to, and exactly its words are taken. -/
theorem fetch_cons {w : Word} {rest : List Word} (h : payloadCount w ≤ rest.length) :
    fetch (w :: rest) =
      match decodeCommand w (rest.take (payloadCount w)) with
      | .command i => .command i (rest.drop (payloadCount w))
      | .illegal _ => .illegal w (rest.drop (payloadCount w)) := by
  refine (if_neg (Nat.not_lt.2 h)).trans ?_
  cases decodeCommand w (rest.take (payloadCount w)) <;> rfl

/-- Without its payload there, it waits. -/
theorem fetch_waiting {w : Word} {rest : List Word} (h : rest.length < payloadCount w) :
    fetch (w :: rest) = .waiting := by rw [fetch, if_pos h]

/-- A fetched command is decoded from its own words, and the rest is what follows them. -/
theorem fetch_command {ws rest : List Word} {i : Instr} (h : fetch ws = .command i rest) :
    ∃ w payload, ws = w :: payload ++ rest ∧ payload.length = payloadCount w ∧
      decodeCommand w payload = .command i := by
  cases ws with
  | nil => simp [fetch] at h
  | cons w tail =>
    by_cases hlt : tail.length < payloadCount w
    · rw [fetch_waiting hlt] at h; simp at h
    · rw [fetch_cons (by omega)] at h
      cases hd : decodeCommand w (tail.take (payloadCount w)) with
      | illegal why => rw [hd] at h; simp at h
      | command j =>
        rw [hd] at h
        simp only [Fetched.command.injEq] at h
        refine ⟨w, tail.take (payloadCount w), ?_, by rw [List.length_take]; omega, h.1 ▸ hd⟩
        rw [← h.2, List.cons_append, List.take_append_drop]

end Sys2Proof
end

