-- ==== Sys2Proof/Laws/PerInstr.lean ====
section
/-! SUPPORT. Facts stated of every command, one lemma per constructor. -/

namespace Sys2Proof.Laws.Framing

/-- A well-formed command's encoding has as many words as its first word asks for (R76). -/
def Statement (i : Instr) : Prop := i.wellFormed = true → (encodePayload i).length = payloadCount (encodeHeader i)

/-- A command whose `op` is not LOADROM's and that has no payload. -/
theorem of_oneWord {i : Instr} (hp : encodePayload i = []) (ho : opField (encodeHeader i) ≠ 0x16#8) : Statement i :=
  fun _ => by rw [hp, payloadCount_of_ne ho]; rfl

theorem setkey (code state : Byte) : Statement (.setkey code state) := of_oneWord rfl (by simp [encodeHeader])
theorem readkey (code : Nat) : Statement (.readkey code) := of_oneWord rfl (by simp [encodeHeader])
theorem readram (addr : Nat) : Statement (.readram addr) := of_oneWord rfl (by simp [encodeHeader])
theorem writeram (addr : Nat) (value : Byte) : Statement (.writeram addr value) := of_oneWord rfl (by simp [encodeHeader])
theorem readvram (addr : Nat) : Statement (.readvram addr) := of_oneWord rfl (by simp [encodeHeader])
theorem writevram (addr : Nat) (value : Byte) : Statement (.writevram addr value) := of_oneWord rfl (by simp [encodeHeader])
theorem xorvram (addr : Nat) (value : Byte) : Statement (.xorvram addr value) := of_oneWord rfl (by simp [encodeHeader])
theorem getvram : Statement .getvram := of_oneWord rfl (by simp [encodeHeader])
theorem loadrom (data : List Byte) : Statement (.loadrom data) := fun h => by
  have hlen : data.length < 2 ^ 32 := by simpa [Instr.wellFormed, lengthFits] using h
  rw [payloadCount_of_eq (by simp [encodeHeader])]
  simp only [encodePayload, encodeHeader, packWords_length, dField_encodeFields, BitVec.toNat_ofNat]
  rw [Nat.mod_eq_of_lt hlen]
theorem getdelay : Statement .getdelay := of_oneWord rfl (by simp [encodeHeader])
theorem setdelay (v : Byte) : Statement (.setdelay v) := of_oneWord rfl (by simp [encodeHeader])
theorem getsound : Statement .getsound := of_oneWord rfl (by simp [encodeHeader])
theorem setsound (v : Byte) : Statement (.setsound v) := of_oneWord rfl (by simp [encodeHeader])
theorem playsound : Statement .playsound := of_oneWord rfl (by simp [encodeHeader])
theorem advance (delta : Half) : Statement (.advance delta) := of_oneWord rfl (by simp [encodeHeader])
theorem step (delta : Half) : Statement (.step delta) := of_oneWord rfl (by simp [encodeHeader])

end Sys2Proof.Laws.Framing
end

