-- ==== Sys2Proof/Laws/Processor.lean ====
section
/-! SUPPORT. What a processor instruction, a STEP and a step of the machine can do, said once for each, and the induction that
carries a property over all of them. -/

namespace Sys2Proof.Machine

/-- The state in which a chain ends. -/
def ChainEnd.state : ChainEnd → State
  | .done _ s => s
  | .failed _ s => s
  | .hang s => s

/-- An issued command is answered with what its decoding says, or as an illegal word (R181, R204). -/
theorem performIssue_cases (word : Word) (payload : List Word) (s : State) :
    (∃ i, decodeCommand word (issuedPayload word payload) = .command i ∧
      performIssue word payload s = processorCommand word i s) ∨
    performIssue word payload s = .error (.illegalCommand word) := by
  unfold performIssue
  cases h : decodeCommand word (issuedPayload word payload) with
  | command i => exact .inl ⟨i, rfl, rfl⟩
  | illegal why => exact .inr rfl

/-- An issued command writes the bundle alone. -/
theorem performIssue_bundleOnly (word : Word) (payload : List Word) (s : State) :
    (performIssue word payload s).bundleOnly s := by
  rcases performIssue_cases word payload s with ⟨i, -, h⟩ | h <;> rw [h]
  · exact processorCommand_bundleOnly ..
  · exact trivial

/-- A property that every answered command on the processor port keeps holds where a chain ends. -/
theorem runChain_keeps {P : State → Prop} (hcmd : ∀ w i s, P s → P (s.reply .processor (processorCommand w i s)))
    (herr : ∀ e s, P s → P (s.raise .processor e)) :
    ∀ (a : ProcAction) (last : List Word) (s : State), P s → P (runChain a last s).state
  | .issue word payload next, last, s, hs => by
    have hp : P (s.reply .processor (performIssue word payload s)) := by
      rcases performIssue_cases word payload s with ⟨i, -, h⟩ | h <;> rw [h]
      · exact hcmd word i s hs
      · exact herr _ s hs
    rw [runChain]
    cases hr : performIssue word payload s with
    | ok v data s' => rw [hr] at hp; exact runChain_keeps hcmd herr next _ _ hp
    | error e => rw [hr] at hp; exact hp
  | .onResponse response yes no, last, s, hs => by
    rw [runChain]
    split_ifs
    · exact runChain_keeps hcmd herr yes _ _ hs
    · exact runChain_keeps hcmd herr no _ _ hs
  | .done q, last, s, hs => hs
  | .fail reason, last, s, hs => hs
  | .hang, last, s, hs => hs

/-- A chain runs as what its tests on the last response come to. -/
theorem runChain_resolveTests : ∀ (a : ProcAction) (last : List Word) (s : State),
    runChain a last s = runChain (resolveTests a last) last s
  | .issue _ _ _, _, _ => rfl
  | .onResponse response yes no, last, s => by
    rw [runChain, resolveTests]
    split_ifs
    · exact runChain_resolveTests yes last s
    · exact runChain_resolveTests no last s
  | .done _, _, _ => rfl
  | .fail _, _, _ => rfl
  | .hang, _, _ => rfl

/-- A chain's states are those of what its tests on the last response come to. -/
theorem chainStates_resolveTests : ∀ (a : ProcAction) (last : List Word) (s : State),
    chainStates a last s = chainStates (resolveTests a last) last s
  | .issue _ _ _, _, _ => rfl
  | .onResponse response yes no, last, s => by
    rw [chainStates, resolveTests]
    split_ifs
    · exact chainStates_resolveTests yes last s
    · exact chainStates_resolveTests no last s
  | .done _, _, _ => rfl
  | .fail _, _, _ => rfl
  | .hang, _, _ => rfl

/-- A property that every command, error and processor update keeps is kept by STEP. -/
theorem execStep_keeps {P : State → Prop} (hproc : ∀ w i s, P s → P (s.reply .processor (processorCommand w i s)))
    (herr : ∀ p e s, P s → P (s.raise p e)) (hq : ∀ q s, P s → P (s.setProcQ q)) (hhang : ∀ s, P s → P s.hang)
    (hadv : ∀ delta s, P s → P (s.reply .host (cmdAdvance delta s))) {delta : Half} {s t : State} (hs : P s)
    (h : exec (.step delta) s = .next t) : P t := by
  have ht : t = finishStep delta (runChain s.procAction [] s) := by
    simpa [exec, execStep] using h.symm
  have hc := runChain_keeps hproc (herr .processor) s.procAction [] s hs
  rw [ht]
  cases hr : runChain s.procAction [] s with
  | done q u => rw [hr] at hc; exact hadv delta _ (hq q _ hc)
  | failed e u => rw [hr] at hc; exact herr .host e _ hc
  | hang u => rw [hr] at hc; exact hhang _ hc

/-- What a step of the machine can do: hold its state, run the command that stands first, or answer an illegal word. -/
theorem step_cases {s t : State} (h : step s = .next t) :
    t = s ∨
    (s.hung = false ∧ ∃ i rest, fetch s.hostIn = .command i rest ∧ exec i (s.setHostIn rest) = .next t) ∨
    (s.hung = false ∧ ∃ w rest, fetch s.hostIn = .illegal w rest ∧
      t = (s.setHostIn rest).raise .host (.illegalCommand w)) := by
  unfold step at h
  split at h
  · exact .inl (by simpa using h.symm)
  · rename_i hh
    have hh : s.hung = false := by simpa using hh
    split at h
    · exact .inl (by simpa using h.symm)
    · exact .inr (.inl ⟨hh, _, _, by assumption, h⟩)
    · exact .inr (.inr ⟨hh, _, _, by assumption, by simpa using h.symm⟩)

/-- A run of one step more is the step and then the run. -/
theorem run_succ_of_next (M : Host.Core) (k : Nat) {s s' : M.State} (h : M.step s = .next s') :
    M.run (k + 1) s = M.run k s' := by simp [Host.Core.run, h]

/-- A state that a step does not change is where every run from it ends. -/
theorem run_of_fixed (M : Host.Core) {s : M.State} (h : M.step s = .next s) : ∀ n, M.run n s = .next s
  | 0 => rfl
  | n + 1 => (run_succ_of_next M n h).trans (run_of_fixed M h n)

/-- The listed action of the processor's state (R180). -/
theorem State.procAction_of_lookup {s : State} {a : ProcAction} (h : s.procTable.lookup s.procQ = some a) :
    s.procAction = a := by simp [State.procAction, h]

/-- STEP is its chain and then what follows the chain. -/
theorem exec_step (delta : Half) (s : State) :
    exec (.step delta) s = .next (finishStep delta (runChain s.procAction [] s)) := rfl

end Sys2Proof.Machine
end

