-- ==== Sys2Proof/Tests/Slice0.lean ====
section
/-! SUPPORT. Tests of the model against the words, examples and vectors of spec/ (spec/95_test_vectors.md unless a comment
names another file), and a witness for the hypotheses of each statement that has some. -/

namespace Sys2Proof.Tests

open Sys2Proof Sys2Proof.Machine

/-! ## The machine the vectors run on: tick period 1000, the font D19 offers -/

/-- "`P = 1000` and `TICK_MODE = DRAIN` unless stated" (95_test_vectors.md). -/
def testConfig (mode : TickMode) : Config := { tickPeriod := 1000#32, font := Config.suggestedFont, tickMode := mode }

/-- The bundle at creation. -/
def start : State := State.fresh (testConfig .drain)

/-- The same under SINGLE. -/
def startSingle : State := State.fresh (testConfig .single)

/-- One step with these words on the host port. -/
def served (s : State) (ws : List Word) : State :=
  match step { s with hostIn := ws } with
  | .next t => t
  | .fault _ => s
  | .refused _ => s

/-- The state with this action for the processor. -/
def withAction (a : ProcAction) (s : State) : State := { s with procTable := [(0, a)] }

theorem served_of_next {s t : State} {ws : List Word} (h : step { s with hostIn := ws } = .next t) : served s ws = t := by
  simp [served, h]

/-! ## WellFormed refuses (R72, R82: an index of 2^24 or more; a length of 2^32 or more) -/

theorem test_readkey_index_too_large : (Instr.readkey (2 ^ 24)).wellFormed = false := by decide
theorem test_readram_index_too_large : (Instr.readram (2 ^ 24)).wellFormed = false := by decide
theorem test_writeram_index_too_large : (Instr.writeram (2 ^ 24) 0#8).wellFormed = false := by decide
theorem test_readvram_index_too_large : (Instr.readvram (2 ^ 24)).wellFormed = false := by decide
theorem test_writevram_index_too_large : (Instr.writevram (2 ^ 24) 0#8).wellFormed = false := by decide
theorem test_xorvram_index_too_large : (Instr.xorvram (2 ^ 24) 0#8).wellFormed = false := by decide
theorem test_loadrom_too_long (n : Nat) (h : 2 ^ 32 ≤ n) :
    (Instr.loadrom (List.replicate n 0#8)).wellFormed = false :=
  (congrArg (fun k => decide (k < 2 ^ 32)) List.length_replicate).trans (decide_eq_false (Nat.not_lt.2 h))
theorem test_largest_index_admitted : (Instr.readram (2 ^ 24 - 1)).wellFormed = true := by decide

/-! ## Decoding: a word of every constructor, from R74's columns or a rule's example -/

theorem test_decode_setkey : decodeTableWord 64 0x0100000F00000001 = some (.setkey 0x0F#8 0x01#8) := by decide   -- R140
theorem test_decode_readkey : decodeTableWord 64 0x0200000500000000 = some (.readkey 5) := by decide              -- R141
theorem test_decode_readram : decodeTableWord 64 0x1000020000000000 = some (.readram 0x200) := by decide          -- R150
theorem test_decode_writeram : decodeTableWord 64 0x11000FFF00000012 = some (.writeram 0xFFF 0x12#8) := by decide -- R151
theorem test_decode_readvram : decodeTableWord 64 0x12ABCDEF00000000 = some (.readvram 0xABCDEF) := by decide     -- R74
theorem test_decode_writevram : decodeTableWord 64 0x13000000000000FF = some (.writevram 0 0xFF#8) := by decide   -- R153
theorem test_decode_xorvram : decodeTableWord 64 0x140000FF00000001 = some (.xorvram 255 0x01#8) := by decide     -- M4
theorem test_decode_getvram : decodeTableWord 64 0x1500000000000000 = some .getvram := by decide                  -- R156
theorem test_decode_loadrom :                                                                                     -- R77
    decodeTableWord 128 0xAABB0000000000001600000000000002 = some (.loadrom [0xAA#8, 0xBB#8]) := by decide
theorem test_decode_getdelay : decodeTableWord 64 0x2000000000000000 = some .getdelay := by decide                -- R110
theorem test_decode_setdelay : decodeTableWord 64 0x210000000000003C = some (.setdelay 60#8) := by decide         -- R111
theorem test_decode_getsound : decodeTableWord 64 0x2200000000000000 = some .getsound := by decide                -- R112
theorem test_decode_setsound : decodeTableWord 64 0x2300000000000002 = some (.setsound 2#8) := by decide          -- R113
theorem test_decode_playsound : decodeTableWord 64 0x2400000000000000 = some .playsound := by decide              -- R114
theorem test_decode_advance : decodeTableWord 64 0x25000000000003E8 = some (.advance 1000#32) := by decide        -- R115
theorem test_decode_step : decodeTableWord 64 0x30000000DEADBEEF = some (.step 0xDEADBEEF#32) := by decide        -- R74

/-- Two payload words (M13). -/
theorem test_decode_loadrom_two_words : fetch [0x1600000000000009#64, 0x0102030405060708#64, 0x0900000000000000#64] =
    .command (.loadrom [1#8, 2#8, 3#8, 4#8, 5#8, 6#8, 7#8, 8#8, 9#8]) [] := by decide

/-- No two rows of R74 fit one word: "Masks never overlap, because `op` differs in every row". -/
theorem test_rows_do_not_overlap : opcodeMap.Pairwise (fun r r' => r.mtch &&& r'.mask ≠ r'.mtch ∧
    r'.mtch &&& r.mask ≠ r.mtch) := by decide

theorem test_reserved_bit_T16 : decodeCommand 0x2100000000000100#64 [] = .illegal .reservedBit := by decide
theorem test_reserved_bit_T17 : decodeCommand 0x2400000000000001#64 [] = .illegal .reservedBit := by decide
theorem test_reserved_bit_K7 : decodeCommand 0x0100010000000001#64 [] = .illegal .reservedBit := by decide
theorem test_reserved_op_M18 : decodeCommand 0x0000000000000000#64 [] = .illegal .reservedOp ∧
    decodeCommand 0xFF00000000000000#64 [] = .illegal .reservedOp := by decide
theorem test_padding_M12 : decodeCommand 0x1600000000000001#64 [0xAA00000000000001#64] = .illegal .paddingSet := by decide

/-- The encoder, on the words of the rules. -/
theorem test_encode : encode (.setkey 0xF#8 1#8) = [0x0100000F00000001#64] ∧
    encode (.writeram 0xFFF 0x12#8) = [0x11000FFF00000012#64] ∧
    encode (.loadrom [0xAA#8, 0xBB#8]) = [0x1600000000000002#64, 0xAABB000000000000#64] ∧
    encode (.step 1000#32) = [0x30000000000003E8#64] := by decide

/-! ## The assembler (R82 to R85) -/

set_option maxRecDepth 10000 in
theorem test_assemble_writeram : assemble "WRITERAM 0x200, 0x12" = some [0x1100020000000012#64] := by decide +kernel
set_option maxRecDepth 10000 in
/-- The last line of Program 3, and a number that does not fit a word. -/
theorem test_assemble_word : assemble ".word 0xFF00000000000000 ; IllegalCommand" = some [0xFF00000000000000#64] ∧
    assemble ".word 0x10000000000000000" = none := by decide +kernel
theorem test_toggle_M15 : expandToggle 10 2 = some [.xorvram 17 0x20#8] := by decide
theorem test_spriterow_M16 : expandSpriterow 4 0 0xFF#8 = some [.xorvram 0 0x0F#8, .xorvram 1 0xF0#8] := by decide
theorem test_spriterow_M17 : expandSpriterow 60 0 0xFF#8 = some [.xorvram 7 0x0F#8] := by decide

/-! ## Timer operations (vectors W1, T1 to T13; a timer is count, accumulated, flag) -/

theorem test_update_W1 : Timer.updateDrain 1000 ⟨1#8, 0#32, false⟩ 1000#32 = ⟨0#8, 0#32, true⟩ ∧
    Timer.updateDrain 1000 ⟨0#8, 0#32, true⟩ 1000#32 = ⟨0#8, 0#32, false⟩ := by decide
theorem test_update_T1 : Timer.updateDrain 1000 ⟨3#8, 0#32, false⟩ 999#32 = ⟨3#8, 999#32, false⟩ ∧
    Timer.updateDrain 1000 ⟨3#8, 999#32, false⟩ 1#32 = ⟨2#8, 0#32, false⟩ := by decide
theorem test_update_T2 : Timer.updateDrain 1000 ⟨2#8, 0#32, false⟩ 2000#32 = ⟨0#8, 0#32, true⟩ := by decide
theorem test_update_T3 : Timer.updateSingle 1000 ⟨2#8, 0#32, false⟩ 2000#32 = some ⟨1#8, 1000#32, false⟩ ∧
    Timer.updateSingle 1000 ⟨1#8, 1000#32, false⟩ 0#32 = some ⟨0#8, 0#32, true⟩ := by decide
theorem test_update_T4 : Timer.updateDrain 1000 ⟨1#8, 0#32, false⟩ 2500#32 = ⟨0#8, 500#32, false⟩ ∧
    Timer.updateSingle 1000 ⟨1#8, 0#32, false⟩ 2500#32 = some ⟨0#8, 1500#32, true⟩ := by decide
theorem test_update_T5 : Timer.updateDrain 1000 ⟨0#8, 0#32, true⟩ 500#32 = ⟨0#8, 500#32, true⟩ ∧
    Timer.updateDrain 1000 ⟨0#8, 500#32, true⟩ 500#32 = ⟨0#8, 0#32, false⟩ := by decide
theorem test_update_T6 : Timer.setCount ⟨0#8, 700#32, true⟩ 5#8 = ⟨5#8, 700#32, true⟩ ∧
    Timer.updateDrain 1000 ⟨5#8, 700#32, true⟩ 300#32 = ⟨4#8, 0#32, true⟩ := by decide
theorem test_update_T7 : Timer.updateDrain 1000 ⟨255#8, 999#32, false⟩ 0xFFFFFFFF#32 = ⟨0#8, 294#32, false⟩ := by decide
theorem test_update_T10 : Timer.updateDrain 1 ⟨3#8, 0#32, false⟩ 3#32 = ⟨0#8, 0#32, true⟩ ∧
    Timer.updateDrain 1 ⟨0#8, 0#32, true⟩ 1#32 = ⟨0#8, 0#32, false⟩ := by decide
theorem test_update_T11 : Timer.updateSingle 1000 ⟨0#8, 4294967000#32, false⟩ 2000#32 = none := by decide
theorem test_update_T12 : Timer.updateDrain 1000 ⟨3#8, 500#32, false⟩ 2500#32 = ⟨0#8, 0#32, true⟩ := by decide
theorem test_update_T13 : Timer.updateDrain 1000 ⟨5#8, 0#32, true⟩ 2000#32 = ⟨3#8, 0#32, true⟩ := by decide

/-- R100's loop itself, on T12, T4 and T5 scaled down to a period of 4. -/
theorem test_updateLoop : Timer.updateLoop 4 ⟨3#8, 2#32, false⟩ 10#32 = ⟨0#8, 0#32, true⟩ ∧
    Timer.updateLoop 4 ⟨1#8, 0#32, false⟩ 10#32 = ⟨0#8, 2#32, false⟩ ∧
    Timer.updateLoop 4 ⟨0#8, 2#32, true⟩ 2#32 = ⟨0#8, 0#32, false⟩ := by decide

/-! ## Commands, one step each (vectors T14 to T18, K1 to K9, M1 to M19) -/

theorem test_advance_T14 :
    (served { start with delay := ⟨2#8, 0#32, false⟩, sound := ⟨1#8, 0#32, false⟩ } [0x25000000000003E8#64]).bundle =
      { start.bundle with delay := ⟨1#8, 0#32, false⟩, sound := ⟨0#8, 0#32, true⟩ } := by decide
theorem test_advance_single_overflow :   -- T11, as a command; R115: neither timer is written
    let t := served { startSingle with sound := ⟨0#8, 4294967000#32, false⟩ } [0x25000000000007D0#64]
    t.hostOut = [0x0500000000000000#64] ∧ t.faults = [.accumulatorOverflow .sound] ∧ t.delay = Timer.zeroed := by decide
theorem test_playsound_T18 :
    let t := served { start with sound := ⟨0#8, 0#32, true⟩ } [0x2400000000000000#64]
    t.hostOut = [0x0000000000000001#64] ∧ t.sound = ⟨0#8, 0#32, true⟩ := by decide
theorem test_setdelay_T15 :
    let t := served start [0x210000000000003C#64]
    t.hostOut = [0#64] ∧ t.delay = ⟨60#8, 0#32, false⟩ := by decide
theorem test_getdelay_T15 :
    (served { start with delay := ⟨60#8, 0#32, false⟩ } [0x2000000000000000#64]).hostOut = [0x000000000000003C#64] := by
  decide
theorem test_setsound_T8 :
    (served { start with sound := ⟨5#8, 0#32, true⟩ } [0x2300000000000000#64]).sound = ⟨0#8, 0#32, true⟩ := by decide
theorem test_getsound_R112 :
    (served { start with sound := ⟨2#8, 0#32, false⟩ } [0x2200000000000000#64]).hostOut = [0x0000000000000002#64] := by
  decide
theorem test_reserved_bit_answer_T16 :
    let t := served start [0x2100000000000100#64]
    t.hostOut = [0x0300000000000000#64] ∧ t.faults = [.illegalCommand 0x2100000000000100#64] ∧ t.bundle = start.bundle := by
  decide

theorem test_setkey_K1 :
    let t := served start [0x0100000F00000001#64]
    t.hostOut = [0#64] ∧ t.keys = [(15, 1#8)] := by decide
theorem test_setkey_errors_K2_K3_K4 :
    (served start [0x0100001000000001#64]).hostOut = [0x0100000000000000#64] ∧
    (served start [0x0100000300000002#64]).hostOut = [0x0400000000000000#64] ∧
    (served start [0x0100001000000002#64]).hostOut = [0x0100000000000000#64] := by decide
theorem test_readkey_K5_K8 :
    (served start [0x0200001000000000#64]).hostOut = [0x0100000000000000#64] ∧
    (served start [0x02FFFFFF00000000#64]).hostOut = [0x0100000000000000#64] := by decide
theorem test_readkey_R141 :
    (served { start with keys := [(5, 1#8)] } [0x0200000500000000#64]).hostOut = [0x0000000000000001#64] := by decide

theorem test_writeram_M1 : (served start [0x11000FFF00000012#64]).ram = [(0xFFF, 0x12#8)] := by decide
theorem test_readram_M2 :
    (served start [0x1000100000000000#64]).hostOut = [0x0100000000000000#64] ∧
    (served { start with ram := [(0x200, 0xAA#8)] } [0x1000020000000000#64]).hostOut = [0x00000000000000AA#64] := by decide
theorem test_writeram_program3 :   -- Program 3: out of bounds, nothing written
    let t := served start [0x1100100000000055#64]
    t.faults = [.outOfBounds .ram 0x1000] ∧ t.ram = [] := by decide
theorem test_xorvram_W3 :
    (served { start with vram := [(0, 0xFF#8)] } [0x140000000000000F#64]).vram = [(0, 0xF0#8)] := by decide
theorem test_xorvram_M5_M6 :
    (served start [0x1400010000000001#64]).hostOut = [0x0100000000000000#64] ∧
    (served { start with vram := [(3, 0x5A#8)] } [0x1400000300000000#64]).vram = [(3, 0x5A#8)] := by decide
theorem test_readvram_M8 :
    (served { start with vram := [(0, 0xF0#8)] } [0x1200000000000000#64]).hostOut = [0x00000000000000F0#64] ∧
    collision 0xF0#8 0x18#8 = true := by decide
theorem test_writevram_M19 :
    (served start [0x1300010000000000#64]).hostOut = [0x0100000000000000#64] ∧
    (served start [0x13000000000000FF#64]).vram = [(0, 0xFF#8)] := by decide
set_option maxRecDepth 10000 in
theorem test_getvram_M14 :
    (served { start with vram := [(0, 0xFF#8), (9, 0x81#8)] } [0x1500000000000000#64]).hostOut =
      [0x0000000000000100#64, 0xFF00000000000000#64, 0x0081000000000000#64] ++ List.replicate 30 0#64 := by decide +kernel
theorem test_loadrom_W2 :
    let t := served start [0x1600000000000002#64, 0xAABB000000000000#64]
    Memory.read t.ram 0x200 = 0xAA#8 ∧ Memory.read t.ram 0x201 = 0xBB#8 ∧ Memory.read t.ram 0x000 = 0xF0#8 ∧
      Memory.read t.ram 0x202 = 0#8 := by decide +kernel
theorem test_loadrom_M10 :   -- 3585 bytes: rejected whole
    cmdLoadrom (List.replicate 3585 0x11#8) start = .error (.romTooLarge 3585) := by decide +kernel
theorem test_pixel_M4 : ({ start with vram := [(255, 0x01#8)] } : State).pixel 63 31 = true ∧
    ({ start with vram := [(255, 0x01#8)] } : State).pixel 62 31 = false := by decide

/-! ## STEP (vectors S1 to S6) -/

theorem test_step_S1 :
    (served (withAction (scriptAction [.setdelay 5#8] (.done 1)) start) [0x30000000000003E8#64]).delay =
      ⟨4#8, 0#32, false⟩ := by decide
theorem test_step_S2 :
    (served (withAction (scriptAction [.setdelay 5#8, .getdelay] (.done 1)) start) [0x30000000000003E8#64]).procOut =
      [0#64, 0x0000000000000005#64] := by decide
theorem test_step_S3 :
    let t := served (withAction (scriptAction [.writeram 0x300 0x77#8, .readram 0x1000] (.done 1)) start)
      [0x30000000000003E8#64]
    t.hostOut = [0x0100000000000000#64] ∧ t.ram = [(0x300, 0x77#8)] ∧ t.delay = Timer.zeroed ∧ t.procQ = 0 := by decide
theorem test_step_S4 :
    let t := served (withAction (.fail 7) start) [0x30000000000003E8#64]
    t.hostOut = [0x0600000000000000#64] ∧ t.bundle = start.bundle := by decide
theorem test_step_S5 :
    (served (withAction (.issue 0x30000000000003E8#64 [] (.done 1)) start) [0x30000000000003E8#64]).hostOut =
      [0x0300000000000000#64] := by decide
theorem test_step_S6 :
    (served (withAction (.done 1) { start with delay := ⟨3#8, 0#32, false⟩ }) [0x3000000000000000#64]).delay =
      ⟨3#8, 0#32, false⟩ := by decide
/-- A test on the response: the processor writes RAM only where the key is down (R180: the response goes to `k`). -/
theorem test_step_branches :
    let a := ProcAction.issue (encodeHeader (.readkey 4)) []
      (.onResponse [0x0000000000000001#64] (scriptAction [.writeram 0x300 9#8] (.done 1)) (.done 2))
    (served (withAction a { start with keys := [(4, 1#8)] }) [0x3000000000000000#64]).ram = [(0x300, 9#8)] ∧
    (served (withAction a start) [0x3000000000000000#64]).ram = [] := by decide
/-- A chain that hangs: nothing is returned, and the next command is not served. -/
theorem test_step_hangs :
    let t := served (withAction .hang start) [0x30000000000003E8#64, 0x2000000000000000#64]
    t.hung = true ∧ t.hostOut = [] ∧ step t = .next t := ⟨rfl, rfl, rfl⟩

/-! ## Reset -/

theorem test_reset_memory : State.reset.ram = [] ∧ State.reset.vram = [] ∧ State.reset.keys = [] ∧
    Memory.wf State.reset.ram = true := ⟨rfl, rfl, rfl, rfl⟩
theorem test_reset_timers : State.reset.delay = ⟨0#8, 0#32, false⟩ ∧ State.reset.sound = ⟨0#8, 0#32, false⟩ := ⟨rfl, rfl⟩
theorem test_suggestedFont : (testConfig .drain).wf = true := by decide
/-- From reset a word placed on the host port is the first command served. -/
theorem test_reset_runs_first_word :
    (match step (State.reset.withFetchWord 64 0x0100000F00000001) with
      | .next t => t.keys
      | .fault _ => []
      | .refused _ => []) = [(15, 1#8)] := by decide

/-! ## Witnesses: states and operands that meet the hypotheses of the statements, all of them together -/

/-- The invariant's witness, under either tick mode. -/
theorem start_inv (mode : TickMode) : (State.fresh (testConfig mode)).Inv where
  config_wf := by cases mode <;> decide
  ram_wf := rfl
  ram_within := rfl
  vram_wf := rfl
  vram_within := rfl
  keys_wf := rfl
  keys_within := rfl
  keys_bit := fun _ => .inl rfl
  delay_inPeriod := fun _ => by cases mode <;> decide
  sound_inPeriod := fun _ => by cases mode <;> decide

theorem witness_DecodeOfEncodeIsTheCommand : (Instr.xorvram (2 ^ 24 - 1) 0xFF#8).wellFormed = true ∧
    (Instr.loadrom [1#8]).wellFormed = true := by decide
theorem witness_EncodeOfDecodeIsTheWords : [0xAABB000000000000#64].length = payloadCount 0x1600000000000002#64 ∧
    decodeCommand 0x1600000000000002#64 [0xAABB000000000000#64] = .command (.loadrom [0xAA#8, 0xBB#8]) := by decide
/-- Of every row: a word that fits it, and a word with its op and a reserved bit set. LOADROM's two outcomes are
`test_decode_loadrom` and `test_padding_M12`. The same words are those of every `encodedAs`. -/
theorem witness_WordDecodesToTheRowOfItsMaskAndMatch : ∀ r ∈ opcodeMap, r.mtch &&& r.mask = r.mtch ∧
    (r.mtch ||| (r.mask &&& 0x00FFFFFFFFFFFFFF#64)).extractLsb' 56 8 = r.op ∧
    (r.mtch ||| (r.mask &&& 0x00FFFFFFFFFFFFFF#64)) &&& r.mask ≠ r.mtch := by decide
theorem witness_ReservedBitIsAnsweredIllegalCommand :
    (∃ r ∈ opcodeMap, (0x2100000000000100#64).extractLsb' 56 8 = r.op ∧ 0x2100000000000100#64 &&& r.mask ≠ r.mtch) ∧
    start.hung = false ∧ ({ start with hostIn := [0x2100000000000100#64] } : State).hostIn = [0x2100000000000100#64] ∧
    payloadCount 0x2100000000000100#64 ≤ ([] : List Word).length := by decide
/-- The bounds of every reserved range of ops. -/
theorem witness_ReservedOpIsAnsweredIllegalCommand : ∀ n ∈ [0x00, 0x03, 0x0F, 0x17, 0x1F, 0x26, 0x2F, 0x31, 0xFF],
    ((BitVec.ofNat 64 (n * 2 ^ 56)).extractLsb' 56 8).toNat = n ∧
    (n = 0 ∨ (0x03 ≤ n ∧ n ≤ 0x0F) ∨ (0x17 ≤ n ∧ n ≤ 0x1F) ∨ (0x26 ≤ n ∧ n ≤ 0x2F) ∨ 0x31 ≤ n) := by decide
/-- Two payload words (M13), and a word that asks for none. -/
theorem witness_FramingDependsOnTheFirstWordOnly :
    2 = (if (0x1600000000000009#64).extractLsb' 56 8 = 0x16#8 then
      (((0x1600000000000009#64).extractLsb' 0 32).toNat + 7) / 8 else 0) ∧ 2 ≤ [0#64, 0#64].length ∧
    0 = (if (0x2500000000000009#64).extractLsb' 56 8 = 0x16#8 then
      (((0x2500000000000009#64).extractLsb' 0 32).toNat + 7) / 8 else 0) ∧ start.hung = false := by decide
/-- M12 and the example of R77: padding set, and padding clear. -/
theorem witness_RomBytesArePackedFirstByteHigh :
    0x1600000000000001#64 &&& 0xFFFFFFFF00000000#64 = 0x1600000000000000#64 ∧
    [0xAA00000000000001#64].length = (((0x1600000000000001#64).extractLsb' 0 32).toNat + 7) / 8 ∧
    ([0xAA00000000000001#64].getD (7 / 8) 0#64).extractLsb' (56 - 8 * (7 % 8)) 8 ≠ 0#8 ∧
    (∀ i < 8, 1 ≤ i → ([0xAA00000000000000#64].getD (i / 8) 0#64).extractLsb' (56 - 8 * (i % 8)) 8 = 0#8) := by decide
theorem witness_StepRunsTheDecodedCommand : start.hung = false ∧ (Instr.setdelay 60#8).wellFormed = true ∧
    ({ start with hostIn := [0x210000000000003C#64, 0#64] } : State).hostIn = encode (.setdelay 60#8) ++ [0#64] := by decide
theorem witness_IdleHoldsTheWholeState : start.hostIn = [] := rfl
theorem witness_IncompleteCommandWaits : (0x1600000000000009#64).extractLsb' 56 8 = 0x16#8 ∧
    [0#64].length < (((0x1600000000000009#64).extractLsb' 0 32).toNat + 7) / 8 := by decide
/-- A command that succeeds and one that fails. -/
theorem witness_EveryCommandReturnsOneResponseWord :
    (∃ t, exec (.readram 0xFFF) start = .next t ∧ t.hung = false ∧ t.faults = []) ∧
    (∃ t, exec (.readram 0x1000) start = .next t ∧ t.hung = false ∧ t.faults = [.outOfBounds .ram 0x1000]) :=
  ⟨⟨_, rfl, rfl, rfl⟩, ⟨_, rfl, rfl, rfl⟩⟩
theorem witness_ErrorWritesNoBundleState : (∀ delta, Instr.readram 0x1000 ≠ .step delta) ∧
    ∃ t, exec (.readram 0x1000) start = .next t ∧ t.faults = [.outOfBounds .ram 0x1000] := ⟨by simp, _, rfl, rfl⟩
/-- The first index out of each space's bounds. -/
theorem witness_IndexOutOfItsSpaceIsOutOfBounds : 4096 ≤ 0x1000 ∧ 256 ≤ 0x100 ∧ 16 ≤ 0x10 ∧ (0x10#8).toNat = 0x10 := by
  decide
theorem witness_SameCommandFailsTheSameWayAgain : ∃ t u, exec (.readram 0x1000) start = .next t ∧
    exec (.readram 0x1000) t = .next u ∧ State.answeredError start t (.outOfBounds .ram 0x1000) :=
  ⟨_, _, rfl, rfl, rfl, rfl⟩
/-- A step that notes a fault. -/
theorem witness_FaultsAreNeverRemoved : ∃ t, step { start with hostIn := [0#64] } = .next t ∧
    t.faults = [.illegalCommand 0#64] := ⟨_, rfl, rfl⟩
theorem witness_NoStepChangesTheConfiguration : ∃ t, step { start with hostIn := [0x25000000000003E8#64] } = .next t ∧
    t.hostIn = [] := ⟨_, rfl, rfl⟩
theorem witness_CommandsStoreOnlyWhereTheySay : start.Inv ∧ (∀ delta, Instr.writeram 0 1#8 ≠ .step delta) ∧
    ∃ t, exec (.writeram 0 1#8) start = .next t ∧ t.ram = [(0, 1#8)] :=
  ⟨start_inv .drain, by simp, _, rfl, rfl⟩
theorem witness_ReadsWriteNothingAndWritesAreIdempotent : start.Inv ∧ ∃ t u, exec (.writevram 255 1#8) start = .next t ∧
    exec (.writevram 255 1#8) t = .next u ∧ u.vram = [(255, 1#8)] := ⟨start_inv .drain, _, _, rfl, rfl, rfl⟩
/-- The clauses of SETKEY, at the bounds of its code and its state. -/
theorem witness_SetkeyWritesOneLatchEntry : Memory.wf start.keys = true ∧ (16#8).toNat ≥ 16 ∧ (15#8).toNat < 16 ∧
    (2#8 ≠ 0#8 ∧ 2#8 ≠ 1#8) ∧ (1#8 = 0#8 ∨ 1#8 = 1#8) := by decide
theorem witness_ReadkeyReturnsWhatSetkeyWrote : start.Inv ∧ (15#8).toNat < 16 ∧
    (∀ i ∈ [Instr.setkey 14#8 1#8, .advance 1#32], ¬ Instr.stores i .keys (15#8).toNat) :=
  ⟨start_inv .drain, by decide, by simp [Instr.stores]⟩
/-- The last index in bounds and the first out of bounds, of each space. -/
theorem witness_ElementReadsAnswerTheElement : 15 < 16 ∧ 4095 < 4096 ∧ 255 < 256 ∧ 16 ≤ 16 ∧ 4096 ≤ 4096 ∧ 256 ≤ 256 := by
  decide
theorem witness_WriteramStoresOneByte : Memory.wf start.ram = true ∧ 4095 < 4096 ∧ 4096 ≤ 4096 := by decide
theorem witness_VideoWritesChangeOneByte : Memory.wf start.vram = true ∧ 255 < 256 ∧ 256 ≤ 256 ∧
    0xFF#8 = Memory.read start.vram 255 ^^^ 0xFF#8 := by decide
/-- A read of the address written and one of another. -/
theorem witness_ReadAfterWriteReturnsTheLastWrite : start.Inv ∧ 4095 < 4096 ∧ 0 < 4096 ∧ 255 < 256 ∧ 0 < 256 :=
  ⟨start_inv .drain, by decide⟩
theorem witness_XorvramTwiceRestores : start.Inv ∧ 255 < 256 ∧
    (∀ i ∈ [Instr.xorvram 254 1#8, .getvram], ¬ Instr.stores i .vram 255) :=
  ⟨start_inv .drain, by decide, by simp [Instr.stores]⟩
/-- The last pixel, and the first coordinates off the screen. -/
theorem witness_ToggleFlipsOnePixel : Memory.wf start.vram = true ∧ 63 < 64 ∧ 31 < 32 ∧ (64 ≤ 64 ∨ 32 ≤ 32) := by decide
theorem witness_ClsClearsTheScreen : Memory.wf start.vram = true ∧ 255 < 256 ∧ 63 < 64 ∧ 31 < 32 := by decide
/-- The columns 0, 4 and 60 of the three expansions. -/
theorem witness_SpriterowXorsEightPixelsClipped : Memory.wf start.vram = true ∧ 63 < 64 ∧ 31 < 32 ∧ (64 ≤ 64 ∨ 32 ≤ 32) ∧
    0 % 8 = 0 ∧ (0 < 4 % 8 ∧ 4 / 8 < 7) ∧ (0 < 60 % 8 ∧ 7 ≤ 60 / 8) := by decide
/-- The largest ROM that fits and the smallest that does not (M9, M10). -/
theorem witness_RomTooLargeIsRejectedWhole : start.config.wf = true ∧ (List.replicate 3584 0x11#8).length ≤ 3584 ∧
    3584 < (List.replicate 3585 0x11#8).length := by
  rw [List.length_replicate, List.length_replicate]; decide
theorem witness_LoadromPlacesTheRom : start.config.wf = true ∧ [0xAA#8, 0xBB#8].length ≤ 3584 ∧ 1 < [0xAA#8, 0xBB#8].length ∧
    0x050 ≤ 0x1FF ∧ ¬ (0x200 ≤ 0x1FF ∧ 0x1FF < 0x200 + 2) := by decide
theorem witness_LoadromInstallsTheFont : start.Inv ∧ ([] : List Byte).length ≤ 3584 ∧ 79 < 80 ∧
    (∀ c ∈ [Instr.writeram 80 1#8, .loadrom [1#8]], (∀ delta, c ≠ .step delta) ∧ ∀ v, c ≠ .writeram 79 v) :=
  ⟨start_inv .drain, by decide, by decide, by simp⟩
theorem witness_LoadromLeavesTheRest : start.config.wf = true ∧ ∃ t, exec (.loadrom []) start = .next t :=
  ⟨by decide, _, rfl⟩
theorem witness_AdvanceRunsTheDrainLoop : start.config.wf = true ∧ start.config.tickMode = .drain := by decide
/-- Under DRAIN; under SINGLE with two updates that fit, and with one that does not. -/
theorem witness_AdvanceUpdatesBothTimers : start.config.wf = true ∧ start.config.tickMode = .drain ∧
    startSingle.config.wf = true ∧ startSingle.config.tickMode = .single ∧
    Timer.updateSingle 1000 startSingle.delay 2000#32 = some ⟨0#8, 1000#32, false⟩ ∧
    Timer.updateSingle 1000 ⟨0#8, 4294967000#32, false⟩ 2000#32 = none := by decide
theorem witness_AdvancesAddUp : start.config.wf = true ∧ start.config.tickMode = .drain ∧
    (0xFFFFFFFF#32).toNat + (0#32).toNat < 2 ^ 32 := by decide
theorem witness_UpdatesHaveTheClosedForm : 1 ≤ 1 ∧ 0xFFFFFFFF < 2 ^ 32 := by decide
/-- Under SINGLE: both updates fit; the sound timer's alone does not; neither does (R206, R208). -/
theorem witness_OverflowOnlyUnderSingle : startSingle.config.wf = true ∧ startSingle.config.tickMode = .single ∧
    Timer.updateSingle 1000 Timer.zeroed 2000#32 ≠ none ∧
    Timer.updateSingle 1000 ⟨0#8, 4294967000#32, false⟩ 2000#32 = none := by decide
/-- The count-down of Program 2, with a zero delta after it; and R117's failing case under SINGLE. -/
theorem witness_CountdownCompletesAtTheLastPositiveDelta :
    (([600#32, 600#32] ++ 800#32 :: [0#32]).map BitVec.toNat).sum = 2 * 1000 ∧ 800#32 ≠ 0#32 ∧ (2#8).toNat = 2 ∧
    2 * 1000 < 2 ^ 32 := by decide
theorem witness_ArmingKeepsThePhase : start.Inv ∧ start.config.tickMode = .drain ∧ 1 ≤ 255 ∧ 255 ≤ (255#8).toNat :=
  ⟨start_inv .drain, rfl, by decide, by decide⟩
theorem witness_StrobeSurvivesARearm : let s := { start with sound := ⟨0#8, 700#32, true⟩ }
    s.config.wf = true ∧ s.config.tickMode = .drain ∧ s.sound.justCompleted = true ∧ 5#8 ≠ 0#8 := by decide
/-- R243's example: count 1, accumulator 0, a delta of 2P; and a delta below P. -/
theorem witness_StrobeIsLostOnlyByALargeDelta : ({ start with sound := ⟨1#8, 0#32, false⟩ } : State).Inv ∧
    (0 + (2000#32).toNat) / 1000 > (1#8).toNat ∧ (999#32).toNat < 1000 :=
  ⟨{ start_inv .drain with sound_inPeriod := fun _ => by decide }, by decide, by decide⟩
theorem witness_OnlyTheTimerUpdateWritesFlags : (∀ delta, Instr.setsound 1#8 ≠ .advance delta ∧ Instr.setsound 1#8 ≠ .step delta) ∧
    ∃ t, exec (.setsound 1#8) { start with sound := ⟨0#8, 0#32, true⟩ } = .next t ∧ t.sound = ⟨1#8, 0#32, true⟩ :=
  ⟨by simp, _, rfl, rfl⟩
theorem witness_CountsOnlyDecreaseExceptBySet : (∀ delta, Instr.advance 1000#32 ≠ .step delta) ∧
    ∃ t, exec (.advance 1000#32) { start with delay := ⟨2#8, 0#32, false⟩ } = .next t ∧ t.delay = ⟨1#8, 0#32, false⟩ :=
  ⟨by simp, _, rfl, rfl⟩
/-- Two machines that differ in the hidden flag, and a step of each. -/
theorem witness_DelayFlagIsNeverObserved :
    let s := { start with hostIn := [0x25000000000001F4#64] }
    let s' := { start with hostIn := [0x25000000000001F4#64], delay := ⟨0#8, 0#32, true⟩ }
    s.hideDelayFlag = s'.hideDelayFlag ∧ ∃ t t', step s = .next t ∧ step s' = .next t' ∧ t.delay ≠ t'.delay :=
  ⟨rfl, _, _, rfl, rfl, by decide⟩

/-- A processor that issues WRITERAM and then, on its response, READKEY; of `StepIsTheCommandsThenAdvance`. -/
def twoCommands (final : ProcAction) : ProcAction :=
  .issue 0x1100030000000077#64 [] (.onResponse [0#64] (.issue 0x0200000500000000#64 [] final) .hang)

/-- What it comes to issue, with the responses. -/
def twoSteps : List (Instr × List Word) := [(.writeram 0x300 0x77#8, [responseWord 0x00#8 0#32]), (.readkey 5, [responseWord 0x00#8 (zextByte 0#8)])]

theorem twoCommands_issues (final : ProcAction) (h : resolveTests final [responseWord 0x00#8 (zextByte 0#8)] = final) :
    actionIssues twoSteps (withAction (twoCommands final) start).procAction [] final :=
  ⟨_, rfl, _, if_pos (by decide), h⟩

theorem twoSteps_served (final : ProcAction) : servedAs twoSteps (withAction (twoCommands final) start)
    { withAction (twoCommands final) start with ram := [(0x300, 0x77#8)], hostOut := [responseWord 0x00#8 0#32, responseWord 0x00#8 (zextByte 0#8)] } :=
  ⟨_, rfl, rfl, rfl, _, rfl, rfl, rfl, rfl⟩

theorem twoSteps_issuable : ∀ p ∈ twoSteps, Instr.issuable p.1 := by
  simp [twoSteps, Instr.issuable, Instr.wellFormed, indexFits]

theorem witness_StepOfAnIdleInstructionAdvances : let s := withAction (.done 3) start
    s.config.wf = true ∧ s.config.tickMode = .drain ∧ s.procAction = .done 3 := by decide
/-- The clause of a chain that ends; the failing clauses meet their hypotheses in `witness_StepStopsAtTheFailingCommand`. -/
theorem witness_StepIsTheCommandsThenAdvance : ∃ t u, actionIssues twoSteps (withAction (twoCommands (.done 3)) start).procAction
    [] (.done 3) ∧ servedAs twoSteps (withAction (twoCommands (.done 3)) start) t ∧ exec (.advance 1000#32) t = .next u :=
  ⟨_, _, twoCommands_issues _ rfl, twoSteps_served _, rfl⟩
theorem witness_OutputsShowEachProcessorCommand : ∃ t,
    actionIssues (twoSteps.take 1 ++ [(.readkey 5, [responseWord 0x00#8 (zextByte 0#8)])])
      (withAction (twoCommands (.done 3)) start).procAction [] (.done 3) ∧
    servedAs (twoSteps.take 1 ++ [(.readkey 5, [responseWord 0x00#8 (zextByte 0#8)])])
      (withAction (twoCommands (.done 3)) start) t := ⟨_, twoCommands_issues _ rfl, twoSteps_served _⟩
/-- The third command fails (S3): READRAM of the first address out of bounds. The other cases: the third word has a reserved
op; it is a nested STEP with a word listed behind it; the instruction ends with `Fail`. -/
theorem witness_StepStopsAtTheFailingCommand :
    let final := ProcAction.issue (encodeHeader (.readram 0x1000)) (encodePayload (.readram 0x1000)) (.done 3)
    (∃ t u, actionIssues twoSteps (withAction (twoCommands final) start).procAction [] final ∧
      servedAs twoSteps (withAction (twoCommands final) start) t ∧ Instr.issuable (.readram 0x1000) ∧
      exec (.readram 0x1000) t = .next u ∧ State.answeredError t u (.outOfBounds .ram 0x1000)) ∧
    (∀ issued ∈ [(0x0000000000000000#64, []), (0x3000000000000001#64, [0#64])],
      let bad := ProcAction.issue issued.1 issued.2 (.done 3)
      ∃ t, actionIssues twoSteps (withAction (twoCommands bad) start).procAction [] bad ∧
        servedAs twoSteps (withAction (twoCommands bad) start) t ∧
        performIssue issued.1 issued.2 t = .error (.illegalCommand issued.1)) ∧
    (∃ t, actionIssues twoSteps (withAction (twoCommands (.fail 7)) start).procAction [] (.fail 7) ∧
      servedAs twoSteps (withAction (twoCommands (.fail 7)) start) t) := by
  refine ⟨⟨_, _, twoCommands_issues _ rfl, twoSteps_served _, ⟨by decide, by simp⟩, rfl, rfl, rfl⟩, ?_,
    ⟨_, twoCommands_issues _ rfl, twoSteps_served _⟩⟩
  simp only [List.forall_mem_cons, List.not_mem_nil, false_implies, implies_true, and_true]
  exact ⟨⟨_, twoCommands_issues _ rfl, twoSteps_served _, rfl⟩, ⟨_, twoCommands_issues _ rfl, twoSteps_served _, rfl⟩⟩
theorem witness_HangingChainNeverCompletes : ∃ t, actionIssues twoSteps (withAction (twoCommands .hang) start).procAction [] .hang ∧
    servedAs twoSteps (withAction (twoCommands .hang) start) t := ⟨_, twoCommands_issues _ rfl, twoSteps_served _⟩
theorem witness_ProcessorPortAdmitsEverythingButStep :
    (withAction (.issue (encodeHeader (.step 1#32)) [7#64] (.done 1)) start).procAction =
      .issue (encodeHeader (.step 1#32)) [7#64] (.done 1) ∧
    Instr.issuable (.setdelay 5#8) ∧ ∃ t, exec (.setdelay 5#8) start = .next t ∧ t.delay.count = 5#8 :=
  ⟨by decide, ⟨by decide, by simp⟩, _, rfl, rfl⟩
theorem witness_InstructionPrecedesTheTick : start.config.wf = true ∧ start.config.tickMode = .drain ∧
    (withAction (scriptAction [.setdelay 5#8, .getdelay] (.done 1)) start).procAction =
      scriptAction [.setdelay 5#8, .getdelay] (.done 1) ∧
    (withAction (scriptAction [.setsound 5#8, .getsound] (.done 1)) start).procAction =
      scriptAction [.setsound 5#8, .getsound] (.done 1) := by
  decide
theorem witness_CreationRefusesOrStartsZeroed : State.create (testConfig .drain) = some start ∧
    State.create { testConfig .drain with tickPeriod := 0#32 } = none := by decide
theorem witness_InvariantHoldsAtCreation : State.create (testConfig .single) = some startSingle := by decide
theorem witness_EveryStepKeepsTheInvariant : ∃ s t, State.Inv s ∧ step s = .next t ∧ t.keys = [(15, 1#8)] :=
  ⟨{ start with hostIn := [0x0100000F00000001#64] }, _, { start_inv .drain with }, rfl, by decide⟩

end Sys2Proof.Tests
end

section
/-! Proofs for the family 00_scope.md: the configuration never changes, and what the outputs show between a STEP's commands. -/

namespace Sys2Proof

/-! ## The decoder reads back what the encoder writes (R71 to R77) -/

/-- A word that fits a row decodes to that row's command (R74). -/
theorem decodeCommand_of_mask {w : Word} {r : Row} (hr : r ∈ opcodeMap) (h : w &&& r.mask = r.mtch)
    (payload : List Word) : decodeCommand w payload = commandOf r w payload := by
  rw [decodeCommand, rowOf_of_mask hr h]

/-- A word made from a row's `op` and operands that the row's mask admits decodes to that row's command. -/
theorem decodeCommand_encodeFields {op : Byte} {a : BitVec 24} {d : Half} {payload : List Word} {i : Instr}
    (mtch mask : Word) (hr : ⟨op, mtch, mask⟩ ∈ opcodeMap) (ha : a &&& aField mask = aField mtch)
    (hd : d &&& dField mask = dField mtch)
    (hi : commandOf ⟨op, mtch, mask⟩ (encodeFields op a d) payload = .command i) :
    decodeCommand (encodeFields op a d) payload = .command i := by
  obtain ⟨hmask, hmtch⟩ := opcodeMap_op _ hr
  have ho : op &&& opField mask = opField mtch := by
    rw [hmask, hmtch]; exact BitVec.and_allOnes
  rw [decodeCommand_of_mask hr (word_ext (by simpa using ho) (by simpa using ha) (by simpa using hd)), hi]

/-- A u8 sets no bit of a mask that is clear in its low eight bits. -/
theorem setWidth_and_of_low {n : Nat} {mask : BitVec n} (hlow : ∀ k < 8, mask.getLsbD k = false) (v : Byte) :
    v.setWidth n &&& mask = 0#n := by
  apply BitVec.eq_of_getLsbD_eq
  intro k hk
  by_cases h : k < 8
  · simp [hlow k h]
  · simp [BitVec.getLsbD_of_ge v k (by omega)]

/-- A u8 in `a` sets none of the reserved bits above it (R73). -/
theorem setWidth24_and_high (v : Byte) : v.setWidth 24 &&& 0xFFFF00#24 = 0#24 := setWidth_and_of_low (by decide) v

/-- A u8 in `d` sets none of the reserved bits above it (R73). -/
theorem setWidth32_and_high (v : Byte) : v.setWidth 32 &&& 0xFFFFFF00#32 = 0#32 := setWidth_and_of_low (by decide) v

/-- A u8 in `a` is read back. -/
theorem aByte_encodeFields (op v : Byte) (d : Half) : aByte (encodeFields op (v.setWidth 24) d) = v := by
  simp [aByte_eq]

/-- A u8 in `d` is read back. -/
theorem dByte_encodeFields (op v : Byte) (a : BitVec 24) : dByte (encodeFields op a (v.setWidth 32)) = v := by
  simp [dByte_eq]

/-- An index that fits the 24 bits of `a` (R72). -/
theorem lt_of_indexFits {addr : Nat} (h : indexFits addr = true) : addr < 2 ^ 24 := of_decide_eq_true h

/-- A ROM length that fits `d` is read back. -/
theorem dField_toNat_encodeFields {data : List Byte} (h : lengthFits data = true) (op : Byte) (a : BitVec 24) :
    (dField (encodeFields op a (BitVec.ofNat 32 data.length))).toNat = data.length := by
  have hlt : data.length < 2 ^ 32 := of_decide_eq_true h
  rw [dField_encodeFields, BitVec.toNat_ofNat, Nat.mod_eq_of_lt hlt]

/-- LOADROM's payload is read back: the bytes packed, and the padding zero (R77). -/
theorem decodeRom_packWords {w : Word} {data : List Byte} (h : (dField w).toNat = data.length) :
    decodeRom w (packWords data) = .command (.loadrom data) := by
  simp [decodeRom, unpackWords_packWords, h]

/-- The words of a well-formed command decode to it (R74). -/
theorem decodeCommand_encode {i : Instr} (h : i.wellFormed = true) :
    decodeCommand (encodeHeader i) (encodePayload i) = .command i := by
  cases i with
  | setkey code state =>
    exact decodeCommand_encodeFields 0x0100000000000000#64 0xFFFFFF00FFFFFF00#64 (by decide)
      (setWidth24_and_high code) (setWidth32_and_high state) (by simp [commandOf, aByte_encodeFields, dByte_encodeFields])
  | readkey code =>
    exact decodeCommand_encodeFields 0x0200000000000000#64 0xFF000000FFFFFFFF#64 (by decide)
      BitVec.and_zero rfl (by simpa [commandOf] using lt_of_indexFits h)
  | readram addr =>
    exact decodeCommand_encodeFields 0x1000000000000000#64 0xFF000000FFFFFFFF#64 (by decide)
      BitVec.and_zero rfl (by simpa [commandOf] using lt_of_indexFits h)
  | writeram addr value =>
    exact decodeCommand_encodeFields 0x1100000000000000#64 0xFF000000FFFFFF00#64 (by decide)
      BitVec.and_zero (setWidth32_and_high value) (by simpa [commandOf, dByte_encodeFields] using lt_of_indexFits h)
  | readvram addr =>
    exact decodeCommand_encodeFields 0x1200000000000000#64 0xFF000000FFFFFFFF#64 (by decide)
      BitVec.and_zero rfl (by simpa [commandOf] using lt_of_indexFits h)
  | writevram addr value =>
    exact decodeCommand_encodeFields 0x1300000000000000#64 0xFF000000FFFFFF00#64 (by decide)
      BitVec.and_zero (setWidth32_and_high value) (by simpa [commandOf, dByte_encodeFields] using lt_of_indexFits h)
  | xorvram addr value =>
    exact decodeCommand_encodeFields 0x1400000000000000#64 0xFF000000FFFFFF00#64 (by decide)
      BitVec.and_zero (setWidth32_and_high value) (by simpa [commandOf, dByte_encodeFields] using lt_of_indexFits h)
  | getvram =>
    exact decodeCommand_encodeFields 0x1500000000000000#64 0xFFFFFFFFFFFFFFFF#64 (by decide) rfl rfl rfl
  | loadrom data =>
    exact decodeCommand_encodeFields 0x1600000000000000#64 0xFFFFFFFF00000000#64 (by decide)
      rfl BitVec.and_zero (decodeRom_packWords (dField_toNat_encodeFields h _ _))
  | getdelay =>
    exact decodeCommand_encodeFields 0x2000000000000000#64 0xFFFFFFFFFFFFFFFF#64 (by decide) rfl rfl rfl
  | setdelay v =>
    exact decodeCommand_encodeFields 0x2100000000000000#64 0xFFFFFFFFFFFFFF00#64 (by decide)
      rfl (setWidth32_and_high v) (by simp [commandOf, dByte_encodeFields])
  | getsound =>
    exact decodeCommand_encodeFields 0x2200000000000000#64 0xFFFFFFFFFFFFFFFF#64 (by decide) rfl rfl rfl
  | setsound v =>
    exact decodeCommand_encodeFields 0x2300000000000000#64 0xFFFFFFFFFFFFFF00#64 (by decide)
      rfl (setWidth32_and_high v) (by simp [commandOf, dByte_encodeFields])
  | playsound =>
    exact decodeCommand_encodeFields 0x2400000000000000#64 0xFFFFFFFFFFFFFFFF#64 (by decide) rfl rfl rfl
  | advance delta =>
    exact decodeCommand_encodeFields 0x2500000000000000#64 0xFFFFFFFF00000000#64 (by decide)
      rfl BitVec.and_zero (by simp [commandOf])
  | step delta =>
    exact decodeCommand_encodeFields 0x3000000000000000#64 0xFFFFFFFF00000000#64 (by decide)
      rfl BitVec.and_zero (by simp [commandOf])

end Sys2Proof

namespace Sys2Proof.Machine

/-! ## Properties that every step keeps -/

/-- A property that every answered command, every error and every update of the processor keeps is kept by `exec`. -/
theorem exec_keeps {P : State → Prop} (hcmd : ∀ p w i s, P s → P (s.reply p (processorCommand w i s)))
    (herr : ∀ p e s, P s → P (s.raise p e)) (hq : ∀ q s, P s → P (s.setProcQ q)) (hhang : ∀ s, P s → P s.hang)
    {i : Instr} {s t : State} (hs : P s) (h : exec i s = .next t) : P t := by
  by_cases hi : ∃ delta, i = .step delta
  · obtain ⟨delta, rfl⟩ := hi
    exact execStep_keeps (hcmd .processor) herr hq hhang (fun d u => hcmd .host 0#64 (.advance d) u) hs h
  · rw [exec_eq_reply 0#64 (fun delta hd => hi ⟨delta, hd⟩)] at h
    injection h with h
    exact h ▸ hcmd .host 0#64 i s hs

/-- A property that `exec`'s operations and the taking of words off the host port keep is kept by every step. -/
theorem step_keeps {P : State → Prop} (hcmd : ∀ p w i s, P s → P (s.reply p (processorCommand w i s)))
    (herr : ∀ p e s, P s → P (s.raise p e)) (hq : ∀ q s, P s → P (s.setProcQ q)) (hhang : ∀ s, P s → P s.hang)
    (hin : ∀ ws s, P s → P (s.setHostIn ws)) {s t : State} (hs : P s) (h : step s = .next t) : P t := by
  rcases step_cases h with rfl | ⟨-, i, rest, -, hexec⟩ | ⟨-, w, rest, -, rfl⟩
  · exact hs
  · exact exec_keeps hcmd herr hq hhang (hin rest s hs) hexec
  · exact herr _ _ _ (hin rest s hs)

@[simp] theorem State.send_config (s : State) (p : Port) (ws : List Word) : (s.send p ws).config = s.config := by
  cases p <;> rfl

@[simp] theorem State.raise_config (s : State) (p : Port) (e : Error) : (s.raise p e).config = s.config := by
  cases p <;> rfl

/-- Answering a command that writes the bundle alone leaves the configuration. -/
theorem State.reply_config {s : State} {r : Result} (h : r.bundleOnly s) (p : Port) :
    (s.reply p r).config = s.config := by
  cases r with
  | error e => simp
  | ok v data s' =>
    obtain ⟨⟨hconfig, -⟩, -⟩ := h
    simpa using hconfig

/-- Settles O18: every operation a step is made of leaves the configuration. -/
theorem noStepChangesTheConfiguration : Obligations.NoStepChangesTheConfiguration := by
  unfold Obligations.NoStepChangesTheConfiguration
  intro s t h
  refine step_keeps (P := fun u => u.config = s.config) ?_ ?_ ?_ ?_ ?_ rfl h
  · exact fun p w i u hu => (State.reply_config (processorCommand_bundleOnly w i u) p).trans hu
  · exact fun p e u hu => (State.raise_config u p e).trans hu
  · exact fun _ _ hu => hu
  · exact fun _ hu => hu
  · exact fun _ _ hu => hu

/-! ## An issued command does what the host port's does (R81, R181) -/

/-- A command's encoding has the payload words its first word asks for (R76). -/
theorem encodePayload_length {i : Instr} (h : i.wellFormed = true) :
    (encodePayload i).length = payloadCount (encodeHeader i) := by
  cases i with
  | loadrom data => exact Laws.Framing.loadrom data h
  | _ => exact Laws.Framing.of_oneWord rfl (by simp [encodeHeader]) h

/-- A payload of the length asked for is issued as it is listed. -/
theorem issuedPayload_of_length {word : Word} {payload : List Word} (h : payload.length = payloadCount word) :
    issuedPayload word payload = payload := by
  refine List.ext_getElem (by simp [issuedPayload, h]) (fun n h1 h2 => ?_)
  simp [issuedPayload, h2]

/-- Issuing a well-formed command's words performs that command. -/
theorem performIssue_encode {i : Instr} (h : i.wellFormed = true) (s : State) :
    performIssue (encodeHeader i) (encodePayload i) s = processorCommand (encodeHeader i) i s := by
  rw [performIssue, issuedPayload_of_length (encodePayload_length h), decodeCommand_encode h]

/-- A command that succeeds on the host port succeeds when it is issued by the processor of a machine with the same bundle
and configuration: with the same response, and the same bundle and configuration after it. -/
theorem performIssue_of_exec {i : Instr} (hi : Instr.issuable i) {s s' u' : State} {response : List Word}
    (hb : s.bundle = s'.bundle) (hc : s.config = s'.config) (hexec : exec i s' = .next u')
    (hfaults : u'.faults = s'.faults) (hout : u'.hostOut = s'.hostOut ++ response) :
    ∃ v data u, performIssue (encodeHeader i) (encodePayload i) s = .ok v data u ∧
      response = responseWord 0x00#8 v :: data ∧ u.bundle = u'.bundle ∧ u.config = u'.config := by
  obtain ⟨hwf, hstep⟩ := hi
  have hagree := processorCommand_agree (encodeHeader i) i hb hc
  have honly := processorCommand_bundleOnly (encodeHeader i) i s
  rw [performIssue_encode hwf]
  rcases exec_cases hstep (encodeHeader i) s' with
    ⟨e, -, he⟩ | ⟨v, data, w', hcmd, ⟨hconfig, -⟩, -, hhost, he⟩ <;>
    obtain rfl : _ = u' := by simpa [he] using hexec
  · simp at hfaults
  · rw [hcmd] at hagree
    cases hr : processorCommand (encodeHeader i) i s with
    | error e => rw [hr] at hagree; exact hagree.elim
    | ok v₁ data₁ u =>
      rw [hr] at hagree honly
      obtain ⟨rfl, rfl, hbundle⟩ := hagree
      obtain ⟨⟨huconfig, -⟩, -⟩ := honly
      refine ⟨_, _, u, rfl, ?_, by simpa using hbundle, by simp [huconfig, hc, hconfig]⟩
      simpa [hhost] using hout.symm

/-! ## The states between a STEP's commands (R10, R30) -/

/-- Where an issued command succeeds, the state its answer leaves comes first, and the others follow from it. -/
theorem chainStates_issue_ok {word : Word} {payload : List Word} {next : ProcAction} {s u : State} {v : Half}
    {data : List Word} (h : performIssue word payload s = .ok v data u) (last : List Word) :
    chainStates (.issue word payload next) last s =
      u.send .processor (responseWord 0x00#8 v :: data) ::
        chainStates next (responseWord 0x00#8 v :: data) (u.send .processor (responseWord 0x00#8 v :: data)) := by
  rw [chainStates, h]; rfl

/-- The state after the n-th of the issued commands has the bundle that serving the first n on the host port leaves. -/
theorem chainStates_getElem_of_servedAs {p : Instr × List Word} {rest : ProcAction} {t : State} :
    ∀ (before : List (Instr × List Word)) (a : ProcAction) (last : List Word) (s s' : State),
      (∀ p' ∈ before ++ [p], Instr.issuable p'.1) → actionIssues (before ++ [p]) a last rest →
      servedAs (before ++ [p]) s' t → s.bundle = s'.bundle → s.config = s'.config →
        ∃ v, (chainStates a last s)[before.length]? = some v ∧ v.bundle = t.bundle
  | [], a, last, s, s', hissuable, ⟨next, haction, _⟩, ⟨u', hexec, hfaults, hout, ht⟩, hb, hc => by
    obtain ⟨v, data, u, hu, -, hbundle, -⟩ :=
      performIssue_of_exec (hissuable p (by simp)) hb hc hexec hfaults hout
    obtain rfl : t = u' := ht
    rw [chainStates_resolveTests, haction, chainStates_issue_ok hu]
    exact ⟨_, rfl, by simpa using hbundle⟩
  | (i, response) :: before, a, last, s, s', hissuable, ⟨next, haction, hnext⟩, ⟨u', hexec, hfaults, hout, hserved⟩,
      hb, hc => by
    obtain ⟨v, data, u, hu, rfl, hbundle, hconfig⟩ :=
      performIssue_of_exec (hissuable (i, response) (by simp)) hb hc hexec hfaults hout
    rw [chainStates_resolveTests, haction, chainStates_issue_ok hu]
    exact chainStates_getElem_of_servedAs before next _ _ u'
      (fun p' hp' => hissuable p' (List.mem_cons_of_mem _ hp')) hnext hserved
      (by simpa using hbundle) (by simpa using hconfig)

/-- A chain ends in the last of its states, or where it began if it issues no command. -/
theorem runChain_state_eq_last : ∀ (a : ProcAction) (last : List Word) (s : State),
    (runChain a last s).state = (chainStates a last s).getLast?.getD s
  | .issue word payload next, last, s => by
    rw [runChain, chainStates]
    cases performIssue word payload s with
    | ok v data s' =>
      simp only [List.getLast?_cons, Option.getD_some]
      exact runChain_state_eq_last next _ _
    | error e => rfl
  | .onResponse response yes no, last, s => by
    rw [runChain, chainStates]
    split_ifs
    · exact runChain_state_eq_last yes last s
    · exact runChain_state_eq_last no last s
  | .done _, _, _ => rfl
  | .fail _, _, _ => rfl
  | .hang, _, _ => rfl

/-- From where its chain ended a STEP goes on by ADVANCE, by answering an error, or by hanging (R180 to R182). -/
theorem finishStep_cases (delta : Half) (c : ChainEnd) :
    (∃ q, exec (.advance delta) { c.state with procQ := q } = .next (finishStep delta c)) ∨
    (∃ e, (finishStep delta c).bundle = c.state.bundle ∧ State.sameSurroundings c.state (finishStep delta c) ∧
      State.answeredError c.state (finishStep delta c) e) ∨
    finishStep delta c = { c.state with hung := true } := by
  cases c with
  | done q s => exact .inl ⟨q, rfl⟩
  | failed e s => exact .inr (.inl ⟨e, rfl, ⟨rfl, rfl, rfl, rfl, rfl, rfl⟩, rfl, rfl⟩)
  | hang s => exact .inr (.inr rfl)

/-- Settles O53: by induction over the issued commands, each of which does what the host port's does; and a chain ends in the
last of its states. -/
theorem outputsShowEachProcessorCommand : Obligations.OutputsShowEachProcessorCommand := by
  unfold Obligations.OutputsShowEachProcessorCommand
  constructor
  · intro s t before p rest hissuable hissues hserved
    obtain ⟨v, hv, hbundle⟩ :=
      chainStates_getElem_of_servedAs before s.procAction [] s s hissuable hissues hserved rfl rfl
    obtain ⟨-, hsound, -, hvram, -⟩ := (State.bundle_eq_iff v t).1 hbundle
    exact ⟨v, hv, hbundle, by rw [State.vramOut, hvram, State.vramOut],
      by rw [State.soundComplete, hsound, State.soundComplete]⟩
  · intro s delta
    refine ⟨_, _, rfl, exec_step delta s, ?_⟩
    rw [← runChain_state_eq_last]
    exact finishStep_cases delta _

end Sys2Proof.Machine
end

section
/-! Proofs for the family 10_state.md: who writes the timers, the invariant of R31, and that the delay timer's flag is never
observed. -/

namespace Sys2Proof.Machine

/-! ## What a result leaves, where it succeeds -/

/-- The state that a command leaves has a property, if the command succeeds. -/
def Result.leaves (P : State → Prop) : Result → Prop
  | .ok _ _ s => P s
  | .error _ => True

theorem withIndex_leaves {P : State → Prop} {sp : Space} {i : Nat} {r : Result} (h : i < sp.size → r.leaves P) :
    (withIndex sp i r).leaves P := by
  rcases withIndex_cases sp i r with ⟨hlt, hw⟩ | ⟨-, hw⟩ <;> rw [hw]
  · exact h hlt
  · exact trivial

/-- A property of the bundle and the configuration holds of the answered machine if it holds before and of what the command
leaves. -/
theorem State.reply_of_leaves {P : State → Prop}
    (hP : ∀ u v : State, v.bundle = u.bundle → v.config = u.config → P u → P v) {s : State} {r : Result} (hs : P s)
    (hr : r.leaves P) (p : Port) : P (s.reply p r) := by
  cases r with
  | ok v data u => exact hP u _ (by simp) (by simp) hr
  | error e => exact hP s _ (by simp) (by simp) hs

/-! ## The timer update under either mode (R100, R101) -/

/-- One timer's update under the configuration's tick mode: `none` is `AccumulatorOverflow`. -/
def Timer.update (c : Config) (t : Timer) (delta : Half) : Option Timer :=
  match c.tickMode with
  | .drain => some (Timer.updateDrain c.tickPeriod.toNat t delta)
  | .single => Timer.updateSingle c.tickPeriod.toNat t delta

theorem Timer.update_drain {c : Config} (h : c.tickMode = .drain) (t : Timer) (delta : Half) :
    Timer.update c t delta = some (Timer.updateDrain c.tickPeriod.toNat t delta) := by
  rw [Timer.update, h]

theorem Timer.update_single {c : Config} (h : c.tickMode = .single) (t : Timer) (delta : Half) :
    Timer.update c t delta = Timer.updateSingle c.tickPeriod.toNat t delta := by
  rw [Timer.update, h]

/-- ADVANCE updates both timers, if neither overflows (R115). -/
theorem cmdAdvance_of_some {delta : Half} {s : State} {d a : Timer} (hd : Timer.update s.config s.delay delta = some d)
    (ha : Timer.update s.config s.sound delta = some a) : cmdAdvance delta s = answerDone (s.setTimers d a) := by
  unfold cmdAdvance
  cases hm : s.config.tickMode with
  | drain =>
    rw [Timer.update_drain hm, Option.some_inj] at hd ha
    simp only [advanceDrain, hd, ha]
  | single =>
    rw [Timer.update_single hm] at hd ha
    simp only [advanceSingle, hd, ha]

/-- ADVANCE names the delay timer if it overflows, whatever the sound timer does (R208). -/
theorem cmdAdvance_of_delay_none {delta : Half} {s : State} (hd : Timer.update s.config s.delay delta = none) :
    cmdAdvance delta s = .error (.accumulatorOverflow .delay) := by
  unfold cmdAdvance
  cases hm : s.config.tickMode with
  | drain => simp [Timer.update_drain hm] at hd
  | single =>
    rw [Timer.update_single hm] at hd
    simp only [advanceSingle, hd]

/-- ADVANCE names the sound timer if it alone overflows (R206). -/
theorem cmdAdvance_of_sound_none {delta : Half} {s : State} {d : Timer}
    (hd : Timer.update s.config s.delay delta = some d) (ha : Timer.update s.config s.sound delta = none) :
    cmdAdvance delta s = .error (.accumulatorOverflow .sound) := by
  unfold cmdAdvance
  cases hm : s.config.tickMode with
  | drain => simp [Timer.update_drain hm] at ha
  | single =>
    rw [Timer.update_single hm] at hd ha
    simp only [advanceSingle, hd, ha]

/-- A property that both updated timers give the machine is left by ADVANCE. -/
theorem cmdAdvance_leaves {P : State → Prop} {delta : Half} {s : State}
    (h : ∀ d a, Timer.update s.config s.delay delta = some d → Timer.update s.config s.sound delta = some a →
      P (s.setTimers d a)) : (cmdAdvance delta s).leaves P := by
  cases hd : Timer.update s.config s.delay delta with
  | none => rw [cmdAdvance_of_delay_none hd]; exact trivial
  | some d =>
    cases ha : Timer.update s.config s.sound delta with
    | none => rw [cmdAdvance_of_sound_none hd ha]; exact trivial
    | some a => rw [cmdAdvance_of_some hd ha]; exact h d a hd ha

/-- The boundaries that one update under SINGLE crosses: at most one (R101). -/
def singleCrossings (p acc : Nat) : Nat := if acc ≥ p then 1 else 0

/-- What an update under SINGLE leaves, by the functions of R102's table: the accumulator and the count do not depend on the
flag. -/
theorem singleTick_eq (p acc cnt : Nat) (flag : Bool) : singleTick p acc cnt flag =
    (acc - singleCrossings p acc * p, countAfter (singleCrossings p acc) cnt,
      flagAfter (singleCrossings p acc) cnt flag) := by
  unfold singleTick singleCrossings
  split_ifs
  · rw [crossBoundary_eq, one_mul]
  · simp [countAfter, flagAfter]

/-- An update never raises the count (R22). -/
theorem Timer.update_count_le {c : Config} {t u : Timer} {delta : Half} (h : Timer.update c t delta = some u) :
    u.count.toNat ≤ t.count.toNat := by
  cases hm : c.tickMode with
  | drain =>
    rw [Timer.update_drain hm, Option.some_inj] at h
    rw [← h, Timer.updateDrain_count]
    exact countAfter_le ..
  | single =>
    rw [Timer.update_single hm, Timer.updateSingle, singleTick_eq] at h
    obtain ⟨-, hu⟩ := Option.ite_none_left_eq_some.1 h
    rw [← Option.some_inj.1 hu, BitVec.toNat_ofNat]
    exact (Nat.mod_le ..).trans (countAfter_le ..)

/-- An update leaves the accumulator below the period under DRAIN (R31). -/
theorem Timer.update_inPeriod {c : Config} (hc : c.wf = true) {t u : Timer} {delta : Half}
    (h : Timer.update c t delta = some u) : Timer.inPeriod c u := by
  intro hm
  obtain ⟨hperiod, -⟩ := (Config.wf_iff c).1 hc
  rw [Timer.update_drain hm, Option.some_inj] at h
  exact h ▸ Timer.updateDrain_lt hperiod (Config.period_lt c) t delta

/-! ## Who writes a timer (R22, R34) -/

/-- What a command other than STEP may do to a timer whose SET command is `set`: nothing, set its count, or update it. -/
def writesTimer (i : Instr) (set : Byte → Instr) (c : Config) (t u : Timer) : Prop :=
  u = t ∨ (∃ v, i = set v ∧ u = Timer.setCount t v) ∨ ∃ delta, i = .advance delta ∧ Timer.update c t delta = some u

/-- What every command may do to both timers. -/
theorem processorCommand_writesTimers (word : Word) (i : Instr) (s : State) :
    (processorCommand word i s).leaves (fun u => writesTimer i .setdelay s.config s.delay u.delay ∧
      writesTimer i .setsound s.config s.sound u.sound) := by
  have hwrote : ∀ sp j v, writesTimer i .setdelay s.config s.delay (s.writeByte sp j v).delay ∧
      writesTimer i .setsound s.config s.sound (s.writeByte sp j v).sound :=
    fun sp _ _ => by cases sp <;> exact ⟨.inl rfl, .inl rfl⟩
  cases i with
  | setkey code state =>
    refine withIndex_leaves fun _ => ?_
    cases keyStateLegal state
    · exact trivial
    · exact hwrote ..
  | readkey code => exact withIndex_leaves fun _ => ⟨.inl rfl, .inl rfl⟩
  | readram addr => exact withIndex_leaves fun _ => ⟨.inl rfl, .inl rfl⟩
  | writeram addr value => exact withIndex_leaves fun _ => hwrote ..
  | readvram addr => exact withIndex_leaves fun _ => ⟨.inl rfl, .inl rfl⟩
  | writevram addr value => exact withIndex_leaves fun _ => hwrote ..
  | xorvram addr value => exact withIndex_leaves fun _ => hwrote ..
  | getvram => exact ⟨.inl rfl, .inl rfl⟩
  | loadrom data =>
    simp only [processorCommand, cmdLoadrom]
    split_ifs
    · exact trivial
    · exact ⟨.inl rfl, .inl rfl⟩
  | getdelay => exact ⟨.inl rfl, .inl rfl⟩
  | setdelay v => exact ⟨.inr (.inl ⟨v, rfl, rfl⟩), .inl rfl⟩
  | getsound => exact ⟨.inl rfl, .inl rfl⟩
  | setsound v => exact ⟨.inl rfl, .inr (.inl ⟨v, rfl, rfl⟩)⟩
  | playsound => exact ⟨.inl rfl, .inl rfl⟩
  | advance delta =>
    exact cmdAdvance_leaves fun d a hd ha => ⟨.inr (.inr ⟨delta, rfl, hd⟩), .inr (.inr ⟨delta, rfl, ha⟩)⟩
  | step delta => exact trivial

/-- What every command but STEP may do to both timers on the host port. -/
theorem exec_writesTimers {i : Instr} (hi : ∀ delta, i ≠ .step delta) {s t : State} (h : exec i s = .next t) :
    writesTimer i .setdelay s.config s.delay t.delay ∧ writesTimer i .setsound s.config s.sound t.sound := by
  rw [exec_eq_reply 0#64 hi] at h
  rw [← Host.Outcome.next.inj h]
  refine State.reply_of_leaves (P := fun u => writesTimer i .setdelay s.config s.delay u.delay ∧
    writesTimer i .setsound s.config s.sound u.sound) ?_ ⟨.inl rfl, .inl rfl⟩ (processorCommand_writesTimers ..) .host
  intro u v hb _ hu
  obtain ⟨hdelay, hsound, -⟩ := (State.bundle_eq_iff v u).1 hb
  rwa [hdelay, hsound]

/-- A command that is not ADVANCE writes neither the flag nor the accumulator. -/
theorem writesTimer.flag_accumulated {i : Instr} {set : Byte → Instr} {c : Config} {t u : Timer}
    (h : writesTimer i set c t u) (hi : ∀ delta, i ≠ .advance delta) :
    u.justCompleted = t.justCompleted ∧ u.accumulated = t.accumulated := by
  rcases h with rfl | ⟨v, -, rfl⟩ | ⟨delta, hadvance, -⟩
  · exact ⟨rfl, rfl⟩
  · exact ⟨rfl, rfl⟩
  · exact absurd hadvance (hi delta)

/-- A command that is not the timer's SET does not raise the count. -/
theorem writesTimer.count_le {i : Instr} {set : Byte → Instr} {c : Config} {t u : Timer}
    (h : writesTimer i set c t u) (hi : ∀ v, i ≠ set v) : u.count.toNat ≤ t.count.toNat := by
  rcases h with rfl | ⟨v, hset, -⟩ | ⟨delta, -, hupdate⟩
  · exact le_rfl
  · exact absurd hset (hi v)
  · exact Timer.update_count_le hupdate

/-- Settles O48: a command but ADVANCE and STEP can only set a count. -/
theorem onlyTheTimerUpdateWritesFlags : Obligations.OnlyTheTimerUpdateWritesFlags := by
  unfold Obligations.OnlyTheTimerUpdateWritesFlags
  refine ⟨fun s t i hi h => ?_, fun _ => ⟨rfl, rfl⟩⟩
  obtain ⟨hdelay, hsound⟩ := exec_writesTimers (fun delta => (hi delta).2) h
  obtain ⟨hdflag, hdacc⟩ := hdelay.flag_accumulated fun delta => (hi delta).1
  obtain ⟨hsflag, hsacc⟩ := hsound.flag_accumulated fun delta => (hi delta).1
  exact ⟨hdflag, hsflag, hdacc, hsacc⟩

/-- Settles O49: of what a command may do to a timer, only its SET can raise the count. -/
theorem countsOnlyDecreaseExceptBySet : Obligations.CountsOnlyDecreaseExceptBySet := by
  unfold Obligations.CountsOnlyDecreaseExceptBySet
  intro s t i hi h
  obtain ⟨hdelay, hsound⟩ := exec_writesTimers hi h
  exact ⟨hdelay.count_le, hsound.count_le⟩

/-! ## The invariant (R31) -/

/-- The free configuration is a legal one (R231). -/
theorem Config.machine_wf : Config.machine.wf = true := by
  have := Config.periodLessOne.isLt
  refine (Config.wf_iff _).2 ⟨?_, ?_, rfl⟩
  · simp only [Config.machine, BitVec.toNat_ofNat]; omega
  · simp [Config.machine]

/-- The bundle created with a legal configuration satisfies the invariant. -/
theorem State.fresh_inv {c : Config} (hc : c.wf = true) : (State.fresh c).Inv := by
  have hzero : Timer.inPeriod c Timer.zeroed := fun _ => ((Config.wf_iff c).1 hc).1
  exact ⟨hc, rfl, rfl, rfl, rfl, rfl, rfl, fun _ => .inl rfl, hzero, hzero⟩

/-- Settles O59: a created bundle's configuration is legal, its memories are empty and its timers zeroed. -/
theorem invariantHoldsAtCreation : Obligations.InvariantHoldsAtCreation := by
  unfold Obligations.InvariantHoldsAtCreation
  refine ⟨State.fresh_inv Config.machine_wf, fun c s h => ?_⟩
  obtain ⟨hc, hs⟩ := Option.ite_none_right_eq_some.1 h
  exact Option.some_inj.1 hs ▸ State.fresh_inv hc

/-- The invariant speaks of the bundle and the configuration alone. -/
theorem State.Inv.of_bundle {u v : State} (hb : v.bundle = u.bundle) (hc : v.config = u.config) (hu : u.Inv) : v.Inv := by
  obtain ⟨hd, ha, hr, hv, hk⟩ := (State.bundle_eq_iff v u).1 hb
  obtain ⟨hwf, hramWf, hramIn, hvramWf, hvramIn, hkeysWf, hkeysIn, hbit, hdelay, hsound⟩ := hu
  simp only [State.readByte_keys] at hbit
  constructor <;> simp only [State.readByte_keys, hc, hd, ha, hr, hv, hk] <;> assumption

/-- A write in bounds keeps the invariant; into the key latch, a write of 0 or 1. -/
theorem State.Inv.writeByte {s : State} (h : s.Inv) {sp : Space} {i : Nat} (hi : i < sp.size) {v : Byte}
    (hv : sp = .keys → v = 0#8 ∨ v = 1#8) : (s.writeByte sp i v).Inv := by
  cases sp with
  | ram => exact { h with
      ram_wf := Memory.wf_write h.ram_wf i v
      ram_within := Memory.within_write v hi h.ram_within }
  | vram => exact { h with
      vram_wf := Memory.wf_write h.vram_wf i v
      vram_within := Memory.within_write v hi h.vram_within }
  | keys =>
    refine { h with
      keys_wf := Memory.wf_write h.keys_wf i v
      keys_within := Memory.within_write v hi h.keys_within
      keys_bit := fun j => ?_ }
    rw [State.readByte_keys, State.writeByte_keys_keys, Memory.read_write h.keys_wf]
    split_ifs
    · exact hv rfl
    · exact h.keys_bit j

/-- The load of a ROM that fits keeps the invariant. -/
theorem State.Inv.loadRom {s : State} (h : s.Inv) {data : List Byte} (hlen : romBase + data.length ≤ Space.size .ram) :
    (s.setMemory .ram (loadedRam data s.config.font s.ram)).Inv := by
  obtain ⟨-, hfont, -⟩ := (Config.wf_iff _).1 h.config_wf
  exact { h with
    ram_wf := loadedRam_wf h.ram_wf _ _
    ram_within := Memory.within_writeBytes (by rw [hfont]; decide) (Memory.within_writeBytes hlen h.ram_within) }

/-- Every command that succeeds leaves the invariant. -/
theorem processorCommand_leaves_inv (word : Word) (i : Instr) {s : State} (h : s.Inv) :
    (processorCommand word i s).leaves State.Inv := by
  cases i with
  | setkey code state =>
    refine withIndex_leaves fun hlt => ?_
    cases hstate : keyStateLegal state
    · exact trivial
    · exact h.writeByte hlt fun _ => (keyStateLegal_iff state).1 hstate
  | readkey code => exact withIndex_leaves fun _ => h
  | readram addr => exact withIndex_leaves fun _ => h
  | writeram addr value => exact withIndex_leaves fun hlt => h.writeByte hlt nofun
  | readvram addr => exact withIndex_leaves fun _ => h
  | writevram addr value => exact withIndex_leaves fun hlt => h.writeByte hlt nofun
  | xorvram addr value => exact withIndex_leaves fun hlt => h.writeByte hlt nofun
  | getvram => exact h
  | loadrom data =>
    simp only [processorCommand, cmdLoadrom]
    split_ifs with hlen
    · exact trivial
    · exact h.loadRom (Nat.not_lt.1 hlen)
  | getdelay => exact h
  | setdelay v => exact { h with }
  | getsound => exact h
  | setsound v => exact { h with }
  | playsound => exact h
  | advance delta =>
    exact cmdAdvance_leaves fun d a hd ha => { h with
      delay_inPeriod := Timer.update_inPeriod h.config_wf hd
      sound_inPeriod := Timer.update_inPeriod h.config_wf ha }
  | step delta => exact trivial

/-- Settles O60: a command that succeeds leaves the invariant, and nothing else that a step does writes the bundle or the
configuration. -/
theorem everyStepKeepsTheInvariant : Obligations.EveryStepKeepsTheInvariant := by
  unfold Obligations.EveryStepKeepsTheInvariant
  intro s t hs h
  refine step_keeps ?_ ?_ ?_ ?_ ?_ hs h
  · exact fun p w i u hu =>
      State.reply_of_leaves (fun _ _ => State.Inv.of_bundle) hu (processorCommand_leaves_inv w i hu) p
  · exact fun p e u hu => hu.of_bundle (by simp) (by simp)
  · exact fun q u hu => hu.of_bundle (State.setProcQ_bundle u q) rfl
  · exact fun u hu => hu.of_bundle (State.hang_bundle u) rfl
  · exact fun ws u hu => hu.of_bundle (State.setHostIn_bundle u ws) rfl

/-! ## The delay timer's flag is never observed (R36)

Each operation is run on two machines that differ in the flag alone: what they come to, with the flag hidden in it, is the
same. -/

/-- A timer with its completion flag out of sight. -/
def Timer.hideFlag (t : Timer) : Timer := { t with justCompleted := false }

/-- A result with the delay timer's flag hidden in the state it leaves. -/
def Result.hideDelayFlag : Result → Result
  | .ok v data s => .ok v data s.hideDelayFlag
  | .error e => .error e

/-- The end of a chain with the delay timer's flag hidden in the state it leaves. -/
def ChainEnd.hideDelayFlag : ChainEnd → ChainEnd
  | .done q s => .done q s.hideDelayFlag
  | .failed e s => .failed e s.hideDelayFlag
  | .hang s => .hang s.hideDelayFlag

theorem withIndex_hideDelayFlag (sp : Space) (i : Nat) (r : Result) :
    (withIndex sp i r).hideDelayFlag = withIndex sp i r.hideDelayFlag := apply_ite ..

theorem State.hideDelayFlag_readByte (s : State) (sp : Space) (i : Nat) :
    s.hideDelayFlag.readByte sp i = s.readByte sp i := by
  cases sp <;> rfl

theorem State.hideDelayFlag_writeByte (s : State) (sp : Space) (i : Nat) (v : Byte) :
    (s.hideDelayFlag.writeByte sp i v).hideDelayFlag = (s.writeByte sp i v).hideDelayFlag := by
  cases sp <;> rfl

theorem State.hideDelayFlag_send (s : State) (p : Port) (ws : List Word) :
    (s.send p ws).hideDelayFlag = s.hideDelayFlag.send p ws := by
  cases p <;> rfl

theorem State.hideDelayFlag_raise (s : State) (p : Port) (e : Error) :
    (s.raise p e).hideDelayFlag = s.hideDelayFlag.raise p e := by
  cases p <;> rfl

/-- The flag a timer had has no part in whether an update overflows, nor in the count and accumulator it leaves. -/
theorem Timer.update_hideFlag (c : Config) (t : Timer) (delta : Half) :
    (Timer.update c t.hideFlag delta).map Timer.hideFlag = (Timer.update c t delta).map Timer.hideFlag := by
  cases hm : c.tickMode with
  | drain => rw [Timer.update_drain hm, Timer.update_drain hm]; rfl
  | single =>
    rw [Timer.update_single hm, Timer.update_single hm, Timer.updateSingle, Timer.updateSingle, singleTick_eq,
      singleTick_eq, apply_ite (Option.map Timer.hideFlag), apply_ite (Option.map Timer.hideFlag)]
    rfl

theorem cmdAdvance_hideDelayFlag (delta : Half) (s : State) :
    (cmdAdvance delta s.hideDelayFlag).hideDelayFlag = (cmdAdvance delta s).hideDelayFlag := by
  have hd := Timer.update_hideFlag s.config s.delay delta
  cases hdelay : Timer.update s.config s.delay delta with
  | none =>
    rw [hdelay, Option.map_none, Option.map_eq_none_iff] at hd
    rw [cmdAdvance_of_delay_none hdelay, cmdAdvance_of_delay_none (s := s.hideDelayFlag) hd]
  | some d =>
    rw [hdelay, Option.map_some, Option.map_eq_some_iff] at hd
    obtain ⟨d', hd', hflag⟩ := hd
    cases hsound : Timer.update s.config s.sound delta with
    | none =>
      rw [cmdAdvance_of_sound_none hdelay hsound, cmdAdvance_of_sound_none (s := s.hideDelayFlag) hd' hsound]
    | some a =>
      rw [cmdAdvance_of_some hdelay hsound, cmdAdvance_of_some (s := s.hideDelayFlag) hd' hsound]
      exact congrArg (fun t => answerDone (s.setTimers t a)) hflag

/-- No command lets the delay timer's flag into its answer or into the rest of the state it leaves. -/
theorem processorCommand_hideDelayFlag (word : Word) (i : Instr) (s : State) :
    (processorCommand word i s.hideDelayFlag).hideDelayFlag = (processorCommand word i s).hideDelayFlag := by
  have hread : ∀ sp j, (readElement sp j s.hideDelayFlag).hideDelayFlag = (readElement sp j s).hideDelayFlag :=
    fun sp j => by
      rw [readElement, readElement, withIndex_hideDelayFlag, withIndex_hideDelayFlag, State.hideDelayFlag_readByte]; rfl
  have hdone : ∀ sp j v, (answerDone (s.hideDelayFlag.writeByte sp j v)).hideDelayFlag =
      (answerDone (s.writeByte sp j v)).hideDelayFlag :=
    fun sp j v => congrArg (Result.ok 0#32 []) (State.hideDelayFlag_writeByte s sp j v)
  have hwrite : ∀ sp j v, (writeElement sp j v s.hideDelayFlag).hideDelayFlag = (writeElement sp j v s).hideDelayFlag :=
    fun sp j v => by
      rw [writeElement, writeElement, withIndex_hideDelayFlag, withIndex_hideDelayFlag, hdone]
  cases i with
  | setkey code state =>
    simp only [processorCommand, cmdSetkey, withIndex_hideDelayFlag]
    cases keyStateLegal state
    · rfl
    · exact congrArg (withIndex .keys code.toNat) (hdone ..)
  | readkey code => exact hread ..
  | readram addr => exact hread ..
  | writeram addr value => exact hwrite ..
  | readvram addr => exact hread ..
  | writevram addr value => exact hwrite ..
  | xorvram addr value =>
    simp only [processorCommand, cmdXorvram, withIndex_hideDelayFlag, State.hideDelayFlag_readByte, hdone]
  | getvram => rfl
  | loadrom data =>
    simp only [processorCommand, cmdLoadrom]
    split_ifs
    · rfl
    · rfl
  | getdelay => rfl
  | setdelay v => rfl
  | getsound => rfl
  | setsound v => rfl
  | playsound => rfl
  | advance delta => exact cmdAdvance_hideDelayFlag delta s
  | step delta => rfl

section
variable {s s' : State} (h : s.hideDelayFlag = s'.hideDelayFlag)
include h

theorem processorCommand_congr_hideDelayFlag (word : Word) (i : Instr) :
    (processorCommand word i s).hideDelayFlag = (processorCommand word i s').hideDelayFlag := by
  rw [← processorCommand_hideDelayFlag, h, processorCommand_hideDelayFlag]

theorem performIssue_congr_hideDelayFlag (word : Word) (payload : List Word) :
    (performIssue word payload s).hideDelayFlag = (performIssue word payload s').hideDelayFlag := by
  unfold performIssue
  cases decodeCommand word (issuedPayload word payload) with
  | command i => exact processorCommand_congr_hideDelayFlag h word i
  | illegal why => rfl

theorem State.raise_congr_hideDelayFlag (p : Port) (e : Error) :
    (s.raise p e).hideDelayFlag = (s'.raise p e).hideDelayFlag := by
  rw [State.hideDelayFlag_raise, h, State.hideDelayFlag_raise]

/-- Results that agree but for the flag are answered alike, and leave machines that differ in it alone. -/
theorem State.reply_congr_hideDelayFlag {r r' : Result} (hr : r.hideDelayFlag = r'.hideDelayFlag) (p : Port) :
    (s.reply p r).hideDelayFlag = (s'.reply p r').hideDelayFlag := by
  cases r <;> cases r' <;> injection hr
  case ok.ok v data u _ _ u' hv hdata hu =>
    rw [State.reply_ok, State.reply_ok, State.hideDelayFlag_send, State.hideDelayFlag_send, hv, hdata, hu]
  case error.error e e' he =>
    rw [State.reply_error, State.reply_error, he, State.raise_congr_hideDelayFlag h]

end

/-- A chain ends in the same way, its tests being made on the same responses. -/
theorem runChain_congr_hideDelayFlag : ∀ (a : ProcAction) (last : List Word) {s s' : State},
    s.hideDelayFlag = s'.hideDelayFlag → (runChain a last s).hideDelayFlag = (runChain a last s').hideDelayFlag
  | .issue word payload next, last, s, s', h => by
    have hr := performIssue_congr_hideDelayFlag h word payload
    have hreply := State.reply_congr_hideDelayFlag h hr .processor
    rw [runChain, runChain]
    cases hs : performIssue word payload s <;> cases hs' : performIssue word payload s' <;> rw [hs, hs'] at hr hreply <;>
      injection hr
    case ok.ok v data u _ _ u' hv hdata _ =>
      subst hv hdata
      exact runChain_congr_hideDelayFlag next _ hreply
    case error.error e e' he =>
      exact congrArg₂ ChainEnd.failed he hreply
  | .onResponse response yes no, last, s, s', h => by
    rw [runChain, runChain]
    split_ifs
    · exact runChain_congr_hideDelayFlag yes last h
    · exact runChain_congr_hideDelayFlag no last h
  | .done q, _, _, _, h => congrArg (ChainEnd.done q) h
  | .fail reason, _, _, _, h => congrArg (ChainEnd.failed (.processorError reason)) h
  | .hang, _, _, _, h => congrArg ChainEnd.hang h

theorem finishStep_congr_hideDelayFlag (delta : Half) {c c' : ChainEnd} (hc : c.hideDelayFlag = c'.hideDelayFlag) :
    (finishStep delta c).hideDelayFlag = (finishStep delta c').hideDelayFlag := by
  cases c <;> cases c' <;> injection hc
  case done.done q u _ u' hq hu =>
    subst hq
    have hset : (u.setProcQ q).hideDelayFlag = (u'.setProcQ q).hideDelayFlag := congrArg (State.setProcQ · q) hu
    exact State.reply_congr_hideDelayFlag hset (processorCommand_congr_hideDelayFlag hset 0#64 (.advance delta)) .host
  case failed.failed e u _ u' he hu =>
    subst he
    exact State.raise_congr_hideDelayFlag hu .host e
  case hang.hang u u' hu => exact congrArg State.hang hu

/-- The processor's action depends on its own state alone (R180). -/
theorem State.procAction_hideDelayFlag (s : State) : s.hideDelayFlag.procAction = s.procAction := rfl

theorem exec_congr_hideDelayFlag {i : Instr} {s s' t t' : State} (h : s.hideDelayFlag = s'.hideDelayFlag)
    (ht : exec i s = .next t) (ht' : exec i s' = .next t') : t.hideDelayFlag = t'.hideDelayFlag := by
  by_cases hi : ∃ delta, i = .step delta
  · obtain ⟨delta, rfl⟩ := hi
    rw [exec_step] at ht ht'
    have haction : s.procAction = s'.procAction := by
      rw [← State.procAction_hideDelayFlag, h, State.procAction_hideDelayFlag]
    rw [← Host.Outcome.next.inj ht, ← Host.Outcome.next.inj ht', haction]
    exact finishStep_congr_hideDelayFlag delta (runChain_congr_hideDelayFlag s'.procAction [] h)
  · have hi : ∀ delta, i ≠ .step delta := fun delta hd => hi ⟨delta, hd⟩
    rw [exec_eq_reply 0#64 hi] at ht ht'
    rw [← Host.Outcome.next.inj ht, ← Host.Outcome.next.inj ht']
    exact State.reply_congr_hideDelayFlag h (processorCommand_congr_hideDelayFlag h 0#64 i) .host

/-- Two machines that differ in the flag alone take steps to machines that differ in it alone. -/
theorem step_congr_hideDelayFlag {s s' t t' : State} (h : s.hideDelayFlag = s'.hideDelayFlag) (ht : step s = .next t)
    (ht' : step s' = .next t') : t.hideDelayFlag = t'.hideDelayFlag := by
  have hhung : s.hung = s'.hung := by simpa using congrArg State.hung h
  have hin : s.hostIn = s'.hostIn := by simpa using congrArg State.hostIn h
  have htaken : ∀ ws, (s.setHostIn ws).hideDelayFlag = (s'.setHostIn ws).hideDelayFlag :=
    fun ws => congrArg (State.setHostIn · ws) h
  unfold step at ht ht'
  rw [hhung, hin] at ht
  cases hs : s'.hung with
  | true =>
    rw [hs, if_pos rfl] at ht ht'
    rwa [← Host.Outcome.next.inj ht, ← Host.Outcome.next.inj ht']
  | false =>
    rw [hs, if_neg Bool.false_ne_true] at ht ht'
    cases hf : fetch s'.hostIn with
    | waiting =>
      rw [hf] at ht ht'
      rwa [← Host.Outcome.next.inj ht, ← Host.Outcome.next.inj ht']
    | command i rest =>
      rw [hf] at ht ht'
      exact exec_congr_hideDelayFlag (htaken rest) ht ht'
    | illegal w rest =>
      rw [hf] at ht ht'
      rw [← Host.Outcome.next.inj ht, ← Host.Outcome.next.inj ht']
      exact State.raise_congr_hideDelayFlag (htaken rest) .host _

/-- Settles O50: with the flag hidden both machines take the same step, and the ports are in what is left to see. -/
theorem delayFlagIsNeverObserved : Obligations.DelayFlagIsNeverObserved := by
  unfold Obligations.DelayFlagIsNeverObserved
  intro s s' t t' h ht ht'
  have hstep := step_congr_hideDelayFlag h ht ht'
  exact ⟨hstep, by simpa using congrArg State.hostOut hstep, by simpa using congrArg State.procOut hstep⟩

end Sys2Proof.Machine
end

section
/-! Proofs for the family 20_memory.md: what a command stores and what it leaves, that reads repeat and writes are
idempotent, and that a read returns the last write. -/

namespace Sys2Proof.Machine

/-! ## Two writes to one place -/

/-- Of two writes to one address the last counts. -/
theorem Memory.write_write {m : Memory} (hm : Memory.wf m = true) (a : Nat) (v w : Byte) :
    Memory.write (Memory.write m a v) a w = Memory.write m a w := by
  have hv := Memory.wf_write hm a v
  refine Memory.ext (Memory.wf_write hv a w) (Memory.wf_write hm a w) fun b => ?_
  rw [Memory.read_write hv, Memory.read_write hm, Memory.read_write hm]
  split_ifs <;> rfl

/-- A second load of a ROM and the font stores nothing new (R157). -/
theorem loadedRam_loadedRam {m : Memory} (hm : Memory.wf m = true) (data : List Byte) {font : List Byte}
    (hf : font.length = fontSize) : loadedRam data font (loadedRam data font m) = loadedRam data font m := by
  have hload := loadedRam_wf hm data font
  refine Memory.ext (loadedRam_wf hload data font) hload fun a => ?_
  rw [loadedRam_read hf, loadedRam_read hf]
  split_ifs <;> rfl

/-! ## The bytes of the state under a write -/

/-- The bytes are part of the bundle. -/
theorem State.readByte_of_bundle {u v : State} (hb : v.bundle = u.bundle) (sp : Space) (b : Nat) :
    v.readByte sp b = u.readByte sp b := by
  obtain ⟨-, -, hram, hvram, hkeys⟩ := (State.bundle_eq_iff v u).1 hb
  cases sp
  · exact congrArg (Memory.read · b) hram
  · exact congrArg (Memory.read · b) hvram
  · exact congrArg (Memory.read · b) hkeys

theorem State.Inv.memory_wf {s : State} (h : s.Inv) (sp : Space) : Memory.wf (s.memory sp) = true := by
  cases sp
  · exact h.ram_wf
  · exact h.vram_wf
  · exact h.keys_wf

theorem State.memory_writeByte (s : State) (sp : Space) (a : Nat) (v : Byte) (sp' : Space) :
    (s.writeByte sp a v).memory sp' = if sp' = sp then Memory.write (s.memory sp) a v else s.memory sp' := by
  cases sp <;> cases sp' <;> rfl

/-- A read after a write, at every address of every space. -/
theorem State.readByte_writeByte {s : State} {sp : Space} (h : Memory.wf (s.memory sp) = true) (a : Nat) (v : Byte)
    (sp' : Space) (b : Nat) :
    (s.writeByte sp a v).readByte sp' b = if sp' = sp ∧ b = a then v else s.readByte sp' b := by
  rw [State.readByte, State.memory_writeByte]
  by_cases hsp : sp' = sp
  · subst hsp
    simp [Memory.read_write h, State.readByte]
  · simp [hsp, State.readByte]

/-- A write leaves every byte but its own. -/
theorem State.writeByte_sameBytes {s : State} {sp : Space} (h : Memory.wf (s.memory sp) = true) (a : Nat) (v : Byte)
    (sp' : Space) : State.sameBytes s (s.writeByte sp a v) sp' (fun b => sp' = sp ∧ b = a) :=
  fun _ hb => (State.readByte_writeByte h ..).trans (if_neg hb)

theorem State.writeByte_writeByte {s : State} {sp : Space} (h : Memory.wf (s.memory sp) = true) (a : Nat) (v w : Byte) :
    (s.writeByte sp a v).writeByte sp a w = s.writeByte sp a w := by
  have hmem := congrArg (s.setMemory sp) (Memory.write_write h a v w)
  cases sp <;> exact hmem

/-- A load leaves every byte but the font's 80 and the ROM's (R157). -/
theorem State.loadRom_sameBytes {s : State} (hf : s.config.font.length = fontSize) (data : List Byte) (sp : Space) :
    State.sameBytes s (s.setMemory .ram (loadedRam data s.config.font s.ram)) sp (Instr.stores (.loadrom data) sp) := by
  intro b hb
  cases sp with
  | ram =>
    simp only [Instr.stores, true_and, not_or] at hb
    obtain ⟨hfont, hrom⟩ := hb
    exact (loadedRam_read hf s.ram b).trans ((if_neg hfont).trans (if_neg hrom))
  | vram => rfl
  | keys => rfl

/-! ## What a command does where it succeeds -/

/-- What a command served by both ports does to the machine where it succeeds. STEP, which the processor port does not
serve (R81), has no effect here. -/
def Instr.effect : Instr → State → State → Prop
  | .setkey code state, s, u => u = s.writeByte .keys code.toNat state
  | .writeram addr value, s, u => u = s.writeByte .ram addr value
  | .writevram addr value, s, u => u = s.writeByte .vram addr value
  | .xorvram addr value, s, u => u = s.writeByte .vram addr (s.readByte .vram addr ^^^ value)
  | .loadrom data, s, u => u = s.setMemory .ram (loadedRam data s.config.font s.ram)
  | .setdelay v, s, u => u = s.setTimer .delay (Timer.setCount s.delay v)
  | .setsound v, s, u => u = s.setTimer .sound (Timer.setCount s.sound v)
  | .advance _, s, u => ∃ d a, u = s.setTimers d a
  | .readkey _, s, u | .readram _, s, u | .readvram _, s, u | .getvram, s, u => u = s
  | .getdelay, s, u | .getsound, s, u | .playsound, s, u => u = s
  | .step _, _, _ => False

/-- Every command that succeeds has its effect. -/
theorem processorCommand_leaves_effect (word : Word) (i : Instr) (s : State) :
    (processorCommand word i s).leaves (Instr.effect i s) := by
  cases i with
  | setkey code state =>
    refine withIndex_leaves fun _ => ?_
    cases keyStateLegal state
    · exact trivial
    · exact rfl
  | readkey code => exact withIndex_leaves fun _ => rfl
  | readram addr => exact withIndex_leaves fun _ => rfl
  | writeram addr value => exact withIndex_leaves fun _ => rfl
  | readvram addr => exact withIndex_leaves fun _ => rfl
  | writevram addr value => exact withIndex_leaves fun _ => rfl
  | xorvram addr value => exact withIndex_leaves fun _ => rfl
  | getvram => exact rfl
  | loadrom data =>
    simp only [processorCommand, cmdLoadrom]
    split_ifs
    · exact trivial
    · exact rfl
  | getdelay => exact rfl
  | setdelay v => exact rfl
  | getsound => exact rfl
  | setsound v => exact rfl
  | playsound => exact rfl
  | advance delta => exact cmdAdvance_leaves fun d a _ _ => ⟨d, a, rfl⟩
  | step delta => exact trivial

/-- How a command other than STEP ends on the host port: it leaves its surroundings, and the bundle as it was where it
fails, or as its effect leaves it where it succeeds. -/
theorem exec_effect {i : Instr} (hi : ∀ delta, i ≠ .step delta) {s t : State} (h : exec i s = .next t) :
    State.sameSurroundings s t ∧ ((t.bundle = s.bundle ∧ ∃ e, processorCommand 0#64 i s = .error e) ∨
      ∃ u, t.bundle = u.bundle ∧ u.config = s.config ∧ Instr.effect i s u) := by
  rcases exec_cases hi 0#64 s with ⟨e, herror, hexec⟩ | ⟨v, data, u, hok, hsame, -, -, hexec⟩
  all_goals
    rw [h] at hexec
    rw [Host.Outcome.next.inj hexec]
  · exact ⟨⟨rfl, rfl, rfl, rfl, rfl, rfl⟩, .inl ⟨State.raise_bundle .., e, herror⟩⟩
  · have heffect := processorCommand_leaves_effect 0#64 i s
    rw [hok] at heffect
    exact ⟨hsame, .inr ⟨u, State.send_bundle .., hsame.1, heffect⟩⟩

/-! ## The frame -/

/-- A command's effect stores only where the command says. -/
theorem Instr.effect_sameBytes {i : Instr} {s u : State} (hs : s.Inv) (h : Instr.effect i s u) (sp : Space) :
    State.sameBytes s u sp (Instr.stores i sp) := by
  cases i with
  | setkey code state => exact h ▸ State.writeByte_sameBytes (hs.memory_wf .keys) _ _ sp
  | writeram addr value => exact h ▸ State.writeByte_sameBytes (hs.memory_wf .ram) _ _ sp
  | writevram addr value => exact h ▸ State.writeByte_sameBytes (hs.memory_wf .vram) _ _ sp
  | xorvram addr value => exact h ▸ State.writeByte_sameBytes (hs.memory_wf .vram) _ _ sp
  | loadrom data =>
    obtain ⟨-, hfont, -⟩ := (Config.wf_iff _).1 hs.config_wf
    exact h ▸ State.loadRom_sameBytes hfont data sp
  | advance delta =>
    obtain ⟨d, a, rfl⟩ := h
    cases sp <;> exact fun _ _ => rfl
  | step delta => exact absurd h not_false
  | setdelay v => cases sp <;> exact h ▸ fun _ _ => rfl
  | setsound v => cases sp <;> exact h ▸ fun _ _ => rfl
  | readkey _ | readram _ | readvram _ | getvram | getdelay | getsound | playsound => exact h ▸ fun _ _ => rfl

/-- A timer that neither ADVANCE nor its own SET command writes is as before. -/
theorem writesTimer.eq_of_ne {i : Instr} {set : Byte → Instr} {c : Config} {t u : Timer} (h : writesTimer i set c t u)
    (hadvance : ∀ delta, i ≠ .advance delta) (hset : ∀ v, i ≠ set v) : u = t := by
  rcases h with rfl | ⟨v, hi, -⟩ | ⟨delta, hi, -⟩
  · rfl
  · exact absurd hi (hset v)
  · exact absurd hi (hadvance delta)

/-- Settles O19: a command that fails leaves the bundle, and one that succeeds leaves it as its effect does. -/
theorem commandsStoreOnlyWhereTheySay : Obligations.CommandsStoreOnlyWhereTheySay := by
  unfold Obligations.CommandsStoreOnlyWhereTheySay
  intro s t i hs hi h
  obtain ⟨hdelay, hsound⟩ := exec_writesTimers hi h
  obtain ⟨hsame, hend⟩ := exec_effect hi h
  refine ⟨fun sp b hb => ?_, hsame, hdelay.eq_of_ne, hsound.eq_of_ne⟩
  rcases hend with ⟨hbundle, -⟩ | ⟨u, hbundle, -, heffect⟩
  · exact State.readByte_of_bundle hbundle sp b
  · exact (State.readByte_of_bundle hbundle sp b).trans (Instr.effect_sameBytes hs heffect sp b hb)

/-! ## Reads repeat (R58) -/

/-- The words a result is answered with (R78, R79). -/
def Result.words : Result → List Word
  | .ok value data _ => responseWord 0x00#8 value :: data
  | .error e => [e.response]

theorem Result.agree.words_eq : ∀ {r r' : Result}, r.agree r' → r.words = r'.words
  | .ok .., .ok .., ⟨hvalue, hdata, _⟩ => by rw [Result.words, hvalue, hdata, Result.words]
  | .error _, .error _, h => congrArg (fun e => [Error.response e]) h

/-- A command's words are what its answer adds to the host's output. -/
theorem exec_hostOut {i : Instr} (hi : ∀ delta, i ≠ .step delta) {s t : State} (h : exec i s = .next t) :
    t.hostOut = s.hostOut ++ (processorCommand 0#64 i s).words := by
  rcases exec_cases hi 0#64 s with ⟨e, herror, hexec⟩ | ⟨v, data, u, hok, -, -, hout, hexec⟩
  all_goals
    rw [h] at hexec
    rw [Host.Outcome.next.inj hexec]
  · rw [herror]; rfl
  · rw [hok, ← hout]; rfl

/-- A command without effect leaves the bundle. -/
theorem exec_bundle_of_no_effect {i : Instr} (hi : ∀ delta, i ≠ .step delta)
    (hread : ∀ s u, Instr.effect i s u → u = s) {s t : State} (h : exec i s = .next t) : t.bundle = s.bundle := by
  rcases exec_effect hi h with ⟨-, ⟨hbundle, -⟩ | ⟨u, hbundle, -, heffect⟩⟩
  · exact hbundle
  · rw [hbundle, hread s u heffect]

/-! ## Writes are idempotent (R58) -/

/-- Every effect but XORVRAM's and ADVANCE's, had twice, is the effect had once. -/
theorem Instr.effect_idempotent {i : Instr} (hadvance : ∀ delta, i ≠ .advance delta)
    (hxor : ∀ a v, i ≠ .xorvram a v) {s u v : State} (hs : s.Inv) (hu : Instr.effect i s u) (hv : Instr.effect i u v) :
    v = u := by
  cases i with
  | xorvram addr value => exact absurd rfl (hxor addr value)
  | advance delta => exact absurd rfl (hadvance delta)
  | step delta => exact absurd hu not_false
  | setkey code state => rw [hv, hu, State.writeByte_writeByte (hs.memory_wf .keys)]
  | writeram addr value => rw [hv, hu, State.writeByte_writeByte (hs.memory_wf .ram)]
  | writevram addr value => rw [hv, hu, State.writeByte_writeByte (hs.memory_wf .vram)]
  | loadrom data =>
    obtain ⟨-, hfont, -⟩ := (Config.wf_iff _).1 hs.config_wf
    rw [hv, hu]
    exact congrArg (s.setMemory .ram) (loadedRam_loadedRam hs.ram_wf data hfont)
  | setdelay v => rw [hv, hu]; rfl
  | setsound v => rw [hv, hu]; rfl
  | readkey _ | readram _ | readvram _ | getvram | getdelay | getsound | playsound => exact hv

theorem Result.leaves.mono {P Q : State → Prop} (hPQ : ∀ u, P u → Q u) :
    ∀ {r : Result}, r.leaves P → r.leaves Q
  | .ok _ _ u, h => hPQ u h
  | .error _, _ => trivial

theorem Result.agree.leaves_bundle {b : Bundle} : ∀ {r r' : Result}, r.agree r' →
    r.leaves (fun u => u.bundle = b) → r'.leaves (fun u => u.bundle = b)
  | .ok .., .ok .., ⟨_, _, hbundle⟩, h => hbundle.symm.trans h
  | .error _, .error _, _, _ => trivial

/-- A command whose effect, had twice, is the effect had once leaves, served twice, the bundle it leaves served once:
after an error it fails again, and after a success its effect is there already. -/
theorem exec_exec_bundle {i : Instr} (hi : ∀ delta, i ≠ .step delta) {s t u : State}
    (hidem : ∀ v w, Instr.effect i s v → Instr.effect i v w → w = v) (ht : exec i s = .next t)
    (hu : exec i t = .next u) : u.bundle = t.bundle := by
  obtain ⟨w, hbundle, hconfig, hleaves⟩ : ∃ w : State, w.bundle = t.bundle ∧ w.config = t.config ∧
      (processorCommand 0#64 i w).leaves (fun v => v.bundle = w.bundle) := by
    obtain ⟨⟨hsame, -⟩, ⟨hbundle, e, herror⟩ | ⟨w, hbundle, hconfig, heffect⟩⟩ := exec_effect hi ht
    · exact ⟨s, hbundle.symm, hsame.symm, herror ▸ trivial⟩
    · exact ⟨w, hbundle.symm, hconfig.trans hsame.symm, (processorCommand_leaves_effect 0#64 i w).mono
        fun v hv => congrArg State.bundle (hidem w v heffect hv)⟩
  have hagain := (processorCommand_agree 0#64 i hbundle hconfig).leaves_bundle hleaves
  rw [exec_eq_reply 0#64 hi] at hu
  rw [← Host.Outcome.next.inj hu, ← hbundle]
  exact State.reply_of_leaves (P := fun v => v.bundle = w.bundle) (fun _ _ hb _ h => hb.trans h) hbundle.symm
    hagain .host

/-- Settles O20: a read has no effect and answers alike on equal bundles; a write's effect is idempotent. -/
theorem readsWriteNothingAndWritesAreIdempotent : Obligations.ReadsWriteNothingAndWritesAreIdempotent := by
  unfold Obligations.ReadsWriteNothingAndWritesAreIdempotent
  refine ⟨fun s i hi => ?_, fun s t u i hs hi hxor ht hu => ?_⟩
  · obtain ⟨hstep, hread⟩ : (∀ delta, i ≠ .step delta) ∧ ∀ s u, Instr.effect i s u → u = s := by
      rcases hi with ⟨a, rfl | rfl | rfl⟩ | rfl | rfl | rfl | rfl <;> exact ⟨nofun, fun _ _ h => h⟩
    have ht := exec_eq_reply 0#64 hstep s
    have hu := exec_eq_reply 0#64 hstep (s.reply .host (processorCommand 0#64 i s))
    obtain ⟨hsame, -⟩ := exec_effect hstep ht
    have hbundle := exec_bundle_of_no_effect hstep hread ht
    have hwords := (processorCommand_agree 0#64 i hbundle hsame.1).words_eq
    exact ⟨_, ht, hbundle, hsame, _, _, hu, exec_hostOut hstep ht, hwords ▸ exec_hostOut hstep hu⟩
  · exact exec_exec_bundle (fun delta => (hi delta).2)
      (fun _ _ => Instr.effect_idempotent (fun delta => (hi delta).1) hxor hs) ht hu

/-! ## A read returns the last write (R61) -/

theorem reply_writeElement_of_lt {sp : Space} {a : Nat} (ha : a < sp.size) (p : Port) (v : Byte) (s : State) :
    s.reply p (writeElement sp a v s) = (s.writeByte sp a v).send p [responseWord 0x00#8 0#32] := by
  rw [writeElement, withIndex_of_lt ha]; rfl

theorem reply_readElement_of_lt {sp : Space} {b : Nat} (hb : b < sp.size) (p : Port) (s : State) :
    s.reply p (readElement sp b s) = s.send p [responseWord 0x00#8 (zextByte (s.readByte sp b))] := by
  rw [readElement, withIndex_of_lt hb]; rfl

/-- In every space, an element read after an element written is the value written, at its address, and as before at
every other. -/
theorem readElement_after_writeElement {s : State} {sp : Space} (h : Memory.wf (s.memory sp) = true) {a b : Nat}
    (ha : a < sp.size) (hb : b < sp.size) (v : Byte) {t : State} (ht : t = s.reply .host (writeElement sp a v s)) :
    State.answeredOk t (t.reply .host (readElement sp b t)) (zextByte (if b = a then v else s.readByte sp b)) [] := by
  have hread : t.readByte sp b = if b = a then v else s.readByte sp b := by
    rw [ht, reply_writeElement_of_lt ha, State.readByte_of_bundle (State.send_bundle ..), State.readByte_writeByte h]
    simp
  rw [reply_readElement_of_lt hb, hread]
  exact ⟨rfl, rfl⟩

/-- Settles O27: RAM and VRAM are two spaces of `readElement_after_writeElement`. -/
theorem readAfterWriteReturnsTheLastWrite : Obligations.ReadAfterWriteReturnsTheLastWrite := by
  unfold Obligations.ReadAfterWriteReturnsTheLastWrite
  intro s a b v hs
  exact ⟨fun ha hb => ⟨_, _, rfl, rfl, readElement_after_writeElement (hs.memory_wf .ram) ha hb v rfl⟩,
    fun ha hb => ⟨_, _, rfl, rfl, readElement_after_writeElement (hs.memory_wf .vram) ha hb v rfl⟩⟩

end Sys2Proof.Machine
end

section
/-! Proofs for the family 30_encoding.md: that the decoder and the encoder are inverse to each other, the opcode map, the
framing of the host port's words, the answers of both ports, and the pseudo-instructions of the assembler. -/

namespace Sys2Proof

/-! ## Fetching a whole command (R76) -/

/-- A first word with its payload, whatever follows, is fetched as the command that the two decode to. -/
theorem fetch_append_of_command {w : Word} {payload : List Word} (h : payload.length = payloadCount w) {i : Instr}
    (hd : decodeCommand w payload = .command i) (rest : List Word) : fetch (w :: payload ++ rest) = .command i rest := by
  rw [List.cons_append, fetch_cons (by simp [h]), ← h, List.take_left, List.drop_left, hd]

/-- A first word whose payload makes it no command is taken off the port with that payload. -/
theorem fetch_append_of_illegal {w : Word} {payload : List Word} (h : payload.length = payloadCount w)
    {why : IllegalWord} (hd : decodeCommand w payload = .illegal why) (rest : List Word) :
    fetch (w :: payload ++ rest) = .illegal w rest := by
  rw [List.cons_append, fetch_cons (by simp [h]), ← h, List.take_left, List.drop_left, hd]

/-- A well-formed command's words, whatever follows, are fetched as the command. -/
theorem fetch_encode {i : Instr} (h : i.wellFormed = true) (rest : List Word) :
    fetch (encode i ++ rest) = .command i rest :=
  fetch_append_of_command (Machine.encodePayload_length h) (decodeCommand_encode h) rest

/-- A word that is illegal with every payload is taken off the port with the words it asks for. -/
theorem fetch_of_illegal {w : Word} {why : IllegalWord} (h : ∀ payload, decodeCommand w payload = .illegal why)
    {rest : List Word} (hlen : payloadCount w ≤ rest.length) :
    fetch (w :: rest) = .illegal w (rest.drop (payloadCount w)) := by
  rw [fetch_cons hlen, h]

/-! ## A ROM and its padding (R77) -/

/-- The padding of a LOADROM is zero, and its operand the bytes before it; or it is not, and the command is illegal. -/
theorem decodeRom_cases (w : Word) (payload : List Word) :
    ((∀ b ∈ (unpackWords payload).drop (dField w).toNat, b = 0#8) ∧
      decodeRom w payload = .command (.loadrom ((unpackWords payload).take (dField w).toNat))) ∨
    ((∃ b ∈ (unpackWords payload).drop (dField w).toNat, b ≠ 0#8) ∧ decodeRom w payload = .illegal .paddingSet) := by
  have hall : ((unpackWords payload).drop (dField w).toNat).all (· == 0#8) = true ↔
      ∀ b ∈ (unpackWords payload).drop (dField w).toNat, b = 0#8 := by simp only [List.all_eq_true, beq_iff_eq]
  by_cases hzero : ∀ b ∈ (unpackWords payload).drop (dField w).toNat, b = 0#8
  · exact .inl ⟨hzero, if_pos (hall.2 hzero)⟩
  · exact .inr ⟨by simpa using hzero, if_neg fun h => hzero (hall.1 h)⟩

/-- Words unpacked and packed come back. -/
theorem packWords_unpackWords : ∀ ws : List Word, packWords (unpackWords ws) = ws
  | [] => rfl
  | w :: ws => congrArg₂ List.cons (wordOfBytes_bytesOfWord w) (packWords_unpackWords ws)

/-- As many of a payload's bytes as it has can be taken. -/
theorem take_unpackWords_length {payload : List Word} {n : Nat} (hn : n ≤ 8 * payload.length) :
    ((unpackWords payload).take n).length = n := by
  rw [List.length_take, unpackWords_length, min_eq_left hn]

/-- Words whose bytes from the n-th on are zero are packed from their first n bytes, if no word is padding alone. -/
theorem packWords_take {payload : List Word} {n : Nat} (hlen : payload.length = (n + 7) / 8)
    (hzero : ∀ b ∈ (unpackWords payload).drop n, b = 0#8) : packWords ((unpackWords payload).take n) = payload := by
  have htake := take_unpackWords_length (show n ≤ 8 * payload.length by omega)
  have hdrop : (unpackWords payload).drop n = List.replicate (8 * payload.length - n) 0#8 :=
    List.eq_replicate_iff.2 ⟨by rw [List.length_drop, unpackWords_length], hzero⟩
  calc packWords ((unpackWords payload).take n)
      = packWords (unpackWords (packWords ((unpackWords payload).take n))) := (packWords_unpackWords _).symm
    _ = packWords ((unpackWords payload).take n ++ (unpackWords payload).drop n) := by
      rw [unpackWords_packWords, htake, hdrop, hlen]
    _ = payload := by rw [List.take_append_drop, packWords_unpackWords]

/-! ## The bytes of a payload (R77) -/

/-- Byte i of a payload: byte `i mod 8` of word `i div 8`, the first the most significant. -/
def payloadByte (payload : List Word) (i : Nat) : Byte :=
  (payload.getD (i / 8) 0#64).extractLsb' (56 - 8 * (i % 8)) 8

/-- The bytes from the n-th on are those of the payload's words. -/
theorem mem_drop_unpackWords (payload : List Word) (n : Nat) (b : Byte) :
    b ∈ (unpackWords payload).drop n ↔ ∃ i, n ≤ i ∧ i < 8 * payload.length ∧ payloadByte payload i = b := by
  have hbyte : ∀ i (h : i < (unpackWords payload).length), (unpackWords payload)[i] = payloadByte payload i :=
    fun i h => by
      rw [← List.getD_eq_getElem _ 0#8 h]
      exact unpackWords_getD payload i (by simpa using h)
  rw [List.mem_drop_iff_getElem]
  constructor
  · rintro ⟨j, hj, rfl⟩
    exact ⟨n + j, by omega, by rw [unpackWords_length] at hj; omega, (hbyte _ _).symm⟩
  · rintro ⟨i, hn, hi, rfl⟩
    obtain ⟨j, rfl⟩ := Nat.exists_eq_add_of_le hn
    exact ⟨j, by rw [unpackWords_length]; omega, hbyte _ _⟩

/-- The bytes before the n-th are those of the payload's words. -/
theorem take_unpackWords_getD {payload : List Word} {n i : Nat} (hi : i < n) (hn : n ≤ 8 * payload.length) :
    ((unpackWords payload).take n).getD i 0#8 = payloadByte payload i := by
  rw [List.getD_eq_getElem?_getD, List.getElem?_take_of_lt hi, ← List.getD_eq_getElem?_getD]
  exact unpackWords_getD payload i (by omega)

/-! ## The opcode map (R73 to R75) -/

/-- A word with a row's `op` that does not fit the row is illegal, whatever its payload (R73). -/
theorem decodeCommand_of_reservedBit {w : Word} {r : Row} (hr : r ∈ opcodeMap) (ho : opField w = r.op)
    (hmask : w &&& r.mask ≠ r.mtch) (payload : List Word) : decodeCommand w payload = .illegal .reservedBit := by
  have hnone : rowOf w = none := rowOf_none fun r' hr' hfit => by
    obtain rfl := opcodeMap_op_inj r' hr' r hr ((op_of_mask hr' hfit).symm.trans ho)
    exact hmask hfit
  rw [decodeCommand, hnone]
  exact if_pos (List.any_eq_true.2 ⟨r, hr, by simp [ho]⟩)

/-- A word with the `op` of no row is illegal, whatever its payload (R75). -/
theorem decodeCommand_of_reservedOp {w : Word} (h : ∀ r ∈ opcodeMap, r.op ≠ opField w) (payload : List Word) :
    decodeCommand w payload = .illegal .reservedOp := by
  have hnone : rowOf w = none := rowOf_none fun r hr hfit => h r hr (op_of_mask hr hfit).symm
  rw [decodeCommand, hnone]
  exact if_neg (by simpa using h)

/-- No row has an `op` that R75 lists as reserved. -/
theorem opcodeMap_op_not_reserved : ∀ r ∈ opcodeMap, ¬ (r.op.toNat = 0 ∨ (0x03 ≤ r.op.toNat ∧ r.op.toNat ≤ 0x0F) ∨
    (0x17 ≤ r.op.toNat ∧ r.op.toNat ≤ 0x1F) ∨ (0x26 ≤ r.op.toNat ∧ r.op.toNat ≤ 0x2F) ∨ 0x31 ≤ r.op.toNat) := by
  decide

/-- A row without payload words encodes its commands: a fitting word has its operands, and one with its `op` that does not
fit has a reserved bit set. -/
theorem encodedAs_of_mem {op : Byte} {mtch mask : Word} {operands : Word → Instr} (hr : ⟨op, mtch, mask⟩ ∈ opcodeMap)
    (h : ∀ w, commandOf ⟨op, mtch, mask⟩ w [] = .command (operands w)) : Machine.encodedAs op mtch mask operands :=
  fun w => ⟨fun hfit => (decodeCommand_of_mask hr hfit []).trans (h w),
    fun ho hmask => decodeCommand_of_reservedBit hr ho hmask []⟩

/-- LOADROM's row. -/
theorem loadromRow_mem : ⟨0x16#8, 0x1600000000000000#64, 0xFFFFFFFF00000000#64⟩ ∈ opcodeMap := by decide

/-- A LOADROM header decodes as a ROM (R74). -/
theorem decodeCommand_loadrom {w : Word} (h : w &&& 0xFFFFFFFF00000000#64 = 0x1600000000000000#64)
    (payload : List Word) : decodeCommand w payload = decodeRom w payload :=
  decodeCommand_of_mask loadromRow_mem h payload

/-! ## A decoded command's words -/

/-- A value whose bits above a u8 are clear is that u8, zero-extended. -/
theorem setWidth_setWidth_of_and_high {n : Nat} {mask x : BitVec n} (hmask : ∀ k < n, 8 ≤ k → mask.getLsbD k = true)
    (h : x &&& mask = 0#n) : (x.setWidth 8).setWidth n = x := by
  apply BitVec.eq_of_getLsbD_eq
  intro k hk
  by_cases hlow : k < 8
  · simp [hlow, hk]
  · have hclear : x.getLsbD k = false := by simpa [hmask k hk (by omega)] using congrArg (·.getLsbD k) h
    simp [hlow, hclear]

/-- A word's `a` where a row has a u8 there (R71). -/
theorem aByte_setWidth_of_and_high {w : Word} (h : aField w &&& 0xFFFF00#24 = 0#24) :
    (aByte w).setWidth 24 = aField w := by
  rw [aByte_eq]; exact setWidth_setWidth_of_and_high (by decide) h

/-- A word's `d` where a row has a u8 there (R71). -/
theorem dByte_setWidth_of_and_high {w : Word} (h : dField w &&& 0xFFFFFF00#32 = 0#32) :
    (dByte w).setWidth 32 = dField w := by
  rw [dByte_eq]; exact setWidth_setWidth_of_and_high (by decide) h

/-- The fields of a word that fits a row, under the row's mask. -/
theorem fields_of_mask {w : Word} {r : Row} (hr : r ∈ opcodeMap) (h : w &&& r.mask = r.mtch) :
    opField w = r.op ∧ aField w &&& aField r.mask = aField r.mtch ∧ dField w &&& dField r.mask = dField r.mtch :=
  ⟨op_of_mask hr h, by rw [← aField_and, h], by rw [← dField_and, h]⟩

/-- A word with these fields is their encoding. -/
theorem encodeFields_eq {w : Word} {op : Byte} {a : BitVec 24} {d : Half} (ho : opField w = op) (ha : a = aField w)
    (hd : d = dField w) : encodeFields op a d = w := by
  rw [← ho, ha, hd, encodeFields_fields]

/-- A field whose every bit is reserved is zero (R73). -/
theorem zero_eq_of_and_allOnes {n : Nat} {x : BitVec n} (h : x &&& BitVec.allOnes n = 0#n) : 0#n = x := by
  simpa using h.symm

/-- An index operand fits the 24 bits it was read from (R72). -/
theorem indexFits_aField (w : Word) : indexFits (aField w).toNat = true := decide_eq_true (aField w).isLt

theorem ofNat_aField (w : Word) : BitVec.ofNat 24 (aField w).toNat = aField w := BitVec.ofNat_toNat ..

/-- The ROM that a header and its payload decode to has the header's length, and is encoded as the two (R76, R77). -/
theorem encode_of_decodeRom {w : Word} {payload : List Word} {i : Instr} (ho : opField w = 0x16#8)
    (ha : 0#24 = aField w) (hlen : payload.length = payloadCount w) (hd : decodeRom w payload = .command i) :
    i.wellFormed = true ∧ encode i = w :: payload := by
  rw [payloadCount_of_eq ho] at hlen
  rcases decodeRom_cases w payload with ⟨hzero, h⟩ | ⟨-, h⟩ <;> rw [h] at hd
  · obtain rfl := Decoded.command.inj hd
    have htake := take_unpackWords_length (show (dField w).toNat ≤ 8 * payload.length by omega)
    refine ⟨decide_eq_true (by rw [htake]; exact (dField w).isLt), congrArg₂ List.cons ?_ (packWords_take hlen hzero)⟩
    exact encodeFields_eq ho ha (by rw [htake]; exact BitVec.ofNat_toNat ..)
  · exact absurd hd nofun

/-- A command without payload words is encoded as its word alone. -/
theorem encode_of_oneWord {w : Word} {payload : List Word} {i j : Instr} (hlen : payload.length = payloadCount w)
    (hd : Decoded.command j = .command i) (ho : opField w ≠ 0x16#8) (hwf : j.wellFormed = true)
    (hpayload : encodePayload j = []) (hw : encodeHeader j = w) : i.wellFormed = true ∧ encode i = w :: payload := by
  obtain rfl := Decoded.command.inj hd
  obtain rfl := List.length_eq_zero_iff.1 (hlen.trans (payloadCount_of_ne ho))
  exact ⟨hwf, congrArg₂ List.cons hw hpayload⟩

/-- A command that the row of a word gives is well-formed, and is encoded as the word and its payload: row by row, in the
table's order, each field of the word is what the operands put there. -/
theorem encode_of_commandOf {w : Word} {r : Row} (hr : r ∈ opcodeMap) (h : w &&& r.mask = r.mtch)
    {payload : List Word} {i : Instr} (hlen : payload.length = payloadCount w)
    (hd : commandOf r w payload = .command i) : i.wellFormed = true ∧ encode i = w :: payload := by
  obtain ⟨ho, ha, hdata⟩ := fields_of_mask hr h
  simp only [opcodeMap, List.cons_append, List.nil_append, List.mem_cons, List.not_mem_nil, or_false] at hr
  rcases hr with rfl | rfl | rfl | rfl | rfl | rfl | rfl | rfl | rfl | rfl | rfl | rfl | rfl | rfl | rfl | rfl
  · exact encode_of_oneWord hlen hd (by rw [ho]; decide) rfl rfl
      (encodeFields_eq ho (aByte_setWidth_of_and_high ha) (dByte_setWidth_of_and_high hdata))
  · exact encode_of_oneWord hlen hd (by rw [ho]; decide) (indexFits_aField w) rfl
      (encodeFields_eq ho (ofNat_aField w) (zero_eq_of_and_allOnes hdata))
  · exact encode_of_oneWord hlen hd (by rw [ho]; decide) (indexFits_aField w) rfl
      (encodeFields_eq ho (ofNat_aField w) (zero_eq_of_and_allOnes hdata))
  · exact encode_of_oneWord hlen hd (by rw [ho]; decide) (indexFits_aField w) rfl
      (encodeFields_eq ho (ofNat_aField w) (dByte_setWidth_of_and_high hdata))
  · exact encode_of_oneWord hlen hd (by rw [ho]; decide) (indexFits_aField w) rfl
      (encodeFields_eq ho (ofNat_aField w) (zero_eq_of_and_allOnes hdata))
  · exact encode_of_oneWord hlen hd (by rw [ho]; decide) (indexFits_aField w) rfl
      (encodeFields_eq ho (ofNat_aField w) (dByte_setWidth_of_and_high hdata))
  · exact encode_of_oneWord hlen hd (by rw [ho]; decide) (indexFits_aField w) rfl
      (encodeFields_eq ho (ofNat_aField w) (dByte_setWidth_of_and_high hdata))
  · exact encode_of_oneWord hlen hd (by rw [ho]; decide) rfl rfl
      (encodeFields_eq ho (zero_eq_of_and_allOnes ha) (zero_eq_of_and_allOnes hdata))
  · exact encode_of_decodeRom ho (zero_eq_of_and_allOnes ha) hlen hd
  · exact encode_of_oneWord hlen hd (by rw [ho]; decide) rfl rfl
      (encodeFields_eq ho (zero_eq_of_and_allOnes ha) (zero_eq_of_and_allOnes hdata))
  · exact encode_of_oneWord hlen hd (by rw [ho]; decide) rfl rfl
      (encodeFields_eq ho (zero_eq_of_and_allOnes ha) (dByte_setWidth_of_and_high hdata))
  · exact encode_of_oneWord hlen hd (by rw [ho]; decide) rfl rfl
      (encodeFields_eq ho (zero_eq_of_and_allOnes ha) (zero_eq_of_and_allOnes hdata))
  · exact encode_of_oneWord hlen hd (by rw [ho]; decide) rfl rfl
      (encodeFields_eq ho (zero_eq_of_and_allOnes ha) (dByte_setWidth_of_and_high hdata))
  · exact encode_of_oneWord hlen hd (by rw [ho]; decide) rfl rfl
      (encodeFields_eq ho (zero_eq_of_and_allOnes ha) (zero_eq_of_and_allOnes hdata))
  · exact encode_of_oneWord hlen hd (by rw [ho]; decide) rfl rfl
      (encodeFields_eq ho (zero_eq_of_and_allOnes ha) rfl)
  · exact encode_of_oneWord hlen hd (by rw [ho]; decide) rfl rfl
      (encodeFields_eq ho (zero_eq_of_and_allOnes ha) rfl)

/-- A word that decodes to a command fits the row that gives it. -/
theorem decodeCommand_command {w : Word} {payload : List Word} {i : Instr} (h : decodeCommand w payload = .command i) :
    ∃ r ∈ opcodeMap, w &&& r.mask = r.mtch ∧ commandOf r w payload = .command i := by
  rw [decodeCommand] at h
  cases hrow : rowOf w with
  | some r =>
    obtain ⟨hr, hmask⟩ := rowOf_some hrow
    exact ⟨r, hr, hmask, by rwa [hrow] at h⟩
  | none =>
    rw [hrow] at h
    split_ifs at h

end Sys2Proof

namespace Sys2Proof.Machine

/-! ## The decoder and the encoder (R71 to R77) -/

/-- Settles O1: the payload has the length its header asks for, and header and payload decode to the command. -/
theorem decodeOfEncodeIsTheCommand : Obligations.DecodeOfEncodeIsTheCommand := by
  unfold Obligations.DecodeOfEncodeIsTheCommand
  exact fun _ rest h => fetch_encode h rest

/-- Settles O2: row by row, the operands hold every bit of the word that is not reserved, and a ROM every byte of its payload
that is not padding. -/
theorem encodeOfDecodeIsTheWords : Obligations.EncodeOfDecodeIsTheWords := by
  unfold Obligations.EncodeOfDecodeIsTheWords
  intro w payload i hlen h
  obtain ⟨r, hr, hmask, hd⟩ := decodeCommand_command h
  exact encode_of_commandOf hr hmask hlen hd

/-- Settles O3: a word that fits a row has the row's `op`, which differs in every row; and the operands row by row. -/
theorem wordDecodesToTheRowOfItsMaskAndMatch : Obligations.WordDecodesToTheRowOfItsMaskAndMatch := by
  unfold Obligations.WordDecodesToTheRowOfItsMaskAndMatch
  refine ⟨fun w r hr => ⟨fun h => (rowOf_some h).2, rowOf_of_mask hr⟩,
    fun w r hr r' hr' h h' => opcodeMap_op_inj r hr r' hr' ((op_of_mask hr h).symm.trans (op_of_mask hr' h')), ?_⟩
  repeat' refine And.intro (encodedAs_of_mem (by decide) fun _ => rfl) ?_
  intro w payload h
  rw [decodeCommand_loadrom h]
  rcases decodeRom_cases w payload with ⟨-, hd⟩ | ⟨-, hd⟩
  · exact .inr ⟨_, hd, rfl⟩
  · exact .inl hd

/-! ## How the host port's words are served (R76, R80) -/

theorem step_of_command {s : State} (hh : s.hung = false) {i : Instr} {rest : List Word}
    (h : fetch s.hostIn = .command i rest) : step s = exec i (s.setHostIn rest) := by
  simp [step, hh, h]

theorem step_of_illegal {s : State} (hh : s.hung = false) {w : Word} {rest : List Word}
    (h : fetch s.hostIn = .illegal w rest) :
    step s = .next ((s.setHostIn rest).raise .host (.illegalCommand w)) := by
  simp [step, hh, h]

theorem step_of_waiting {s : State} (h : fetch s.hostIn = .waiting) : step s = .next s := by
  simp [step, h]

/-- An illegal word is answered with `IllegalCommand`, taken off the port with its payload, and writes no bundle state
(R204). -/
theorem step_answers_illegal {s : State} (hh : s.hung = false) {w : Word} {rest : List Word}
    (h : fetch s.hostIn = .illegal w rest) :
    ∃ t, step s = .next t ∧ t.bundle = s.bundle ∧ State.answeredError s t (.illegalCommand w) ∧ t.hostIn = rest :=
  ⟨_, step_of_illegal hh h, State.raise_bundle .., ⟨rfl, rfl⟩, rfl⟩

/-- A word that is illegal with every payload is illegal on the processor port. -/
theorem performIssue_of_illegal {w : Word} {why : IllegalWord} (h : ∀ payload, decodeCommand w payload = .illegal why)
    (payload : List Word) (s : State) : performIssue w payload s = .error (.illegalCommand w) := by
  rw [performIssue, h]

/-- Settles O9: what a step fetches from a well-formed command's words is the command. -/
theorem stepRunsTheDecodedCommand : Obligations.StepRunsTheDecodedCommand := by
  unfold Obligations.StepRunsTheDecodedCommand
  intro s i rest hh hwf hin
  exact step_of_command hh (hin ▸ fetch_encode hwf rest)

/-- Settles O11: a first word without the payload it asks for is no command yet. -/
theorem incompleteCommandWaits : Obligations.IncompleteCommandWaits := by
  unfold Obligations.IncompleteCommandWaits
  intro s w rest hin hop hlen
  exact step_of_waiting (hin ▸ fetch_waiting (hlen.trans_eq (payloadCount_of_eq hop).symm))

/-- The status of `IllegalCommand` is 3 (R201). -/
theorem Error.response_illegalCommand (w : Word) : (Error.illegalCommand w).response = 0x0300000000000000#64 := by
  show responseWord 0x03#8 0#32 = 0x0300000000000000#64
  decide

/-- Settles O4: a set reserved bit makes the word illegal with every payload. -/
theorem reservedBitIsAnsweredIllegalCommand : Obligations.ReservedBitIsAnsweredIllegalCommand := by
  unfold Obligations.ReservedBitIsAnsweredIllegalCommand
  intro w r hr ho hmask
  have hd := decodeCommand_of_reservedBit hr ho hmask
  refine ⟨hd, performIssue_of_illegal hd, fun s rest hh hin hlen => ?_⟩
  obtain ⟨t, hstep, hbundle, herror, -⟩ := step_answers_illegal hh (hin ▸ fetch_of_illegal hd hlen)
  exact ⟨t, hstep, hbundle, herror, Error.response_illegalCommand w⟩

/-- Settles O5: a reserved `op` is that of no row, so it makes the word illegal and asks for no payload. -/
theorem reservedOpIsAnsweredIllegalCommand : Obligations.ReservedOpIsAnsweredIllegalCommand := by
  unfold Obligations.ReservedOpIsAnsweredIllegalCommand
  refine ⟨fun w hreserved => ?_, fun w payload => ?_⟩
  · have hop : ∀ r ∈ opcodeMap, r.op ≠ opField w := fun r hr heq =>
      opcodeMap_op_not_reserved r hr (heq ▸ hreserved)
    have hd := decodeCommand_of_reservedOp hop
    have hcount : payloadCount w = 0 := payloadCount_of_ne (hop _ loadromRow_mem).symm
    refine ⟨hd, performIssue_of_illegal hd, fun s rest hh hin => step_answers_illegal hh ?_⟩
    simpa [hin, hcount] using fetch_of_illegal hd (rest := rest) (by omega)
  · cases decodeCommand w payload with
    | command i => exact .inl ⟨i, rfl⟩
    | illegal why => exact .inr ⟨why, rfl⟩

@[simp] theorem State.send_hostIn (s : State) (p : Port) (ws : List Word) : (s.send p ws).hostIn = s.hostIn := by
  cases p <;> rfl

@[simp] theorem State.raise_hostIn (s : State) (p : Port) (e : Error) : (s.raise p e).hostIn = s.hostIn := by
  cases p <;> rfl

/-- Answering a command that writes the bundle alone takes no word off the host port. -/
theorem State.reply_hostIn {s : State} {r : Result} (h : r.bundleOnly s) (p : Port) :
    (s.reply p r).hostIn = s.hostIn := by
  cases r with
  | error e => simp
  | ok v data s' =>
    obtain ⟨⟨-, hin, -⟩, -⟩ := h
    simpa using hin

/-- No command takes a word off the host port: it is given its own words already (R76). -/
theorem exec_hostIn {i : Instr} {s t : State} (h : exec i s = .next t) : t.hostIn = s.hostIn := by
  refine exec_keeps (P := fun u => u.hostIn = s.hostIn) ?_ ?_ ?_ ?_ rfl h
  · exact fun p w j u hu => (State.reply_hostIn (processorCommand_bundleOnly w j u) p).trans hu
  · exact fun p e u hu => (State.raise_hostIn u p e).trans hu
  · exact fun _ _ hu => hu
  · exact fun _ hu => hu

/-- Every command has a next state (R200, R210). -/
theorem exec_next (i : Instr) (s : State) : ∃ t, exec i s = .next t := by
  cases i <;> exact ⟨_, rfl⟩

/-- Settles O6: what is fetched leaves the words after the payload, and serving it takes no more. -/
theorem framingDependsOnTheFirstWordOnly : Obligations.FramingDependsOnTheFirstWordOnly := by
  unfold Obligations.FramingDependsOnTheFirstWordOnly
  rintro s w rest n hh hin (rfl : n = payloadCount w) hlen
  have hfetch := fetch_cons hlen
  rw [← hin] at hfetch
  cases hd : decodeCommand w (rest.take (payloadCount w)) with
  | command i =>
    rw [hd] at hfetch
    obtain ⟨t, ht⟩ := exec_next i (s.setHostIn (rest.drop (payloadCount w)))
    exact ⟨t, (step_of_command hh hfetch).trans ht, exec_hostIn ht⟩
  | illegal why =>
    rw [hd] at hfetch
    obtain ⟨t, ht, -, -, hrest⟩ := step_answers_illegal hh hfetch
    exact ⟨t, ht, hrest⟩

/-- Settles O7: the bytes that LOADROM's operand is cut from are those of the payload's words, and its padding those after
the operand. -/
theorem romBytesArePackedFirstByteHigh : Obligations.RomBytesArePackedFirstByteHigh := by
  unfold Obligations.RomBytesArePackedFirstByteHigh
  intro w payload rest hmask hlen byteAt
  have hop : opField w = 0x16#8 := op_of_mask loadromRow_mem hmask
  have hcount : payload.length = payloadCount w := hlen.trans (payloadCount_of_eq hop).symm
  have hd := decodeCommand_loadrom hmask payload
  have hpadding := mem_drop_unpackWords payload (dField w).toNat
  have hfits : (dField w).toNat ≤ 8 * payload.length := by
    have : payload.length = ((dField w).toNat + 7) / 8 := hlen
    omega
  rcases decodeRom_cases w payload with ⟨hzero, hrom⟩ | ⟨⟨b, hb, hne⟩, hrom⟩
  · have hlength := take_unpackWords_length hfits
    refine ⟨fun _ => ⟨_, fetch_append_of_command hcount (hd.trans hrom) rest, hlength, fun i hi => ?_⟩, ?_⟩
    · exact take_unpackWords_getD (hlength ▸ hi) hfits
    · rintro ⟨i, hn, hi, hne⟩
      exact absurd (hzero _ ((hpadding _).2 ⟨i, hn, hi, rfl⟩)) hne
  · have hfetch := fetch_append_of_illegal hcount (hd.trans hrom) rest
    refine ⟨fun hzero => ?_, fun _ => ⟨hfetch, fun s hh hin => ?_⟩⟩
    · obtain ⟨i, hn, hi, rfl⟩ := (hpadding b).1 hb
      exact absurd (hzero i hn hi) hne
    · obtain ⟨t, hstep, hbundle, herror, -⟩ := step_answers_illegal hh (hin ▸ hfetch)
      exact ⟨t, hstep, hbundle, herror⟩

/-! ## Response words (R78, R79) -/

/-- A response word is the encoding of its fields. -/
theorem responseWord_eq (status : Byte) (value : Half) : responseWord status value = encodeFields status 0#24 value := rfl

/-- The status of a result's response. -/
def Result.status : Result → Byte
  | .ok _ _ _ => 0x00#8
  | .error e => e.code

/-- The value of a result's response. -/
def Result.value : Result → Half
  | .ok value _ _ => value
  | .error _ => 0#32

/-- The data words after a result's response. -/
def Result.data : Result → List Word
  | .ok _ data _ => data
  | .error _ => []

theorem Result.words_eq (r : Result) : r.words = responseWord r.status r.value :: r.data := by
  cases r <;> rfl

theorem Result.status_le (r : Result) : r.status.toNat ≤ 6 := by
  cases r with
  | ok value data s => exact Nat.zero_le 6
  | error e => exact e.code_bounds.2

theorem Result.value_of_status_ne {r : Result} (h : r.status ≠ 0#8) : r.value = 0#32 := by
  cases r with
  | ok value data s => exact absurd rfl h
  | error e => rfl

theorem withIndex_data {sp : Space} {i : Nat} {r : Result} (h : r.data = []) : (withIndex sp i r).data = [] := by
  rcases withIndex_cases sp i r with ⟨-, hw⟩ | ⟨-, hw⟩ <;> rw [hw]
  · exact h
  · rfl

/-- ADVANCE answers with no data words. -/
theorem cmdAdvance_data (delta : Half) (s : State) : (cmdAdvance delta s).data = [] := by
  cases hd : Timer.update s.config s.delay delta with
  | none => rw [cmdAdvance_of_delay_none hd]; rfl
  | some d =>
    cases ha : Timer.update s.config s.sound delta with
    | none => rw [cmdAdvance_of_sound_none hd ha]; rfl
    | some a => rw [cmdAdvance_of_some hd ha]; rfl

/-- GETVRAM alone answers with data words (R79). -/
theorem processorCommand_data (word : Word) {i : Instr} (hi : i ≠ .getvram) (s : State) :
    (processorCommand word i s).data = [] := by
  cases i with
  | getvram => exact absurd rfl hi
  | setkey code state =>
    refine withIndex_data ?_
    cases keyStateLegal state
    · rfl
    · rfl
  | loadrom data =>
    simp only [processorCommand, cmdLoadrom]
    split_ifs
    · rfl
    · rfl
  | advance delta => exact cmdAdvance_data delta s
  | readkey _ | readram _ | writeram _ _ | readvram _ | writevram _ _ | xorvram _ _ => exact withIndex_data rfl
  | getdelay | setdelay _ | getsound | setsound _ | playsound | step _ => rfl

/-- A result of a command that writes the bundle alone adds its words to the host's output. -/
theorem State.reply_host_hostOut {s : State} {r : Result} (h : r.bundleOnly s) :
    (s.reply .host r).hostOut = s.hostOut ++ r.words := by
  cases r with
  | ok v data s' =>
    obtain ⟨-, -, hout⟩ := h
    simp [Result.words, hout]
  | error e => rfl

/-- A result of a command that writes the bundle alone, answered to the processor, adds nothing to the host's output. -/
theorem State.reply_processor_hostOut {s : State} {r : Result} (h : r.bundleOnly s) :
    (s.reply .processor r).hostOut = s.hostOut := by
  cases r with
  | ok v data s' =>
    obtain ⟨-, -, hout⟩ := h
    simp [hout]
  | error e => rfl

/-- The commands of a chain add nothing to the host's output. -/
theorem runChain_hostOut (a : ProcAction) (last : List Word) (s : State) :
    (runChain a last s).state.hostOut = s.hostOut :=
  runChain_keeps (P := fun u => u.hostOut = s.hostOut)
    (fun w i u hu => (State.reply_processor_hostOut (processorCommand_bundleOnly w i u)).trans hu)
    (fun _ _ hu => hu) a last s rfl

/-- A STEP that does not hang adds the words of one result to the host's output, with no data. -/
theorem finishStep_hostOut {delta : Half} {c : ChainEnd} (h : (finishStep delta c).hung = false) :
    ∃ r : Result, (finishStep delta c).hostOut = c.state.hostOut ++ r.words ∧ r.data = [] := by
  cases c with
  | done q u => exact ⟨_, State.reply_host_hostOut (cmdAdvance_bundleOnly delta (u.setProcQ q)), cmdAdvance_data ..⟩
  | failed e u => exact ⟨.error e, rfl, rfl⟩
  | hang u => exact absurd h (by simp [finishStep])

/-- A command that does not hang adds the words of one result to the host's output, with data if it is GETVRAM only. -/
theorem exec_hostOut_words {i : Instr} {s t : State} (h : exec i s = .next t) (hh : t.hung = false) :
    ∃ r : Result, t.hostOut = s.hostOut ++ r.words ∧ (i ≠ .getvram → r.data = []) := by
  by_cases hi : ∃ delta, i = .step delta
  · obtain ⟨delta, rfl⟩ := hi
    obtain rfl := Host.Outcome.next.inj ((exec_step delta s).symm.trans h)
    obtain ⟨r, hout, hdata⟩ := finishStep_hostOut hh
    exact ⟨r, by rw [hout, runChain_hostOut], fun _ => hdata⟩
  · exact ⟨_, exec_hostOut (fun delta hd => hi ⟨delta, hd⟩) h, fun hi => processorCommand_data 0#64 hi s⟩

/-- Settles O12: the words added are those of one result. -/
theorem everyCommandReturnsOneResponseWord : Obligations.EveryCommandReturnsOneResponseWord := by
  unfold Obligations.EveryCommandReturnsOneResponseWord
  intro s t i h hh
  obtain ⟨r, hout, hdata⟩ := exec_hostOut_words h hh
  rw [Result.words_eq] at hout
  refine ⟨r.status, r.value, r.data, hout, r.status_le, Result.value_of_status_ne, hdata, ?_⟩
  rw [responseWord_eq]
  exact ⟨opField_encodeFields .., aField_encodeFields .., dField_encodeFields ..⟩

/-! ## The processor port (R81) -/

/-- A nested STEP asks for no payload, whatever is listed with it. -/
theorem performIssue_step (inner : Half) (payload : List Word) (s : State) :
    performIssue (encodeHeader (.step inner)) payload s = .error (.illegalCommand (encodeHeader (.step inner))) := by
  have hcount : payloadCount (encodeHeader (.step inner)) = 0 := payloadCount_of_ne (by simp [encodeHeader])
  have hnone : issuedPayload (encodeHeader (.step inner)) payload = [] := by simp [issuedPayload, hcount]
  rw [performIssue, hnone, show ([] : List Word) = encodePayload (.step inner) from rfl, decodeCommand_encode rfl]
  rfl

theorem runChain_issue_error {word : Word} {payload : List Word} {next : ProcAction} {s : State} {e : Error}
    (h : performIssue word payload s = .error e) (last : List Word) :
    runChain (.issue word payload next) last s = .failed e (s.raise .processor e) := by
  rw [runChain, h]; rfl

/-- Settles O56: a nested STEP fails the outer one, and every other command is served by both ports alike. -/
theorem processorPortAdmitsEverythingButStep : Obligations.ProcessorPortAdmitsEverythingButStep := by
  unfold Obligations.ProcessorPortAdmitsEverythingButStep
  refine ⟨fun s inner payload => performIssue_step inner payload s, fun s delta inner payload next haction => ?_,
    fun s t i hi h => ?_⟩
  · refine ⟨_, exec_step delta s, ?_⟩
    rw [haction, runChain_issue_error (performIssue_step inner payload s), ← Error.response_illegalCommand]
    exact ⟨rfl, rfl, rfl, rfl⟩
  · obtain ⟨hwf, hstep⟩ := hi
    rw [exec_eq_reply (encodeHeader i) hstep] at h
    rw [performIssue_encode hwf, Host.Outcome.next.inj h]

/-! ## Pixels (R53, R84, R85) -/

theorem execAll_cons {i : Instr} {s t : State} (h : exec i s = .next t) (is : List Instr) :
    execAll (i :: is) s = execAll is t := by
  rw [execAll, h]

/-- XORVRAM of a byte in bounds XORs its bits onto the eight pixels of the byte. -/
theorem exec_xorvram_pixels {s : State} (h : Memory.wf s.vram = true) {a : Nat} (ha : a < 256) (v : Byte) :
    ∃ t, exec (.xorvram a v) s = .next t ∧ t.faults = s.faults ∧ Memory.wf t.vram = true ∧ ∀ x y,
      t.pixel x y = (s.pixel x y ^^ (decide (pixelByte x y = a) && v.getLsbD (pixelBit x))) := by
  refine ⟨(s.writeByte .vram a (s.readByte .vram a ^^^ v)).send .host [responseWord 0x00#8 0#32], ?_, rfl,
    Memory.wf_write h _ _, fun x y => ?_⟩
  · rw [exec_eq_reply 0#64 (by simp), processorCommand, cmdXorvram, withIndex_of_lt ha]; rfl
  · rw [State.pixel, State.readByte_of_bundle (State.send_bundle ..), State.readByte_writeByte (sp := .vram) h, State.pixel]
    by_cases hb : pixelByte x y = a
    · simp [hb]
    · simp [hb]

/-- The byte of a pixel of the screen is a byte of VRAM (R53). -/
theorem pixelByte_lt {x y : Nat} (hx : x < 64) (hy : y < 32) : pixelByte x y < 256 := by
  rw [pixelByte]; omega

/-- Pixels of the screen share a byte if they are in one row and in one group of eight columns (R53). -/
theorem pixelByte_eq_iff {x y x' y' : Nat} (hx : x < 64) (hx' : x' < 64) :
    pixelByte x' y' = pixelByte x y ↔ y' = y ∧ x' / 8 = x / 8 := by
  rw [pixelByte, pixelByte]; omega

/-- The one bit of TOGGLE's operand is the pixel's (R84). -/
theorem toggle_bit (x x' : Nat) : (0x80#8 >>> (x % 8)).getLsbD (pixelBit x') = decide (x' % 8 = x % 8) := by
  have hbit : ∀ j < 8, ∀ k < 8, (0x80#8 >>> k).getLsbD (7 - j) = decide (j = k) := by decide
  exact hbit _ (Nat.mod_lt _ (by omega)) _ (Nat.mod_lt _ (by omega))

/-- Settles O30: the operand's one bit is that of the pixel, in the pixel's byte. -/
theorem toggleFlipsOnePixel : Obligations.ToggleFlipsOnePixel := by
  unfold Obligations.ToggleFlipsOnePixel
  refine fun x y => ⟨fun hxy => ⟨if_pos hxy, fun s h => ?_⟩, fun hxy => if_neg (by omega)⟩
  obtain ⟨hx, hy⟩ := hxy
  obtain ⟨t, hexec, hfaults, -, hpixel⟩ := exec_xorvram_pixels h (pixelByte_lt hx hy) (0x80#8 >>> (x % 8))
  refine ⟨t, execAll_cons hexec [], hfaults, fun x' y' hx' hy' => ?_⟩
  have hsame : (decide (pixelByte x' y' = pixelByte x y) && decide (x' % 8 = x % 8)) = decide (x' = x ∧ y' = y) := by
    rw [← Bool.decide_and, decide_eq_decide, pixelByte_eq_iff hx hx']; omega
  rw [hpixel, toggle_bit, hsame]
  split_ifs with hp
  · simp [hp]
  · simp [hp]

/-- Does the sprite row `b`, put at column x of row y, have a set bit at pixel (x', y')? Its first bit is bit 7 (R85). -/
def spriteBit (x y : Nat) (b : Byte) (x' y' : Nat) : Bool :=
  decide (y' = y ∧ x ≤ x' ∧ x' < x + 8) && b.getLsbD (7 - (x' - x))

theorem spriteBit_iff (x y : Nat) (b : Byte) (x' y' : Nat) : spriteBit x y b x' y' = true ↔
    (y' = y ∧ x ≤ x' ∧ x' < x + 8) ∧ b.getLsbD (7 - (x' - x)) = true := by
  rw [spriteBit, Bool.and_eq_true, decide_eq_true_iff]

/-- What SPRITEROW XORs onto the byte of its first pixel is the part of the sprite row there. -/
theorem spriteBit_first {x y x' y' : Nat} (hx : x < 64) (hx' : x' < 64) (b : Byte) :
    (decide (pixelByte x' y' = pixelByte x y) && (b >>> (x % 8)).getLsbD (pixelBit x')) =
      (decide (x' / 8 = x / 8) && spriteBit x y b x' y') := by
  rw [Bool.eq_iff_iff, Bool.and_eq_true, Bool.and_eq_true, decide_eq_true_iff, decide_eq_true_iff, spriteBit_iff,
    pixelByte_eq_iff hx hx', BitVec.getLsbD_ushiftRight, pixelBit]
  constructor
  · rintro ⟨⟨hy, hcolumn⟩, hbit⟩
    have := BitVec.lt_of_getLsbD hbit
    exact ⟨hcolumn, ⟨hy, by omega, by omega⟩, by rwa [show 7 - (x' - x) = x % 8 + (7 - x' % 8) by omega]⟩
  · rintro ⟨hcolumn, ⟨hy, hle, -⟩, hbit⟩
    exact ⟨⟨hy, hcolumn⟩, by rwa [show x % 8 + (7 - x' % 8) = 7 - (x' - x) by omega]⟩

/-- What SPRITEROW XORs onto the next byte of the row is the part of the sprite row there. -/
theorem spriteBit_second {x y x' y' : Nat} (hx : x / 8 < 7) (hx' : x' < 64) (b : Byte) :
    (decide (pixelByte x' y' = pixelByte x y + 1) && (b <<< (8 - x % 8)).getLsbD (pixelBit x')) =
      (decide (x' / 8 = x / 8 + 1) && spriteBit x y b x' y') := by
  have hnext : pixelByte x' y' = pixelByte x y + 1 ↔ y' = y ∧ x' / 8 = x / 8 + 1 := by
    rw [pixelByte, pixelByte]; omega
  rw [Bool.eq_iff_iff, Bool.and_eq_true, Bool.and_eq_true, decide_eq_true_iff, decide_eq_true_iff, spriteBit_iff,
    hnext, BitVec.getLsbD_shiftLeft, pixelBit]
  simp only [Bool.and_eq_true, Bool.not_eq_true', decide_eq_true_iff, decide_eq_false_iff_not]
  constructor
  · rintro ⟨⟨hy, hcolumn⟩, ⟨-, hge⟩, hbit⟩
    exact ⟨hcolumn, ⟨hy, by omega, by omega⟩, by rwa [show 7 - (x' - x) = 7 - x' % 8 - (8 - x % 8) by omega]⟩
  · rintro ⟨hcolumn, ⟨hy, -, hlt⟩, hbit⟩
    exact ⟨⟨hy, hcolumn⟩, ⟨by omega, by omega⟩, by rwa [show 7 - x' % 8 - (8 - x % 8) = 7 - (x' - x) by omega]⟩

/-- A sprite row lies in its first byte alone, if it begins a byte or that byte is the last of the row. -/
theorem spriteBit_of_one {x x' : Nat} (hone : x % 8 = 0 ∨ 7 ≤ x / 8) (hx' : x' < 64) (y y' : Nat) (b : Byte) :
    (decide (x' / 8 = x / 8) && spriteBit x y b x' y') = spriteBit x y b x' y' := by
  rw [Bool.and_eq_right_iff_imp, spriteBit_iff, decide_eq_true_iff]
  omega

/-- A sprite row lies in two bytes. -/
theorem spriteBit_of_two (x y x' y' : Nat) (b : Byte) :
    ((decide (x' / 8 = x / 8) && spriteBit x y b x' y') ^^ (decide (x' / 8 = x / 8 + 1) && spriteBit x y b x' y')) =
      spriteBit x y b x' y' := by
  cases h : spriteBit x y b x' y' with
  | false => simp
  | true =>
    obtain ⟨⟨-, hle, hlt⟩, -⟩ := (spriteBit_iff ..).1 h
    by_cases hcolumn : x' / 8 = x / 8
    · simp [hcolumn]
    · simp [show x' / 8 = x / 8 + 1 by omega]

section
variable {x y : Nat} (hx : x < 64) (hy : y < 32)
include hx hy

theorem expandSpriterow_one (hone : x % 8 = 0 ∨ 7 ≤ x / 8) (b : Byte) :
    expandSpriterow x y b = some [.xorvram (pixelByte x y) (b >>> (x % 8))] := by
  rw [expandSpriterow, if_pos ⟨hx, hy⟩]
  split_ifs with h0 h7
  · rw [h0, BitVec.ushiftRight_zero]
  · omega
  · rfl

theorem expandSpriterow_two (h0 : 0 < x % 8) (h7 : x / 8 < 7) (b : Byte) : expandSpriterow x y b =
    some [.xorvram (pixelByte x y) (b >>> (x % 8)), .xorvram (pixelByte x y + 1) (b <<< (8 - x % 8))] := by
  rw [expandSpriterow, if_pos ⟨hx, hy⟩, if_neg (by omega), if_pos h7]

/-- SPRITEROW succeeds and XORs the sprite row onto the screen. -/
theorem execAll_spriterow (b : Byte) {s : State} (h : Memory.wf s.vram = true) :
    ∃ is t, expandSpriterow x y b = some is ∧ execAll is s = some t ∧ t.faults = s.faults ∧
      ∀ x' y', x' < 64 → t.pixel x' y' = (s.pixel x' y' ^^ spriteBit x y b x' y') := by
  have hbyte := pixelByte_lt hx hy
  obtain ⟨t, ht, htfaults, hwf, htpixel⟩ := exec_xorvram_pixels h hbyte (b >>> (x % 8))
  by_cases hone : x % 8 = 0 ∨ 7 ≤ x / 8
  · refine ⟨_, t, expandSpriterow_one hx hy hone b, execAll_cons ht [], htfaults, fun x' y' hx' => ?_⟩
    rw [htpixel, spriteBit_first hx hx', spriteBit_of_one hone hx']
  · obtain ⟨h0, h7⟩ : 0 < x % 8 ∧ x / 8 < 7 := by omega
    have hnext : pixelByte x y + 1 < 256 := by rw [pixelByte]; omega
    obtain ⟨u, hu, hufaults, -, hupixel⟩ := exec_xorvram_pixels hwf hnext (b <<< (8 - x % 8))
    refine ⟨_, u, expandSpriterow_two hx hy h0 h7 b, (execAll_cons ht _).trans (execAll_cons hu []),
      hufaults.trans htfaults, fun x' y' hx' => ?_⟩
    rw [hupixel, htpixel, spriteBit_first hx hx', spriteBit_second h7 hx', Bool.xor_assoc, spriteBit_of_two]

end

/-- Settles O31: the sprite row is cut at the end of a byte, and what lies beyond column 63 is in no byte. -/
theorem spriterowXorsEightPixelsClipped : Obligations.SpriterowXorsEightPixelsClipped := by
  unfold Obligations.SpriterowXorsEightPixelsClipped
  refine fun x y b => ⟨fun ⟨hx, hy⟩ => ⟨fun h0 => ?_, fun h0 h7 => expandSpriterow_two hx hy h0 h7 b,
    fun _ h7 => expandSpriterow_one hx hy (.inr h7) b, fun s h => ?_⟩, fun hxy => if_neg (by omega)⟩
  · have hexpand := expandSpriterow_one hx hy (.inl h0) b
    rwa [h0, BitVec.ushiftRight_zero] at hexpand
  · obtain ⟨is, t, hexpand, hexec, hfaults, hpixel⟩ := execAll_spriterow hx hy b h
    exact ⟨is, t, hexpand, hexec, hfaults, fun x' y' hx' _ => hpixel x' y' hx'⟩

/-! ## CLS (R83) -/

/-- WRITEVRAM of 0 at each of these addresses, all in bounds, clears those bytes and leaves the rest of the bundle. -/
theorem execAll_clear : ∀ (as : List Nat), (∀ a ∈ as, a < 256) → ∀ s : State, Memory.wf s.vram = true →
    ∃ t, execAll (as.map fun a => .writevram a 0#8) s = some t ∧ t.faults = s.faults ∧
      (∀ a, t.readByte .vram a = if a ∈ as then 0#8 else s.readByte .vram a) ∧
      t.ram = s.ram ∧ t.keys = s.keys ∧ State.sameTimers s t
  | [], _, s, _ => ⟨s, rfl, rfl, fun _ => rfl, rfl, rfl, rfl, rfl⟩
  | a :: as, hlt, s, h => by
    have hexec : exec (.writevram a 0#8) s =
        .next ((s.writeByte .vram a 0#8).send .host [responseWord 0x00#8 0#32]) :=
      congrArg Host.Outcome.next (reply_writeElement_of_lt (sp := .vram) (hlt a (by simp)) .host 0#8 s)
    obtain ⟨t, ht, hfaults, hread, hram, hkeys, htimers⟩ :=
      execAll_clear as (fun b hb => hlt b (List.mem_cons_of_mem a hb))
        ((s.writeByte .vram a 0#8).send .host [responseWord 0x00#8 0#32]) (Memory.wf_write h a 0#8)
    refine ⟨t, (execAll_cons hexec _).trans ht, hfaults, fun b => ?_, hram, hkeys, htimers⟩
    rw [hread, State.readByte_of_bundle (State.send_bundle ..), State.readByte_writeByte (sp := .vram) h]
    by_cases hb : b = a
    · simp [hb]
    · simp [hb]

/-- Settles O32: by induction over the addresses written, each byte of the screen is cleared. -/
theorem clsClearsTheScreen : Obligations.ClsClearsTheScreen := by
  unfold Obligations.ClsClearsTheScreen
  refine ⟨by rw [expandCls, List.length_map, List.length_range], fun i hi => by simp [expandCls, hi], fun s h => ?_⟩
  obtain ⟨t, ht, hfaults, hread, hram, hkeys, htimers⟩ := execAll_clear (List.range 256) (by simp) s h
  have hclear : ∀ a < 256, t.readByte .vram a = 0#8 := fun a ha => by rw [hread, if_pos (List.mem_range.2 ha)]
  refine ⟨t, ht, hfaults, hclear, fun x y hx hy => ?_, hram, hkeys, htimers⟩
  rw [State.pixel, hclear _ (pixelByte_lt hx hy), BitVec.getLsbD_zero]

/-! ## Examples -/

/-- Settles O8: each word is decoded by the row of its `op`. -/
theorem sampleWordsDecode : Obligations.SampleWordsDecode := by
  unfold Obligations.SampleWordsDecode
  decide

/-- Settles O33: the lines are read, their numbers checked against their fields, and their commands encoded. -/
theorem assemblerExamples : Obligations.AssemblerExamples := by
  unfold Obligations.AssemblerExamples
  exact ⟨by decide, by decide, by decide, by decide⟩

end Sys2Proof.Machine
end

section
/-! Proofs for the family 40_timer.md: the closed form of R100's loop and of R101's update, what ADVANCE does under either
mode, when a countdown completes, and the timers' access commands. -/

namespace Sys2Proof.Machine

/-! ## The flag after k crossings, line by line (R102) -/

@[simp] theorem flagAfter_zero (c : Nat) (f : Bool) : flagAfter 0 c f = f := rfl

@[simp] theorem countAfter_zero (c : Nat) : countAfter 0 c = c := by simp [countAfter]

@[simp] theorem countAfter_self (c : Nat) : countAfter c c = 0 := by simp [countAfter]

theorem flagAfter_of_lt {k c : Nat} (h : k < c) (f : Bool) : flagAfter k c f = f := by
  rw [flagAfter, if_neg (show c ≠ 0 by omega), if_pos h, ite_self]

theorem flagAfter_self {c : Nat} (h : 1 ≤ c) (f : Bool) : flagAfter c c f = true := by
  have hc : c ≠ 0 := by omega
  simp [flagAfter, hc]

theorem flagAfter_of_gt {k c : Nat} (h : c < k) (f : Bool) : flagAfter k c f = false := by
  rw [flagAfter, if_neg (show k ≠ 0 by omega), if_neg (show ¬ k < c by omega), if_neg (show k ≠ c by omega), ite_self]

/-! ## A timer after k crossings -/

/-- The timer after `k` boundaries are crossed, with `acc` left in the accumulator (R102). -/
def Timer.crossed (t : Timer) (k acc : Nat) : Timer :=
  { count := BitVec.ofNat 8 (countAfter k t.count.toNat)
    accumulated := BitVec.ofNat 32 acc
    justCompleted := flagAfter k t.count.toNat t.justCompleted }

theorem Timer.crossed_count (t : Timer) (k acc : Nat) :
    (t.crossed k acc).count.toNat = countAfter k t.count.toNat := by
  have hle := countAfter_le k t.count.toNat
  have := t.count_le
  simp only [Timer.crossed, BitVec.toNat_ofNat]
  omega

theorem Timer.crossed_accumulated (t : Timer) (k : Nat) {acc : Nat} (h : acc < 2 ^ 32) :
    (t.crossed k acc).accumulated.toNat = acc := by
  rw [Timer.crossed, BitVec.toNat_ofNat, Nat.mod_eq_of_lt h]

theorem Timer.crossed_justCompleted (t : Timer) (k acc : Nat) :
    (t.crossed k acc).justCompleted = flagAfter k t.count.toNat t.justCompleted := rfl

theorem Timer.crossed_zero (t : Timer) : t.crossed 0 t.accumulated.toNat = t := by
  simp [Timer.crossed]

/-- Crossings add up, and the accumulator is the last one left. -/
theorem Timer.crossed_crossed (t : Timer) (j k acc acc' : Nat) :
    (t.crossed j acc).crossed k acc' = t.crossed (j + k) acc' := by
  refine Timer.ext' ?_ rfl ?_
  · rw [Timer.crossed_count, Timer.crossed_count, Timer.crossed_count, countAfter_add]
  · rw [Timer.crossed_justCompleted, Timer.crossed_count, Timer.crossed_justCompleted, flagAfter_add,
      Timer.crossed_justCompleted]

/-- R102's table for the count and the flag. -/
theorem Timer.crossed_table (t : Timer) (k acc : Nat) :
    (t.crossed k acc).count.toNat = t.count.toNat - min k t.count.toNat ∧
    (k = 0 → (t.crossed k acc).justCompleted = t.justCompleted) ∧
    (k ≥ 1 → t.count.toNat = 0 → (t.crossed k acc).justCompleted = false) ∧
    (1 ≤ k → k < t.count.toNat → (t.crossed k acc).justCompleted = t.justCompleted) ∧
    (k = t.count.toNat → t.count.toNat ≥ 1 → (t.crossed k acc).justCompleted = true) ∧
    (k > t.count.toNat → t.count.toNat ≥ 1 → (t.crossed k acc).justCompleted = false) := by
  rw [Timer.crossed_justCompleted]
  exact ⟨t.crossed_count k acc, fun hk => by rw [hk, flagAfter_zero],
    fun hk hc => flagAfter_of_gt (by omega) _, fun _ hk => flagAfter_of_lt hk _,
    fun hk hc => by rw [hk, flagAfter_self hc], fun hk _ => flagAfter_of_gt hk _⟩

/-! ## The two updates in closed form (R100 to R102) -/

/-- R100's loop crosses `acc / p` boundaries and leaves `acc % p`, if it may iterate that often: each iteration takes one
period and crosses one boundary. -/
theorem drainLoop_eq {p : Nat} (hp : 1 ≤ p) : ∀ (fuel acc cnt : Nat) (flag : Bool), acc ≤ fuel →
    drainLoop p fuel acc cnt flag = (acc % p, countAfter (acc / p) cnt, flagAfter (acc / p) cnt flag)
  | 0, acc, cnt, flag, h => by
    obtain rfl : acc = 0 := by omega
    rw [drainLoop_of_lt hp, Nat.zero_mod, Nat.zero_div, countAfter_zero, flagAfter_zero]
  | fuel + 1, acc, cnt, flag, h => by
    by_cases hlt : acc < p
    · rw [drainLoop_of_lt hlt, Nat.mod_eq_of_lt hlt, Nat.div_eq_of_lt hlt, countAfter_zero, flagAfter_zero]
    · have hge : p ≤ acc := Nat.not_lt.1 hlt
      have hdiv : 1 + (acc - p) / p = acc / p := by rw [Nat.div_eq_sub_div hp hge, add_comm]
      rw [drainLoop_of_ge hge, crossBoundary_eq, drainLoop_eq hp fuel _ _ _ (by omega), countAfter_add, flagAfter_add,
        hdiv, ← Nat.mod_eq_sub_mod hge]

theorem Timer.updateLoop_eq {p : Nat} (hp : 1 ≤ p) (t : Timer) (delta : Half) :
    Timer.updateLoop p t delta = t.crossed (t.elapsed delta / p) (t.elapsed delta % p) := by
  rw [Timer.updateLoop, drainLoop_eq hp _ _ _ _ le_rfl, Timer.crossed]

/-- The closed form that the machine evaluates is R100's loop. -/
theorem Timer.updateDrain_eq_updateLoop {p : Nat} (hp : 1 ≤ p) (t : Timer) (delta : Half) :
    Timer.updateDrain p t delta = Timer.updateLoop p t delta :=
  (Timer.updateLoop_eq hp t delta).symm

theorem Timer.updateSingle_eq (p : Nat) (t : Timer) (delta : Half) : Timer.updateSingle p t delta =
    if t.elapsed delta - singleCrossings p (t.elapsed delta) * p ≥ 2 ^ 32 then none
    else some (t.crossed (singleCrossings p (t.elapsed delta))
      (t.elapsed delta - singleCrossings p (t.elapsed delta) * p)) := by
  rw [Timer.updateSingle, singleTick_eq]; rfl

/-- Settles O40: both updates leave the timer after k crossings, k being the quotient of the loop or at most 1. -/
theorem updatesHaveTheClosedForm : Obligations.UpdatesHaveTheClosedForm := by
  unfold Obligations.UpdatesHaveTheClosedForm
  intro p t delta hp hlt
  refine ⟨?_, fun k1 hk1 => ?_⟩
  · rw [Timer.updateLoop_eq hp]
    have hmod := Nat.mod_lt (t.elapsed delta) hp
    exact ⟨t.crossed_accumulated _ (hmod.trans hlt), t.crossed_table ..⟩
  · obtain rfl : k1 = singleCrossings p (t.elapsed delta) := hk1
    rw [Timer.updateSingle_eq]
    exact ⟨fun hfits => ⟨_, if_neg (Nat.not_le.2 hfits), t.crossed_accumulated _ hfits, t.crossed_table ..⟩,
      fun hexceeds => if_pos hexceeds⟩

/-! ## A countdown (R117) -/

/-- R100's loop run for one delta after the other does what the deltas' sum comes to. -/
theorem Timer.foldl_updateLoop {p : Nat} (hp : 1 ≤ p) (hlt : p < 2 ^ 32) :
    ∀ (ds : List Half) {t : Timer}, t.accumulated.toNat < p → ds.foldl (Timer.updateLoop p) t =
      t.crossed ((t.accumulated.toNat + (ds.map BitVec.toNat).sum) / p)
        ((t.accumulated.toNat + (ds.map BitVec.toNat).sum) % p)
  | [], t, ht => by
    simp [Nat.div_eq_of_lt ht, Nat.mod_eq_of_lt ht, Timer.crossed_zero]
  | d :: ds, t, ht => by
    have hmod := Nat.mod_lt (t.elapsed d) hp
    have hacc : (Timer.updateLoop p t d).accumulated.toNat = t.elapsed d % p := by
      rw [Timer.updateLoop_eq hp, Timer.crossed_accumulated _ _ (hmod.trans hlt)]
    have hdiv (n : Nat) : t.elapsed d / p + (t.elapsed d % p + n) / p = (t.elapsed d + n) / p := by
      conv_rhs => rw [← Nat.div_add_mod (t.elapsed d) p, add_assoc, Nat.mul_add_div hp]
    rw [List.foldl_cons, Timer.foldl_updateLoop hp hlt ds (hacc ▸ hmod), hacc, Timer.updateLoop_eq hp,
      Timer.crossed_crossed, hdiv, Nat.mod_add_mod, List.map_cons, List.sum_cons, ← add_assoc, Timer.elapsed]

/-- Deltas of 0 add nothing. -/
theorem sum_toNat_eq_zero {ds : List Half} (h : ∀ d ∈ ds, d = 0#32) : (ds.map BitVec.toNat).sum = 0 := by
  rw [List.sum_eq_zero_iff, List.forall_mem_map]
  exact fun d hd => congrArg BitVec.toNat (h d hd)

section
variable {p n : Nat} {t : Timer} (hcount : t.count.toNat = n) (hacc : t.accumulated = 0#32)

include hacc in
/-- From accumulator 0, the boundaries crossed are the quotient of the deltas' sum. -/
theorem Timer.foldl_updateLoop_of_zero (hp : 1 ≤ p) (hlt : p < 2 ^ 32) (ds : List Half) :
    ds.foldl (Timer.updateLoop p) t =
      t.crossed ((ds.map BitVec.toNat).sum / p) ((ds.map BitVec.toNat).sum % p) := by
  have hzero : t.accumulated.toNat = 0 := by rw [hacc]; rfl
  rw [Timer.foldl_updateLoop hp hlt ds (hzero ▸ hp), hzero, zero_add]

include hcount hacc

/-- A countdown of `n` periods has not ended while less than `n` periods have passed. -/
theorem Timer.countdown_running (hp : 1 ≤ p) (hlt : p < 2 ^ 32) (hflag : t.justCompleted = false) {ds : List Half}
    (hsum : (ds.map BitVec.toNat).sum < n * p) : (ds.foldl (Timer.updateLoop p) t).count ≠ 0#8 ∧
      (ds.foldl (Timer.updateLoop p) t).justCompleted = false := by
  have hcrossed : (ds.map BitVec.toNat).sum / p < n := (Nat.div_lt_iff_lt_mul hp).2 hsum
  rw [Timer.foldl_updateLoop_of_zero hacc hp hlt]
  refine ⟨fun h => ?_, ?_⟩
  · have hzero := congrArg BitVec.toNat h
    rw [Timer.crossed_count, hcount, countAfter, BitVec.toNat_zero] at hzero
    omega
  · rw [Timer.crossed_justCompleted, hcount, hflag, flagAfter_of_lt hcrossed]

/-- A countdown of `n` periods has ended when just `n` periods have passed. -/
theorem Timer.countdown_completed (hp : 1 ≤ p) (hlt : p < 2 ^ 32) (hn : 1 ≤ n) {ds : List Half}
    (hsum : (ds.map BitVec.toNat).sum = n * p) : (ds.foldl (Timer.updateLoop p) t).count = 0#8 ∧
      (ds.foldl (Timer.updateLoop p) t).justCompleted = true := by
  rw [Timer.foldl_updateLoop_of_zero hacc hp hlt, hsum, Nat.mul_div_cancel n hp]
  refine ⟨BitVec.eq_of_toNat_eq ?_, ?_⟩
  · rw [Timer.crossed_count, hcount, countAfter_self]; rfl
  · rw [Timer.crossed_justCompleted, hcount, flagAfter_self hn]

end

/-- Under SINGLE one delta of two periods crosses one boundary, and a period is left in the accumulator (R101). -/
theorem Timer.updateSingle_two_periods {p : Nat} (hp : 1 ≤ p) (hlt : 2 * p < 2 ^ 32) {t : Timer}
    (hacc : t.accumulated = 0#32) :
    Timer.updateSingle p t (BitVec.ofNat 32 (2 * p)) = some (t.crossed 1 p) := by
  have helapsed : t.elapsed (BitVec.ofNat 32 (2 * p)) = 2 * p := by
    rw [Timer.elapsed, hacc, BitVec.toNat_zero, zero_add, BitVec.toNat_ofNat, Nat.mod_eq_of_lt hlt]
  have hone : singleCrossings p (2 * p) = 1 := if_pos (by omega)
  have hleft : 2 * p - 1 * p = p := by omega
  rw [Timer.updateSingle_eq, helapsed, hone, hleft, if_neg (by omega)]

/-- Settles O44: the deltas' sum reaches N periods with the last positive delta and not before. Under SINGLE the one
delta of two periods crosses one boundary only. -/
theorem countdownCompletesAtTheLastPositiveDelta : Obligations.CountdownCompletesAtTheLastPositiveDelta := by
  unfold Obligations.CountdownCompletesAtTheLastPositiveDelta
  refine ⟨fun p n t before after last hp hlt hn hcount hacc hflag hlast hafter hsum => ?_,
    fun p t hp hlt hcount hacc hflag => ?_⟩
  · have hpositive : 0 < last.toNat := Nat.pos_of_ne_zero fun h => hlast (BitVec.eq_of_toNat_eq h)
    have htotal : (before.map BitVec.toNat).sum + last.toNat = n * p := by
      rw [← hsum]; simp [sum_toNat_eq_zero hafter]
    refine ⟨fun pre hpre => Timer.countdown_running hcount hacc hp hlt hflag ?_,
      fun post hpost => Timer.countdown_completed hcount hacc hp hlt hn ?_⟩
    · have hle : (pre.map BitVec.toNat).sum ≤ (before.map BitVec.toNat).sum :=
        (hpre.sublist.map _).sum_le_sum (by simp)
      omega
    · simp [sum_toNat_eq_zero fun d hd => hafter d (hpost.subset hd), htotal]
  · rw [Timer.updateSingle_two_periods hp hlt hacc, Timer.crossed, hcount, hflag]
    rfl

/-! ## ADVANCE (R115) -/

theorem exec_advance_of_some {delta : Half} {s : State} {d a : Timer} (hd : Timer.update s.config s.delay delta = some d)
    (ha : Timer.update s.config s.sound delta = some a) :
    exec (.advance delta) s = .next ((s.setTimers d a).send .host [0#64]) :=
  congrArg (fun r => Host.Outcome.next (s.reply .host r)) (cmdAdvance_of_some hd ha)

/-- ADVANCE fails if an update overflows. -/
theorem exec_advance_of_none {delta : Half} {s : State} (h : Timer.update s.config s.delay delta = none ∨
    Timer.update s.config s.sound delta = none) :
    ∃ id, exec (.advance delta) s = .next (s.raise .host (.accumulatorOverflow id)) := by
  obtain ⟨id, herror⟩ : ∃ id, cmdAdvance delta s = .error (.accumulatorOverflow id) := by
    cases hd : Timer.update s.config s.delay delta with
    | none => exact ⟨.delay, cmdAdvance_of_delay_none hd⟩
    | some d => exact ⟨.sound, cmdAdvance_of_sound_none hd (h.resolve_left (by simp [hd]))⟩
  exact ⟨id, congrArg (fun r => Host.Outcome.next (s.reply .host r)) herror⟩

/-- Under DRAIN a timer's update is R100's loop. -/
theorem Timer.update_eq_updateLoop {c : Config} (hc : c.wf = true) (hm : c.tickMode = .drain) (t : Timer) (delta : Half) :
    Timer.update c t delta = some (Timer.updateLoop c.tickPeriod.toNat t delta) := by
  obtain ⟨hperiod, -⟩ := (Config.wf_iff c).1 hc
  rw [Timer.update_drain hm, Timer.updateDrain_eq_updateLoop hperiod]

/-- Settles O39: the closed form that the machine evaluates is the loop. -/
theorem advanceRunsTheDrainLoop : Obligations.AdvanceRunsTheDrainLoop := by
  unfold Obligations.AdvanceRunsTheDrainLoop
  exact fun s delta hc hm =>
    exec_advance_of_some (Timer.update_eq_updateLoop hc hm _ delta) (Timer.update_eq_updateLoop hc hm _ delta)

/-- An ADVANCE without overflow writes the two timers and answers 0; nothing else changes. -/
theorem exec_advance_updates {delta : Half} {s : State} {d a : Timer} (hd : Timer.update s.config s.delay delta = some d)
    (ha : Timer.update s.config s.sound delta = some a) : ∃ t, exec (.advance delta) s = .next t ∧
      t.delay = d ∧ t.sound = a ∧ State.sameMemory s t ∧ State.sameSurroundings s t ∧ State.answeredOk s t 0#32 [] := by
  refine ⟨_, exec_advance_of_some hd ha, rfl, rfl, fun sp _ _ => ?_, ⟨rfl, rfl, rfl, rfl, rfl, rfl⟩, rfl, rfl⟩
  cases sp <;> rfl

/-- Settles O41: under either mode ADVANCE writes both timers' updates, or neither if one overflows. -/
theorem advanceUpdatesBothTimers : Obligations.AdvanceUpdatesBothTimers := by
  unfold Obligations.AdvanceUpdatesBothTimers
  refine ⟨encodedAs_of_mem (by decide) fun _ => rfl, fun s delta hc => ⟨fun hm => ?_, fun hm d a hd ha => ?_,
    fun hm hnone => ?_⟩⟩
  · exact exec_advance_updates (Timer.update_eq_updateLoop hc hm _ delta) (Timer.update_eq_updateLoop hc hm _ delta)
  · exact exec_advance_updates ((Timer.update_single hm ..).trans hd) ((Timer.update_single hm ..).trans ha)
  · rw [← Timer.update_single hm, ← Timer.update_single hm] at hnone
    obtain ⟨id, hexec⟩ := exec_advance_of_none hnone
    exact ⟨_, hexec, State.raise_bundle .., ⟨rfl, rfl, rfl, rfl, rfl, rfl⟩, id, rfl, rfl⟩

/-! ## The access commands (R110 to R114) -/

theorem exec_playsound (s : State) : exec .playsound s = .next { s with hostOut := s.hostOut ++
    [if s.soundComplete = true then 0x0000000000000001#64 else 0x0000000000000000#64] } := by
  have hword : responseWord 0x00#8 (if s.soundComplete = true then 1#32 else 0#32) =
      if s.soundComplete = true then 0x0000000000000001#64 else 0x0000000000000000#64 := by
    cases s.soundComplete <;> rfl
  rw [← hword]
  rfl

/-- Settles O38: each encoding is a row of the opcode map, and each command answers from its timer's fields. -/
theorem timerAccessCommands : Obligations.TimerAccessCommands := by
  unfold Obligations.TimerAccessCommands
  refine ⟨encodedAs_of_mem (by decide) fun _ => rfl, encodedAs_of_mem (by decide) fun _ => rfl,
    encodedAs_of_mem (by decide) fun _ => rfl, encodedAs_of_mem (by decide) fun _ => rfl,
    encodedAs_of_mem (by decide) fun _ => rfl, fun s v => ⟨rfl, rfl, rfl, rfl, exec_playsound s⟩⟩

end Sys2Proof.Machine
end

section
/-! Proofs for the family 41_keys.md: SETKEY and READKEY, and the reads of one element in every space. -/

namespace Sys2Proof.Machine

/-! ## Commands that fail (R200, R202) -/

/-- The status of `OutOfBounds` is 1 (R201). -/
theorem Error.response_outOfBounds (sp : Space) (i : Nat) :
    (Error.outOfBounds sp i).response = 0x0100000000000000#64 := by
  show responseWord 0x01#8 0#32 = 0x0100000000000000#64
  decide

/-- A command that comes to an error is answered with it and leaves the bundle and its surroundings. -/
theorem exec_of_error {i : Instr} (hi : ∀ delta, i ≠ .step delta) {s : State} {e : Error}
    (h : processorCommand 0#64 i s = .error e) : ∃ t, exec i s = .next t ∧ t.bundle = s.bundle ∧
      State.sameSurroundings s t ∧ State.answeredError s t e :=
  ⟨s.raise .host e, by rw [exec_eq_reply 0#64 hi, h, State.reply_error], State.raise_bundle ..,
    ⟨rfl, rfl, rfl, rfl, rfl, rfl⟩, rfl, rfl⟩

/-! ## Reads of one element (R141, R150, R152) -/

/-- A read out of bounds answers `OutOfBounds` and leaves the rest of the machine. -/
theorem reply_readElement_of_ge {sp : Space} {a : Nat} (ha : sp.size ≤ a) (s : State) :
    s.reply .host (readElement sp a s) =
      { s with hostOut := s.hostOut ++ [0x0100000000000000#64], faults := s.faults ++ [.outOfBounds sp a] } := by
  rw [readElement, withIndex_of_ge ha, ← Error.response_outOfBounds sp a]; rfl

/-- Settles O23: each encoding is a row of the opcode map, and the three reads are `readElement` in three spaces. -/
theorem elementReadsAnswerTheElement : Obligations.ElementReadsAnswerTheElement := by
  unfold Obligations.ElementReadsAnswerTheElement
  refine ⟨encodedAs_of_mem (by decide) fun _ => rfl, encodedAs_of_mem (by decide) fun _ => rfl,
    encodedAs_of_mem (by decide) fun _ => rfl, fun s a => ?_⟩
  exact ⟨fun h => congrArg Host.Outcome.next (reply_readElement_of_lt (sp := .keys) h .host s),
    fun h => congrArg Host.Outcome.next (reply_readElement_of_lt (sp := .ram) h .host s),
    fun h => congrArg Host.Outcome.next (reply_readElement_of_lt (sp := .vram) h .host s),
    fun h => congrArg Host.Outcome.next (reply_readElement_of_ge (sp := .keys) h s),
    fun h => congrArg Host.Outcome.next (reply_readElement_of_ge (sp := .ram) h s),
    fun h => congrArg Host.Outcome.next (reply_readElement_of_ge (sp := .vram) h s)⟩

/-! ## SETKEY (R140) -/

theorem setkey_ne_step (code state : Byte) (delta : Half) : Instr.setkey code state ≠ .step delta := by simp

/-- A state other than 0 and 1 is found once the index has passed (R208). -/
theorem cmdSetkey_of_illegal {code state : Byte} (hcode : code.toNat < 16) (hstate : ¬ (state = 0#8 ∨ state = 1#8))
    (s : State) : cmdSetkey code state s = .error (.invalidKeyState code state) := by
  rw [cmdSetkey, withIndex_of_lt (sp := .keys) hcode, if_neg (mt (keyStateLegal_iff state).1 hstate)]

theorem exec_setkey_of_legal {code state : Byte} (hcode : code.toNat < 16) (hstate : state = 0#8 ∨ state = 1#8)
    (s : State) : exec (.setkey code state) s =
      .next ((s.writeByte .keys code.toNat state).send .host [responseWord 0x00#8 0#32]) := by
  rw [exec_eq_reply 0#64 (setkey_ne_step code state), processorCommand, cmdSetkey, withIndex_of_lt (sp := .keys) hcode,
    if_pos ((keyStateLegal_iff state).2 hstate)]
  rfl

/-- A read after a write that has been answered, at every address of every space. -/
theorem State.readByte_send_writeByte {s : State} {sp : Space} (h : Memory.wf (s.memory sp) = true) (a : Nat) (v : Byte)
    (p : Port) (ws : List Word) (sp' : Space) (b : Nat) :
    ((s.writeByte sp a v).send p ws).readByte sp' b = if sp' = sp ∧ b = a then v else s.readByte sp' b := by
  rw [State.readByte_of_bundle (State.send_bundle ..), State.readByte_writeByte h]

/-- Settles O21: the encoding is a row of the opcode map; of the three ends of SETKEY two are errors, and the third is one
write to the key latch. -/
theorem setkeyWritesOneLatchEntry : Obligations.SetkeyWritesOneLatchEntry := by
  unfold Obligations.SetkeyWritesOneLatchEntry
  refine ⟨encodedAs_of_mem (by decide) fun _ => rfl, fun s code state hwf => ⟨fun hcode => ?_, fun hcode hstate => ?_,
    fun hcode hstate => ?_⟩⟩
  · exact exec_of_error (setkey_ne_step code state) (withIndex_of_ge (sp := .keys) hcode _)
  · exact exec_of_error (setkey_ne_step code state) (cmdSetkey_of_illegal hcode (not_or.2 hstate) s)
  · have hread := State.readByte_send_writeByte (sp := .keys) hwf code.toNat state .host [responseWord 0x00#8 0#32]
    exact ⟨_, exec_setkey_of_legal hcode hstate s, (hread ..).trans (if_pos ⟨rfl, rfl⟩),
      fun b hb => (hread ..).trans (if_neg fun h => hb h.2), fun _ _ => rfl, fun _ _ => rfl, ⟨rfl, rfl⟩,
      ⟨rfl, rfl, rfl, rfl, rfl, rfl⟩, rfl, rfl⟩

/-! ## What comes between (R142) -/

/-- Every command but STEP keeps the invariant (R31). -/
theorem exec_keeps_inv {i : Instr} (hi : ∀ delta, i ≠ .step delta) {s t : State} (hs : s.Inv)
    (h : exec i s = .next t) : t.Inv := by
  rw [exec_eq_reply 0#64 hi] at h
  rw [← Host.Outcome.next.inj h]
  exact State.reply_of_leaves (fun _ _ => State.Inv.of_bundle) hs (processorCommand_leaves_inv 0#64 i hs) .host

/-- Commands none of which stores to a byte all have a next state, and leave the invariant and that byte. -/
theorem execAll_keeps_byte {sp : Space} {a : Nat} : ∀ is : List Instr, (∀ i ∈ is, ¬ Instr.stores i sp a) →
    ∀ s : State, s.Inv → ∃ t, execAll is s = some t ∧ t.Inv ∧ t.readByte sp a = s.readByte sp a
  | [], _, s, hs => ⟨s, rfl, hs, rfl⟩
  | i :: is, hstores, s, hs => by
    obtain ⟨hi, his⟩ := List.forall_mem_cons.1 hstores
    have hstep : ∀ delta, i ≠ .step delta := fun _ h => hi (h ▸ trivial)
    obtain ⟨t, ht⟩ := exec_next i s
    obtain ⟨hsame, -⟩ := commandsStoreOnlyWhereTheySay s t i hs hstep ht
    obtain ⟨u, hu, huinv, hbyte⟩ := execAll_keeps_byte is his t (exec_keeps_inv hstep hs ht)
    exact ⟨u, (execAll_cons ht is).trans hu, huinv, hbyte.trans (hsame sp a hi)⟩

/-- Settles O22: SETKEY writes the entry, the commands between leave it, and READKEY answers it. -/
theorem readkeyReturnsWhatSetkeyWrote : Obligations.ReadkeyReturnsWhatSetkeyWrote := by
  unfold Obligations.ReadkeyReturnsWhatSetkeyWrote
  intro s c v between hs hc hv hbetween
  have ht := exec_setkey_of_legal hc hv.symm s
  obtain ⟨u, hu, -, hkept⟩ := execAll_keeps_byte between hbetween _ (exec_keeps_inv (setkey_ne_step c v) hs ht)
  have hbyte : u.readByte .keys c.toNat = v :=
    hkept.trans ((State.readByte_send_writeByte (hs.memory_wf .keys) ..).trans (if_pos ⟨rfl, rfl⟩))
  have hread := reply_readElement_of_lt (sp := .keys) hc .host u
  rw [hbyte] at hread
  exact ⟨_, u, _, ht, hu, congrArg Host.Outcome.next hread, rfl, rfl⟩

end Sys2Proof.Machine
end

section
/-! Proofs for the family 42_memory_video.md: GETVRAM, the commands that write one byte of RAM or VRAM, and the loading of a
ROM and the font. -/

namespace Sys2Proof.Machine

/-! ## GETVRAM (R156) -/

/-- Each byte packed stands in its word, the first of a word in the most significant place (R77, R79). -/
theorem packWords_getD (bs : List Byte) {i : Nat} (hi : i < bs.length) :
    ((packWords bs).getD (i / 8) 0#64).extractLsb' (56 - 8 * (i % 8)) 8 = bs.getD i 0#8 := by
  have hfits : i < 8 * (packWords bs).length := by rw [packWords_length]; omega
  rw [← unpackWords_getD _ i hfits, unpackWords_packWords, List.getD_append _ _ _ _ hi]

theorem State.vramOut_length (s : State) : s.vramOut.length = 256 := Memory.readBytes_length ..

/-- The output `vram_out` shows the framebuffer (R30). -/
theorem State.vramOut_getD (s : State) {i : Nat} (hi : i < 256) : s.vramOut.getD i 0#8 = Memory.read s.vram i := by
  rw [State.vramOut, Memory.readBytes_getD _ hi, Nat.zero_add]

/-- Settles O24: the data words are `vram_out` packed. -/
theorem getvramReturnsTheFramebuffer : Obligations.GetvramReturnsTheFramebuffer := by
  unfold Obligations.GetvramReturnsTheFramebuffer
  refine ⟨encodedAs_of_mem (by decide) fun _ => rfl, fun s => ⟨vramWords s, rfl, ?_, s.vramOut_length,
    fun w hw j hj => ?_⟩⟩
  · rw [vramWords, packWords_length, s.vramOut_length]
  · have hi : 8 * w + j < 256 := by omega
    have hbyte := packWords_getD s.vramOut (i := 8 * w + j) (by rwa [s.vramOut_length])
    rw [show (8 * w + j) / 8 = w by omega, show (8 * w + j) % 8 = j by omega] at hbyte
    exact ⟨hbyte.trans (s.vramOut_getD hi), s.vramOut_getD hi⟩

/-! ## Commands that store one byte (R151, R153, R154) -/

section
variable {i : Instr} {s : State} {sp : Space} {a : Nat} {v : Byte} (hi : ∀ delta, i ≠ .step delta)
  (h : processorCommand 0#64 i s = withIndex sp a (answerDone (s.writeByte sp a v)))
include hi h

theorem exec_of_store (ha : a < sp.size) :
    exec i s = .next ((s.writeByte sp a v).send .host [responseWord 0x00#8 0#32]) := by
  rw [exec_eq_reply 0#64 hi, h, withIndex_of_lt ha]
  rfl

/-- In bounds, a command that stores one byte changes no other byte of any space, and answers 0. -/
theorem exec_store_in_bounds (hwf : Memory.wf (s.memory sp) = true) (ha : a < sp.size) :
    ∃ t, exec i s = .next t ∧ t.readByte sp a = v ∧ (∀ sp', State.sameBytes s t sp' fun b => sp' = sp ∧ b = a) ∧
      State.sameTimers s t ∧ State.sameSurroundings s t ∧ State.answeredOk s t 0#32 [] := by
  have hread := State.readByte_send_writeByte hwf a v .host [responseWord 0x00#8 0#32]
  refine ⟨_, exec_of_store hi h ha, (hread sp a).trans (if_pos ⟨rfl, rfl⟩),
    fun sp' b hb => (hread sp' b).trans (if_neg hb), ?_⟩
  cases sp <;> exact ⟨⟨rfl, rfl⟩, ⟨rfl, rfl, rfl, rfl, rfl, rfl⟩, rfl, rfl⟩

theorem exec_store_out_of_bounds (ha : sp.size ≤ a) : ∃ t, exec i s = .next t ∧ t.bundle = s.bundle ∧
    State.sameSurroundings s t ∧ State.answeredError s t (.outOfBounds sp a) :=
  exec_of_error hi (h.trans (withIndex_of_ge ha _))

end

/-- Settles O25: WRITERAM stores its value in RAM. -/
theorem writeramStoresOneByte : Obligations.WriteramStoresOneByte := by
  unfold Obligations.WriteramStoresOneByte
  refine ⟨encodedAs_of_mem (by decide) fun _ => rfl, fun s addr v hwf => ⟨fun ha => ?_,
    exec_store_out_of_bounds (i := .writeram addr v) nofun rfl⟩⟩
  obtain ⟨t, ht, hbyte, hsame, hrest⟩ := exec_store_in_bounds (i := .writeram addr v) nofun rfl hwf ha
  exact ⟨t, ht, hbyte, fun b hb => hsame .ram b fun h => hb h.2, fun b _ => hsame .vram b nofun,
    fun b _ => hsame .keys b nofun, hrest⟩

/-- Settles O26: both commands store one byte in VRAM, WRITEVRAM its value and XORVRAM the old byte XORed with it. -/
theorem videoWritesChangeOneByte : Obligations.VideoWritesChangeOneByte := by
  unfold Obligations.VideoWritesChangeOneByte
  refine ⟨encodedAs_of_mem (by decide) fun _ => rfl, encodedAs_of_mem (by decide) fun _ => rfl,
    fun s addr v i stored hwf hi => ?_⟩
  obtain ⟨hstep, hstore⟩ : (∀ delta, i ≠ .step delta) ∧
      processorCommand 0#64 i s = withIndex .vram addr (answerDone (s.writeByte .vram addr stored)) := by
    rcases hi with ⟨rfl, rfl⟩ | ⟨rfl, rfl⟩ <;> exact ⟨nofun, rfl⟩
  refine ⟨fun ha => ?_, exec_store_out_of_bounds hstep hstore⟩
  obtain ⟨t, ht, hbyte, hsame, hrest⟩ := exec_store_in_bounds hstep hstore hwf ha
  exact ⟨t, ht, hbyte, fun b hb => hsame .vram b fun h => hb h.2, fun b _ => hsame .ram b nofun,
    fun b _ => hsame .keys b nofun, hrest⟩

/-! ## XORVRAM is self-inverse (R158) and its collision (R155) -/

theorem exec_xorvram_of_lt {a : Nat} (ha : a < 256) (v : Byte) (s : State) : exec (.xorvram a v) s =
    .next ((s.writeByte .vram a (s.readByte .vram a ^^^ v)).send .host [responseWord 0x00#8 0#32]) :=
  exec_of_store (sp := .vram) nofun rfl ha

/-- XORVRAM of a byte in bounds leaves the old byte XORed with the value. -/
theorem readByte_of_exec_xorvram {s t : State} (h : Memory.wf s.vram = true) {a : Nat} (ha : a < 256) {v : Byte}
    (ht : exec (.xorvram a v) s = .next t) : t.readByte .vram a = s.readByte .vram a ^^^ v := by
  rw [exec_xorvram_of_lt ha] at ht
  rw [← Host.Outcome.next.inj ht, State.readByte_send_writeByte (sp := .vram) h, if_pos ⟨rfl, rfl⟩]

/-- A byte written where it stands already changes nothing. -/
theorem Memory.write_read {m : Memory} (hm : Memory.wf m = true) (a : Nat) : Memory.write m a (Memory.read m a) = m := by
  refine Memory.ext (Memory.wf_write hm a _) hm fun b => ?_
  rw [Memory.read_write hm]
  split_ifs with hb
  · rw [hb]
  · rfl

/-- Two XORVRAMs of one value to one address write the old byte twice over. -/
theorem exec_xorvram_twice_bundle {s t u : State} (h : Memory.wf s.vram = true) {a : Nat} (ha : a < 256) {v : Byte}
    (ht : exec (.xorvram a v) s = .next t) (hu : exec (.xorvram a v) t = .next u) : u.bundle = s.bundle := by
  have hbyte := readByte_of_exec_xorvram h ha ht
  rw [exec_xorvram_of_lt ha, hbyte, BitVec.xor_assoc, BitVec.xor_self, BitVec.xor_zero] at hu
  rw [exec_xorvram_of_lt ha] at ht
  have hvram : Memory.write (Memory.write s.vram a (s.readByte .vram a ^^^ v)) a (s.readByte .vram a) = s.vram :=
    (Memory.write_write h ..).trans (Memory.write_read h a)
  rw [← Host.Outcome.next.inj hu, ← Host.Outcome.next.inj ht]
  exact (State.bundle_eq_iff ..).2 ⟨rfl, rfl, rfl, hvram, rfl⟩

/-- Settles O28: the commands between keep the byte, which the second XORVRAM takes back to what it was. -/
theorem xorvramTwiceRestores : Obligations.XorvramTwiceRestores := by
  unfold Obligations.XorvramTwiceRestores
  intro s addr v hs ha
  obtain ⟨t, ht⟩ := exec_next (.xorvram addr v) s
  refine ⟨fun between hbetween => ?_, ?_⟩
  · have htinv := exec_keeps_inv (i := .xorvram addr v) nofun hs ht
    obtain ⟨u, hu, huinv, hkept⟩ := execAll_keeps_byte between hbetween t htinv
    obtain ⟨w, hw⟩ := exec_next (.xorvram addr v) u
    refine ⟨t, u, w, ht, hu, hw, ?_⟩
    calc w.readByte .vram addr
        = s.readByte .vram addr ^^^ v ^^^ v := by
          rw [readByte_of_exec_xorvram huinv.vram_wf ha hw, hkept, readByte_of_exec_xorvram hs.vram_wf ha ht]
      _ = s.readByte .vram addr := by rw [BitVec.xor_assoc, BitVec.xor_self, BitVec.xor_zero]
  · obtain ⟨w, hw⟩ := exec_next (.xorvram addr v) t
    exact ⟨t, w, ht, hw, exec_xorvram_twice_bundle hs.vram_wf ha ht hw⟩

/-- A bit that an XOR takes from 1 to 0 is one that both operands have. -/
theorem getLsbD_goes_out_iff (old value : Byte) (k : Nat) :
    (old.getLsbD k = true ∧ (old ^^^ value).getLsbD k = false) ↔ (old &&& value).getLsbD k = true := by
  rw [BitVec.getLsbD_xor, BitVec.getLsbD_and]
  cases old.getLsbD k <;> simp

/-- A nonzero bit vector has a bit that is 1. -/
theorem ne_zero_iff_getLsbD {n : Nat} (x : BitVec n) : x ≠ 0#n ↔ ∃ k < n, x.getLsbD k = true := by
  rw [← not_iff_not, not_not]
  constructor
  · rintro rfl
    simp
  · intro h
    exact BitVec.eq_of_getLsbD_eq fun k hk => by simpa using fun hbit => h ⟨k, hk, hbit⟩

/-- Settles O29: the collision is a bit that the old byte and the value both have. -/
theorem collisionIsABitThatGoesOut : Obligations.CollisionIsABitThatGoesOut := by
  unfold Obligations.CollisionIsABitThatGoesOut
  intro old value
  simp only [getLsbD_goes_out_iff, ← ne_zero_iff_getLsbD, collision, bne_iff_ne]

/-! ## LOADROM (R157, R160) -/

theorem exec_loadrom_of_le {data : List Byte} (h : data.length ≤ 3584) (s : State) : exec (.loadrom data) s =
    .next ((s.setMemory .ram (loadedRam data s.config.font s.ram)).send .host [responseWord 0x00#8 0#32]) := by
  have hfits : ¬ romBase + data.length > Space.size .ram := Nat.not_lt.2 (Nat.add_le_add_left h romBase)
  rw [exec_eq_reply 0#64 (i := .loadrom data) nofun, processorCommand, cmdLoadrom, if_neg hfits]
  rfl

/-- Settles O34: RAM at every address after a load is `loadedRam_read`. -/
theorem loadromPlacesTheRom : Obligations.LoadromPlacesTheRom := by
  unfold Obligations.LoadromPlacesTheRom
  intro s data hc hlen
  obtain ⟨-, hfont, -⟩ := (Config.wf_iff _).1 hc
  have hread := loadedRam_read (data := data) hfont s.ram
  refine ⟨_, exec_loadrom_of_le hlen s, ⟨rfl, rfl⟩, fun i hi => (hread (0x200 + i)).trans ?_,
    fun a ha hrom => (hread a).trans ?_⟩
  · have hfontEnd : ¬ 0x200 + i < fontSize := by simp only [fontSize]; omega
    rw [if_neg hfontEnd, if_pos ⟨Nat.le_add_right .., Nat.add_lt_add_left hi _⟩, romBase, Nat.add_sub_cancel_left]
  · exact (if_neg (Nat.not_lt.2 ha)).trans (if_neg hrom)

/-- Settles O36: a load that fails leaves the bundle, and one that succeeds writes `loadedRam`. -/
theorem loadromLeavesTheRest : Obligations.LoadromLeavesTheRest := by
  unfold Obligations.LoadromLeavesTheRest
  intro s t data hc h
  obtain ⟨-, hfont, -⟩ := (Config.wf_iff _).1 hc
  obtain ⟨hsame, ⟨hbundle, -⟩ | ⟨u, hbundle, -, rfl⟩⟩ := exec_effect (i := .loadrom data) nofun h
  · obtain ⟨hdelay, hsound, -, hvram, hkeys⟩ := (State.bundle_eq_iff ..).1 hbundle
    exact ⟨fun a _ => State.readByte_of_bundle hbundle .ram a, hvram, hkeys, ⟨hdelay, hsound⟩, hsame⟩
  · obtain ⟨hdelay, hsound, -, hvram, hkeys⟩ := (State.bundle_eq_iff ..).1 hbundle
    exact ⟨fun a ha => (State.readByte_of_bundle hbundle .ram a).trans
      (State.loadRom_sameBytes hfont data .ram a fun hstored => ha hstored.2), hvram, hkeys, ⟨hdelay, hsound⟩, hsame⟩

/-! ## The font stays (R159) -/

/-- What every command of a sequence keeps, the sequence keeps; and it has a next state. -/
theorem execAll_keeps {P : State → Prop} : ∀ is : List Instr,
    (∀ i ∈ is, ∀ s t, P s → exec i s = .next t → P t) → ∀ s, P s → ∃ t, execAll is s = some t ∧ P t
  | [], _, s, hs => ⟨s, rfl, hs⟩
  | i :: is, hkeeps, s, hs => by
    obtain ⟨hi, his⟩ := List.forall_mem_cons.1 hkeeps
    obtain ⟨t, ht⟩ := exec_next i s
    obtain ⟨u, hu, hPu⟩ := execAll_keeps is his t (hi s t hs ht)
    exact ⟨u, (execAll_cons ht is).trans hu, hPu⟩

/-- Of the commands but STEP, only WRITERAM to an address and LOADROM may store there in RAM. -/
theorem Instr.writeram_or_loadrom_of_stores {i : Instr} (hi : ∀ delta, i ≠ .step delta) {a : Nat}
    (h : Instr.stores i .ram a) : (∃ v, i = .writeram a v) ∨ ∃ data, i = .loadrom data := by
  cases i with
  | writeram addr v => exact .inl ⟨v, by rw [h.2]⟩
  | loadrom data => exact .inr ⟨data, rfl⟩
  | step delta => exact absurd rfl (hi delta)
  | setkey _ _ | writevram _ _ | xorvram _ _ => exact absurd h.1 nofun
  | readkey _ | readram _ | readvram _ | getvram | getdelay | setdelay _ | getsound | setsound _ | playsound
  | advance _ => exact absurd h not_false

/-- A load installs the font, whatever the ROM (R157). -/
theorem State.readByte_loadRom_font {s : State} (hc : s.config.wf = true) (data : List Byte) {i : Nat} (hi : i < 80) :
    (s.setMemory .ram (loadedRam data s.config.font s.ram)).readByte .ram i = s.config.font.getD i 0#8 := by
  obtain ⟨-, hfont, -⟩ := (Config.wf_iff _).1 hc
  exact (loadedRam_read hfont s.ram i).trans (if_pos hi)

/-- What holds from a load on, for one byte of the font: it stands where LOADROM puts it. -/
structure State.HoldsFontByte (c : Config) (i : Nat) (s : State) : Prop where
  inv : s.Inv
  config_eq : s.config = c
  byte_eq : s.readByte .ram i = c.font.getD i 0#8

theorem exec_loadrom_holdsFontByte {s t : State} (hs : s.Inv) {data : List Byte} (hlen : data.length ≤ 3584) {i : Nat}
    (hi : i < 80) (h : exec (.loadrom data) s = .next t) : t.HoldsFontByte s.config i := by
  have hinv := exec_keeps_inv (i := .loadrom data) nofun hs h
  rw [exec_loadrom_of_le hlen] at h
  obtain rfl := Host.Outcome.next.inj h
  exact ⟨hinv, rfl, State.readByte_loadRom_font hs.config_wf data hi⟩

/-- Every command but STEP and WRITERAM to i keeps the font's byte i: no other stores there but LOADROM, which puts the
byte there again or fails. -/
theorem exec_keeps_fontByte {c : Config} {i : Nat} (hi : i < 80) {cmd : Instr} (hstep : ∀ delta, cmd ≠ .step delta)
    (hwrite : ∀ v, cmd ≠ .writeram i v) {s t : State} (hs : s.HoldsFontByte c i) (h : exec cmd s = .next t) :
    t.HoldsFontByte c i := by
  obtain ⟨⟨hconfig, -⟩, hend⟩ := exec_effect hstep h
  refine ⟨exec_keeps_inv hstep hs.inv h, hconfig.trans hs.config_eq, ?_⟩
  by_cases hstores : Instr.stores cmd .ram i
  · obtain ⟨data, rfl⟩ := (Instr.writeram_or_loadrom_of_stores hstep hstores).resolve_left fun ⟨v, hv⟩ => hwrite v hv
    rcases hend with ⟨hbundle, -⟩ | ⟨u, hbundle, -, rfl⟩ <;> rw [State.readByte_of_bundle hbundle]
    · exact hs.byte_eq
    · rw [State.readByte_loadRom_font hs.inv.config_wf data hi, hs.config_eq]
  · obtain ⟨hsame, -⟩ := commandsStoreOnlyWhereTheySay s t cmd hs.inv hstep h
    exact (hsame .ram i hstores).trans hs.byte_eq

/-- FONT's first byte is fixed (R231). -/
theorem Config.font_getD_zero {c : Config} (h : c.wf = true) : c.font.getD 0 0#8 = 0xF0#8 := by
  obtain ⟨-, -, hhead⟩ := (Config.wf_iff c).1 h
  rw [List.getD_eq_getElem?_getD, ← List.head?_eq_getElem?, hhead, Option.getD_some]

/-- Settles O35: LOADROM puts the font's byte in its place, the commands between keep it there, and READRAM answers it. -/
theorem loadromInstallsTheFont : Obligations.LoadromInstallsTheFont := by
  unfold Obligations.LoadromInstallsTheFont
  intro s data between i hs hlen hi hbetween
  obtain ⟨t, ht⟩ := exec_next (.loadrom data) s
  obtain ⟨u, hu, hfont⟩ := execAll_keeps between
    (fun cmd hcmd v w hv hw => exec_keeps_fontByte hi (hbetween cmd hcmd).1 (hbetween cmd hcmd).2 hv hw)
    t (exec_loadrom_holdsFontByte hs hlen hi ht)
  have hread := reply_readElement_of_lt (sp := .ram) (show i < 4096 by omega) .host u
  rw [hfont.byte_eq] at hread
  exact ⟨t, u, _, ht, hu, congrArg Host.Outcome.next hread, ⟨rfl, rfl⟩,
    fun h0 => h0 ▸ Config.font_getD_zero hs.config_wf⟩

end Sys2Proof.Machine
end

section
/-! Proofs for the family 43_step.md: what a STEP comes to once its processor's commands have succeeded, and how it ends from
there: by ADVANCE, by the error of a failing command, or by hanging. -/

namespace Sys2Proof.Machine

/-! ## The machine after the commands of a chain (R181) -/

/-- The machine with another bundle in it. -/
def State.setBundle (s : State) (b : Bundle) : State :=
  { s with delay := b.delay, sound := b.sound, ram := b.ram, vram := b.vram, keys := b.keys }

/-- What writes the bundle alone leaves the machine with another bundle in it. -/
theorem State.eq_setBundle {s u : State} (hsame : State.sameSurroundings s u) (hfaults : u.faults = s.faults)
    (hout : u.hostOut = s.hostOut) : u = s.setBundle u.bundle := by
  obtain ⟨hconfig, hin, hproc, hq, htable, hhung⟩ := hsame
  cases u
  simp_all [State.setBundle]

/-- The machine with what issued commands have written: their bundle, and their responses on the processor port. -/
def State.afterIssued (s : State) (steps : List (Instr × List Word)) (b : Bundle) : State :=
  (s.setBundle b).send .processor (steps.map Prod.snd).flatten

theorem State.afterIssued_nil (s : State) : s.afterIssued [] s.bundle = s := by
  simp [State.afterIssued, State.setBundle, State.send]

/-- The first of the commands, and then the others. -/
theorem State.afterIssued_cons {s u : State} (h : u = s.setBundle u.bundle) (i : Instr) (response : List Word)
    (steps : List (Instr × List Word)) (b : Bundle) :
    (u.send .processor response).afterIssued steps b = s.afterIssued ((i, response) :: steps) b := by
  rw [h]
  simp [State.afterIssued, State.setBundle, State.send]

/-- Where an issued command succeeds, the chain goes on from the state its answer leaves. -/
theorem runChain_issue_ok {word : Word} {payload : List Word} {next : ProcAction} {s u : State} {v : Half}
    {data : List Word} (h : performIssue word payload s = .ok v data u) (last : List Word) :
    runChain (.issue word payload next) last s =
      runChain next (responseWord 0x00#8 v :: data) (u.send .processor (responseWord 0x00#8 v :: data)) := by
  rw [runChain, h]; rfl

/-- Commands that succeed when they are served on the host port succeed when a chain issues them: the chain comes to its
final action in the machine with what they have written. -/
theorem runChain_of_servedAs {final : ProcAction} {t : State} :
    ∀ (steps : List (Instr × List Word)) (a : ProcAction) (last : List Word) (s s' : State),
      (∀ p ∈ steps, Instr.issuable p.1) → actionIssues steps a last final → servedAs steps s' t →
      s.bundle = s'.bundle → s.config = s'.config →
        ∃ last', runChain a last s = runChain final last' (s.afterIssued steps t.bundle)
  | [], a, last, s, s', _, hfinal, hserved, hb, _ => by
    obtain rfl : t = s' := hserved
    rw [runChain_resolveTests, hfinal, ← hb, State.afterIssued_nil]
    exact ⟨last, rfl⟩
  | (i, response) :: steps, a, last, s, s', hissuable, ⟨next, haction, hnext⟩, ⟨u', hexec, hfaults, hout, hserved⟩,
      hb, hc => by
    obtain ⟨hi, hsteps⟩ := List.forall_mem_cons.1 hissuable
    obtain ⟨v, data, u, hu, rfl, hbundle, hconfig⟩ := performIssue_of_exec hi hb hc hexec hfaults hout
    obtain ⟨last', hchain⟩ := runChain_of_servedAs steps next (responseWord 0x00#8 v :: data)
      (u.send .processor (responseWord 0x00#8 v :: data)) u' hsteps hnext hserved (by simpa using hbundle)
      (by simpa using hconfig)
    have honly := performIssue_bundleOnly (encodeHeader i) (encodePayload i) s
    rw [hu] at honly
    obtain ⟨hsame, hkept, hhost⟩ := honly
    rw [State.afterIssued_cons (State.eq_setBundle hsame hkept hhost) i] at hchain
    rw [runChain_resolveTests, haction, runChain_issue_ok hu]
    exact ⟨last', hchain⟩

/-- Commands that succeed change neither the configuration nor the faults. -/
theorem servedAs_keeps {t : State} : ∀ (steps : List (Instr × List Word)) (s : State),
    (∀ p ∈ steps, Instr.issuable p.1) → servedAs steps s t → t.config = s.config ∧ t.faults = s.faults
  | [], _, _, hserved => hserved ▸ ⟨rfl, rfl⟩
  | (i, response) :: steps, s, hissuable, ⟨u, hexec, hfaults, _, hserved⟩ => by
    obtain ⟨⟨_, hstep⟩, hsteps⟩ := List.forall_mem_cons.1 hissuable
    obtain ⟨hconfig', hfaults'⟩ := servedAs_keeps steps u hsteps hserved
    obtain ⟨⟨hconfig, -⟩, -⟩ := exec_effect hstep hexec
    exact ⟨hconfig'.trans hconfig, hfaults'.trans hfaults⟩

section
variable {s t : State} {steps : List (Instr × List Word)} {final : ProcAction}
  (hissuable : ∀ p ∈ steps, Instr.issuable p.1) (hissues : actionIssues steps s.procAction [] final)
  (hserved : servedAs steps s t)
include hissuable hissues hserved

/-- A STEP whose commands succeed ends as its final action says, in the machine with what they have written. -/
theorem exec_step_of_servedAs (delta : Half) : ∃ last, exec (.step delta) s =
    .next (finishStep delta (runChain final last (s.afterIssued steps t.bundle))) := by
  obtain ⟨last, hchain⟩ := runChain_of_servedAs steps s.procAction [] s s hissuable hissues hserved rfl rfl
  exact ⟨last, by rw [exec_step, hchain]⟩

/-- A STEP whose instruction is done goes on by ADVANCE. -/
theorem exec_step_of_done {q : Nat} (hfinal : final = .done q) (delta : Half) :
    exec (.step delta) s = exec (.advance delta) ((s.afterIssued steps t.bundle).setProcQ q) := by
  obtain ⟨last, hexec⟩ := exec_step_of_servedAs hissuable hissues hserved delta
  rw [hexec, hfinal]; rfl

end

/-! ## A STEP that ends by ADVANCE (R181, R183) -/

/-- Settles O51: the instruction comes to `Done` after no command, and ADVANCE is R100's loop. -/
theorem stepOfAnIdleInstructionAdvances : Obligations.StepOfAnIdleInstructionAdvances := by
  unfold Obligations.StepOfAnIdleInstructionAdvances
  intro s delta q hc hm haction
  rw [exec_step, haction]
  exact advanceRunsTheDrainLoop (s.setProcQ q) delta hc hm

theorem advance_ne_step (d delta : Half) : Instr.advance d ≠ .step delta := by simp

/-- A script issues its commands, whatever their responses. -/
theorem actionIssues_scriptAction (q : Nat) : ∀ (steps : List (Instr × List Word)) (last : List Word),
    actionIssues steps (scriptAction (steps.map Prod.fst) (.done q)) last (.done q)
  | [], _ => rfl
  | (_, response) :: steps, _ => ⟨_, rfl, actionIssues_scriptAction q steps response⟩

/-- A STEP whose script's commands succeed gives their responses to the processor, and the tick starts from the timers they
leave. -/
theorem exec_step_of_script {s t : State} {steps : List (Instr × List Word)} {q : Nat}
    (hissuable : ∀ p ∈ steps, Instr.issuable p.1) (haction : s.procAction = scriptAction (steps.map Prod.fst) (.done q))
    (hserved : servedAs steps s t) (delta : Half) : ∃ u, exec (.step delta) s = .next u ∧
      u.procOut = s.procOut ++ (steps.map Prod.snd).flatten ∧ (s.config.wf = true → s.config.tickMode = .drain →
        u.delay = Timer.updateLoop s.config.tickPeriod.toNat t.delay delta ∧
        u.sound = Timer.updateLoop s.config.tickPeriod.toNat t.sound delta) := by
  have hissues := haction ▸ actionIssues_scriptAction q steps []
  obtain ⟨u, hu⟩ := exec_next (.advance delta) ((s.afterIssued steps t.bundle).setProcQ q)
  obtain ⟨⟨-, -, hproc, -⟩, -⟩ := exec_effect (advance_ne_step delta) hu
  refine ⟨u, (exec_step_of_done hissuable hissues hserved rfl delta).trans hu, hproc, fun hc hm => ?_⟩
  have hloop := advanceRunsTheDrainLoop ((s.afterIssued steps t.bundle).setProcQ q) delta hc hm
  rw [Host.Outcome.next.inj (hu.symm.trans hloop)]
  exact ⟨rfl, rfl⟩

/-- Settles O57: each of the two scripts sets a timer's count and answers it, and the tick starts from there. -/
theorem instructionPrecedesTheTick : Obligations.InstructionPrecedesTheTick := by
  unfold Obligations.InstructionPrecedesTheTick
  refine fun s delta v q => ⟨fun haction => ?_, fun haction => ?_⟩
  · obtain ⟨u, hu, hproc, htick⟩ := exec_step_of_script
      (steps := [(.setdelay v, [0#64]), (.getdelay, [responseWord 0x00#8 (v.setWidth 32)])])
      (by simp [Instr.issuable, Instr.wellFormed]) haction ⟨_, rfl, rfl, rfl, _, rfl, rfl, rfl, rfl⟩ delta
    exact ⟨u, hu, hproc, fun hc hm => (htick hc hm).1⟩
  · obtain ⟨u, hu, hproc, htick⟩ := exec_step_of_script
      (steps := [(.setsound v, [0#64]), (.getsound, [responseWord 0x00#8 (v.setWidth 32)])])
      (by simp [Instr.issuable, Instr.wellFormed]) haction ⟨_, rfl, rfl, rfl, _, rfl, rfl, rfl, rfl⟩ delta
    exact ⟨u, hu, hproc, fun hc hm => (htick hc hm).2⟩

/-! ## A STEP that hangs (R180) -/

/-- A hung machine stays as it is. -/
theorem step_of_hung {s : State} (h : s.hung = true) : step s = .next s := if_pos h

/-- Settles O55: the STEP ends in the machine with what the commands have written, hung, which every step leaves as it is. -/
theorem hangingChainNeverCompletes : Obligations.HangingChainNeverCompletes := by
  unfold Obligations.HangingChainNeverCompletes
  intro s t delta steps hissuable hissues hserved
  obtain ⟨last, hexec⟩ := exec_step_of_servedAs hissuable hissues hserved delta
  exact ⟨_, hexec, rfl, rfl, rfl, run_of_fixed Sys2Proof.core (step_of_hung (State.hang_hung _))⟩

/-! ## A STEP that fails (R182, R207) -/

/-- The status of `ProcessorError` is 6 (R201). -/
theorem Error.response_processorError (reason : Nat) : (Error.processorError reason).response = 0x0600000000000000#64 := by
  show responseWord 0x06#8 0#32 = 0x0600000000000000#64
  decide

/-- A result that agrees with an error is that error. -/
theorem Result.eq_error_of_agree {r : Result} {e : Error} (h : Result.agree r (.error e)) : r = .error e := by
  cases r with
  | ok v data u => exact h.elim
  | error e' => exact congrArg Result.error h

/-- An issued command fails alike in machines with the same bundle and configuration. -/
theorem performIssue_error_of_bundle {word : Word} {payload : List Word} {s t : State} {e : Error}
    (hb : s.bundle = t.bundle) (hc : s.config = t.config) (h : performIssue word payload t = .error e) :
    performIssue word payload s = .error e := by
  unfold performIssue at h ⊢
  cases hd : decodeCommand word (issuedPayload word payload) with
  | illegal why => rwa [hd] at h
  | command i =>
    rw [hd] at h
    have hagree := processorCommand_agree word i hb hc
    exact Result.eq_error_of_agree (h ▸ hagree)

/-- A command that fails on the host port fails when it is issued. -/
theorem performIssue_error_of_exec {i : Instr} (hi : Instr.issuable i) {t u : State} {e : Error}
    (hexec : exec i t = .next u) (herror : State.answeredError t u e) :
    performIssue (encodeHeader i) (encodePayload i) t = .error e := by
  obtain ⟨hwf, hstep⟩ := hi
  obtain ⟨-, hfaults⟩ := herror
  rw [performIssue_encode hwf]
  rcases exec_cases hstep (encodeHeader i) t with ⟨e', hcmd, he⟩ | ⟨v, data, w, -, -, hkept, -, he⟩ <;>
    obtain rfl := Host.Outcome.next.inj (hexec.symm.trans he)
  · obtain rfl : e' = e := by simpa using hfaults
    exact hcmd
  · simp [hkept] at hfaults

section
variable {s t : State} {steps : List (Instr × List Word)} {final : ProcAction}
  (hissuable : ∀ p ∈ steps, Instr.issuable p.1) (hissues : actionIssues steps s.procAction [] final)
  (hserved : servedAs steps s t)
include hissuable hissues hserved

/-- A STEP whose next command fails, or whose next word is no command, answers the error on both ports. -/
theorem exec_step_of_issue_error {word : Word} {payload : List Word} {next : ProcAction} {e : Error}
    (hfinal : final = .issue word payload next) (herror : performIssue word payload t = .error e) (delta : Half) :
    exec (.step delta) s =
      .next (((s.afterIssued steps t.bundle).raise .processor e).raise .host e) := by
  obtain ⟨hconfig, -⟩ := servedAs_keeps steps s hissuable hserved
  have hreached : performIssue word payload (s.afterIssued steps t.bundle) = .error e :=
    performIssue_error_of_bundle (t := t) rfl hconfig.symm herror
  obtain ⟨last, hexec⟩ := exec_step_of_servedAs hissuable hissues hserved delta
  rw [hexec, hfinal, runChain_issue_error hreached]; rfl

/-- A STEP whose instruction ends in `Fail` answers `ProcessorError` on the host port. -/
theorem exec_step_of_fail {reason : Nat} (hfinal : final = .fail reason) (delta : Half) :
    exec (.step delta) s = .next ((s.afterIssued steps t.bundle).raise .host (.processorError reason)) := by
  obtain ⟨last, hexec⟩ := exec_step_of_servedAs hissuable hissues hserved delta
  rw [hexec, hfinal]; rfl

end

/-- Settles O54: the chain ends in the machine with what the commands before the failure have written, to which only the
error's responses and its entries in `faults` are added. -/
theorem stepStopsAtTheFailingCommand : Obligations.StepStopsAtTheFailingCommand := by
  unfold Obligations.StepStopsAtTheFailingCommand
  intro s t delta steps final e last hissuable hissues hserved hfails
  have hresponse : ∀ reason, e = .processorError reason → e.response = 0x0600000000000000#64 :=
    fun reason he => he ▸ Error.response_processorError reason
  -- A command that fails on the host port is the second case: it fails when it is issued.
  rcases hfails.elim (fun ⟨i, next, u, hi, hfinal, hu, herror, hlast⟩ =>
      .inl ⟨_, _, _, hfinal, performIssue_error_of_exec hi hu herror, hlast⟩) id with
    ⟨word, payload, next, hfinal, herror, rfl⟩ | ⟨reason, hfinal, rfl, rfl⟩
  · exact ⟨_, exec_step_of_issue_error hissuable hissues hserved hfinal herror delta, rfl, rfl, rfl, rfl, rfl, rfl, rfl,
      rfl, ⟨[e] ++ [e], List.append_assoc .., by simp⟩, hresponse⟩
  · exact ⟨_, exec_step_of_fail hissuable hissues hserved hfinal delta, rfl, rfl, rfl, rfl, rfl, rfl, rfl,
      (List.append_nil _).symm, ⟨_, rfl, by simp⟩, hresponse⟩

/-! ## STEP as a whole (R181) -/

/-- Results that agree are answered with the same bundle and the same new entries in `faults`. -/
theorem State.reply_of_agree {s s' : State} (hb : s.bundle = s'.bundle) (hf : s.faults = s'.faults) (p : Port) :
    ∀ {r r' : Result}, r.bundleOnly s → r'.bundleOnly s' → r.agree r' →
      (s.reply p r).bundle = (s'.reply p r').bundle ∧ (s.reply p r).faults = (s'.reply p r').faults
  | .ok .., .ok .., ⟨_, hfaults, _⟩, ⟨_, hfaults', _⟩, ⟨_, _, hbundle⟩ => by
    cases p <;> exact ⟨hbundle, hfaults.trans (hf.trans hfaults'.symm)⟩
  | .error e, .error _, _, _, rfl => by
    cases p <;> exact ⟨hb, congrArg (· ++ [e]) hf⟩

/-- Machines with the same bundle, configuration and faults end an ADVANCE with the same bundle and faults, and with the
same one word of answer. -/
theorem exec_advance_of_bundle {delta : Half} {s s' t t' : State} (ht : exec (.advance delta) s = .next t)
    (ht' : exec (.advance delta) s' = .next t') (hb : s.bundle = s'.bundle) (hc : s.config = s'.config)
    (hf : s.faults = s'.faults) : t.bundle = t'.bundle ∧ t.faults = t'.faults ∧
      ∃ resp, t.hostOut = s.hostOut ++ [resp] ∧ t'.hostOut = s'.hostOut ++ [resp] := by
  have hagree : (cmdAdvance delta s).agree (cmdAdvance delta s') := processorCommand_agree 0#64 (.advance delta) hb hc
  have honly := cmdAdvance_bundleOnly delta s
  have honly' := cmdAdvance_bundleOnly delta s'
  obtain rfl : s.reply .host (cmdAdvance delta s) = t := Host.Outcome.next.inj ht
  obtain rfl : s'.reply .host (cmdAdvance delta s') = t' := Host.Outcome.next.inj ht'
  obtain ⟨hbundle, hfaults⟩ := State.reply_of_agree hb hf .host honly honly' hagree
  obtain ⟨resp, hwords⟩ : ∃ resp, (cmdAdvance delta s).words = [resp] := ⟨_, by rw [Result.words_eq, cmdAdvance_data]⟩
  exact ⟨hbundle, hfaults, resp, hwords ▸ State.reply_host_hostOut honly,
    hwords ▸ hagree.words_eq ▸ State.reply_host_hostOut honly'⟩

/-- Settles O52: where the instruction is done, both machines go on by ADVANCE from the same bundle; the other ends are
errors, which both ports answer. -/
theorem stepIsTheCommandsThenAdvance : Obligations.StepIsTheCommandsThenAdvance := by
  unfold Obligations.StepIsTheCommandsThenAdvance
  refine ⟨encodedAs_of_mem (by decide) fun _ => rfl, fun s t delta steps final hissuable hissues hserved =>
    ⟨fun u q hfinal hu => ?_, fun i next u e hi hfinal hu herror => ?_, fun word payload next e hfinal herror => ?_,
      fun reason hfinal => ?_⟩⟩
  · obtain ⟨v, hv⟩ := exec_next (.advance delta) ((s.afterIssued steps t.bundle).setProcQ q)
    obtain ⟨⟨hconfig, hin, hproc, hq, htable, hhung⟩, -⟩ := exec_effect (advance_ne_step delta) hv
    obtain ⟨hkept, hclean⟩ := servedAs_keeps steps s hissuable hserved
    obtain ⟨hbundle, hfaults, resp, hout, hout'⟩ := exec_advance_of_bundle hv hu rfl hkept.symm hclean.symm
    exact ⟨v, resp, (exec_step_of_done hissuable hissues hserved hfinal delta).trans hv, hbundle, hfaults, fun _ => hq,
      hout', hout, hproc, hconfig, hin, htable, hhung⟩
  · exact ⟨_, exec_step_of_issue_error hissuable hissues hserved hfinal (performIssue_error_of_exec hi hu herror) delta,
      rfl⟩
  · exact ⟨_, exec_step_of_issue_error hissuable hissues hserved hfinal herror delta, rfl⟩
  · refine ⟨_, exec_step_of_fail hissuable hissues hserved hfinal delta, ?_⟩
    rw [← Error.response_processorError reason]; rfl

end Sys2Proof.Machine
end

section
/-! Proofs for the family 60_exceptions.md: the commands that fail, what `faults` keeps, and that the machine never stops. -/

namespace Sys2Proof.Machine

/-! ## An index out of its space (R202) -/

/-- Settles O13: each of the seven commands checks its index against its space before all else. -/
theorem indexOutOfItsSpaceIsOutOfBounds : Obligations.IndexOutOfItsSpaceIsOutOfBounds := by
  unfold Obligations.IndexOutOfItsSpaceIsOutOfBounds
  intro s index v i sp hi
  obtain ⟨hstep, hge, r, hcmd⟩ : (∀ delta, i ≠ .step delta) ∧ sp.size ≤ index ∧
      ∃ r, processorCommand 0#64 i s = withIndex sp index r := by
    rcases hi with ⟨hge, rfl, rfl | rfl⟩ | ⟨hge, rfl, rfl | rfl | rfl⟩ | ⟨hge, rfl, rfl | ⟨code, rfl, rfl⟩⟩ <;>
      exact ⟨nofun, hge, _, rfl⟩
  obtain ⟨t, ht, hbundle, hsame, herror⟩ := exec_of_error hstep (hcmd.trans (withIndex_of_ge hge r))
  exact ⟨t, ht, hbundle, hsame, herror, Error.response_outOfBounds sp index⟩

/-! ## A command that fails (R209, R212) -/

/-- Settles O14: a command but STEP ends in an error or in a value, and either way writes the bundle alone. -/
theorem errorWritesNoBundleState : Obligations.ErrorWritesNoBundleState := by
  unfold Obligations.ErrorWritesNoBundleState
  intro s t i hi h
  rcases exec_cases hi 0#64 s with ⟨e, -, he⟩ | ⟨v, data, u, -, -, hfaults, hout, he⟩ <;>
    obtain rfl := Host.Outcome.next.inj (h.symm.trans he)
  · exact .inr ⟨State.raise_bundle .., ⟨rfl, rfl, rfl, rfl, rfl, rfl⟩, e, rfl, rfl⟩
  · exact .inl ⟨hfaults, v, data, congrArg (· ++ _) hout⟩

/-- A command that is answered with an error came to that error, and the answer leaves the bundle and the configuration. -/
theorem processorCommand_of_answeredError {i : Instr} (hi : ∀ delta, i ≠ .step delta) {s t : State} {e : Error}
    (h : exec i s = .next t) (herror : State.answeredError s t e) :
    processorCommand 0#64 i s = .error e ∧ t.bundle = s.bundle ∧ t.config = s.config := by
  obtain ⟨-, hnoted⟩ := herror
  rcases exec_cases hi 0#64 s with ⟨e', hcmd, he⟩ | ⟨v, data, u, -, -, hfaults, -, he⟩ <;>
    obtain rfl := Host.Outcome.next.inj (h.symm.trans he)
  · obtain rfl : e' = e := by simpa using hnoted
    exact ⟨hcmd, State.raise_bundle .., rfl⟩
  · simp [hfaults] at hnoted

/-- Settles O15: the failed command wrote neither the bundle nor the configuration, on which alone what a command comes to
depends. -/
theorem sameCommandFailsTheSameWayAgain : Obligations.SameCommandFailsTheSameWayAgain := by
  unfold Obligations.SameCommandFailsTheSameWayAgain
  intro s t u i e hi ht hu herror
  obtain ⟨hcmd, hbundle, hconfig⟩ := processorCommand_of_answeredError hi ht herror
  have hagree := processorCommand_agree 0#64 i hbundle hconfig
  rw [hcmd] at hagree
  obtain ⟨v, hv, -, -, hagain⟩ := exec_of_error hi (Result.eq_error_of_agree hagree)
  obtain rfl := Host.Outcome.next.inj (hu.symm.trans hv)
  exact hagain

/-! ## What `faults` keeps (R220) -/

@[simp] theorem State.send_faults (s : State) (p : Port) (ws : List Word) : (s.send p ws).faults = s.faults := by
  cases p <;> rfl

@[simp] theorem State.raise_faults (s : State) (p : Port) (e : Error) : (s.raise p e).faults = s.faults ++ [e] := by
  cases p <;> rfl

/-- Answering a command that writes the bundle alone adds at most its error to `faults`. -/
theorem State.reply_keeps_faults {s : State} {r : Result} (h : r.bundleOnly s) (p : Port) :
    s.faults <+: (s.reply p r).faults := by
  cases r with
  | error e => simp
  | ok v data u =>
    obtain ⟨-, hfaults, -⟩ := h
    simp [hfaults]

/-- Settles O16: every operation a step is made of leaves the list or adds to its end. -/
theorem faultsAreNeverRemoved : Obligations.FaultsAreNeverRemoved := by
  unfold Obligations.FaultsAreNeverRemoved
  intro s t h
  obtain ⟨es, hes⟩ : s.faults <+: t.faults := by
    refine step_keeps (P := fun u => s.faults <+: u.faults) ?_ ?_ ?_ ?_ ?_ ⟨[], List.append_nil _⟩ h
    · exact fun p w i u hu => hu.trans (State.reply_keeps_faults (processorCommand_bundleOnly w i u) p)
    · exact fun p e u hu => hu.trans (by simp)
    · exact fun _ _ hu => hu
    · exact fun _ hu => hu
    · exact fun _ _ hu => hu
  exact ⟨es, hes.symm⟩

/-! ## AccumulatorOverflow (R206) -/

/-- An update under SINGLE overflows exactly when the accumulator after the one permitted subtraction is 2^32 or more. -/
theorem Timer.updateSingle_eq_none_iff (p : Nat) (t : Timer) (delta : Half) : Timer.updateSingle p t delta = none ↔
    t.elapsed delta - (if t.elapsed delta ≥ p then p else 0) ≥ 2 ^ 32 := by
  have hcrossed : singleCrossings p (t.elapsed delta) * p = if t.elapsed delta ≥ p then p else 0 := by
    rw [singleCrossings, ite_mul, one_mul, zero_mul]
  simp [Timer.updateSingle_eq, hcrossed]

/-- Settles O42: under DRAIN both updates give a timer; under SINGLE the overflow of the delay timer's is looked for first. -/
theorem overflowOnlyUnderSingle : Obligations.OverflowOnlyUnderSingle := by
  unfold Obligations.OverflowOnlyUnderSingle
  intro s delta _ exceeds
  refine ⟨fun hm => ?_, fun hm => ?_⟩
  · exact ⟨_, exec_advance_of_some (Timer.update_drain hm ..) (Timer.update_drain hm ..), rfl⟩
  · have hnone : ∀ t : Timer, exceeds t ↔ Timer.update s.config t delta = none := fun t => by
      rw [Timer.update_single hm, Timer.updateSingle_eq_none_iff]; rfl
    simp only [hnone]
    cases hd : Timer.update s.config s.delay delta with
    | none =>
      obtain ⟨t, ht, -, -, herror⟩ := exec_of_error (advance_ne_step delta) (cmdAdvance_of_delay_none hd)
      exact ⟨t, ht, fun _ => herror, fun h => absurd rfl h, fun h => absurd rfl h⟩
    | some d =>
      cases ha : Timer.update s.config s.sound delta with
      | none =>
        obtain ⟨t, ht, -, -, herror⟩ := exec_of_error (advance_ne_step delta) (cmdAdvance_of_sound_none hd ha)
        exact ⟨t, ht, nofun, fun _ _ => herror, fun _ h => absurd rfl h⟩
      | some a => exact ⟨_, exec_advance_of_some hd ha, nofun, fun _ => nofun, fun _ _ => rfl⟩

/-! ## The machine never stops (R200, R210, R211, R221) -/

/-- Settles O10: a step without pending words holds the state, and so does every run of such steps. -/
theorem idleHoldsTheWholeState : Obligations.IdleHoldsTheWholeState := by
  unfold Obligations.IdleHoldsTheWholeState
  intro s n h
  have hfetch : fetch s.hostIn = .waiting := by rw [h, fetch]
  exact run_of_fixed Sys2Proof.core (step_of_waiting hfetch) n

/-- Every state has a next state, whatever is fetched. -/
theorem step_next (s : State) : ∃ t, step s = .next t := by
  cases hh : s.hung with
  | true => exact ⟨s, step_of_hung hh⟩
  | false =>
    cases hfetch : fetch s.hostIn with
    | waiting => exact ⟨s, step_of_waiting hfetch⟩
    | command i rest => exact step_of_command hh hfetch ▸ exec_next i _
    | illegal w rest => exact ⟨_, step_of_illegal hh hfetch⟩

/-- Settles O17: a step holds its state, serves a command or answers an illegal word, and every command has a next state. -/
theorem everyStepHasANextState : Obligations.EveryStepHasANextState := by
  unfold Obligations.EveryStepHasANextState
  exact ⟨step_next, exec_next⟩

/-! ## RomTooLarge (R203) -/

/-- The status of `RomTooLarge` is 2 (R201). -/
theorem Error.response_romTooLarge (length : Nat) : (Error.romTooLarge length).response = 0x0200000000000000#64 := by
  show responseWord 0x02#8 0#32 = 0x0200000000000000#64
  decide

theorem cmdLoadrom_of_gt {data : List Byte} (h : 3584 < data.length) (s : State) :
    cmdLoadrom data s = .error (.romTooLarge data.length) := by
  have htoo : romBase + data.length > Space.size .ram := Nat.add_lt_add_left h romBase
  rw [cmdLoadrom, if_pos htoo]

/-- Settles O37: the length is checked before anything is written. -/
theorem romTooLargeIsRejectedWhole : Obligations.RomTooLargeIsRejectedWhole := by
  unfold Obligations.RomTooLargeIsRejectedWhole
  intro s data h
  rw [exec_eq_reply 0#64 (i := .loadrom data) nofun, processorCommand, cmdLoadrom_of_gt h,
    ← Error.response_romTooLarge data.length]
  rfl

end Sys2Proof.Machine
end

section
/-! Proofs for the family 70_reset_and_hazards.md: what creation gives, that ADVANCEs add up, and how a re-armed timer keeps
its phase and its strobe. -/

namespace Sys2Proof.Machine

/-! ## Creation (R231, R37) -/

theorem State.create_eq_none_iff (c : Config) : State.create c = none ↔ ¬ c.wf = true := by simp [State.create]

theorem State.create_eq_some_iff (c : Config) (s : State) :
    State.create c = some s ↔ c.wf = true ∧ State.fresh c = s := by simp [State.create]

/-- A configuration is illegal by its period, the length of its font or the font's first byte (R231). -/
theorem Config.not_wf_iff (c : Config) : ¬ c.wf = true ↔
    c.tickPeriod = 0#32 ∨ c.font.length ≠ 80 ∨ c.font.head? ≠ some 0xF0#8 := by
  have hperiod : 1 ≤ c.tickPeriod.toNat ↔ c.tickPeriod ≠ 0#32 := by
    rw [Nat.one_le_iff_ne_zero, ne_eq, ne_eq, ← BitVec.toNat_inj, BitVec.toNat_zero]
  rw [Config.wf_iff, hperiod, not_and_or, not_and_or, not_ne_iff]

theorem State.fresh_readByte (c : Config) (sp : Space) (a : Nat) : (State.fresh c).readByte sp a = 0#8 := by
  cases sp <;> rfl

/-- Settles O58: creation looks at the configuration alone, and what it gives is the fresh state. -/
theorem creationRefusesOrStartsZeroed : Obligations.CreationRefusesOrStartsZeroed := by
  unfold Obligations.CreationRefusesOrStartsZeroed
  refine fun c => ⟨(State.create_eq_none_iff c).trans (Config.not_wf_iff c), fun s hs => ?_⟩
  obtain ⟨-, rfl⟩ := (State.create_eq_some_iff c s).1 hs
  exact ⟨rfl, rfl, rfl, rfl, State.fresh_readByte c⟩

/-! ## ADVANCE after a SET command -/

/-- Under a DRAIN configuration an ADVANCE runs R100's loop on both timers and answers 0. -/
theorem exec_advance_drain (s : State) (delta : Half) {c : Config} (hc : c.wf = true) (hm : c.tickMode = .drain)
    (hs : s.config = c) : exec (.advance delta) s =
      .next ((s.setTimers (Timer.updateLoop c.tickPeriod.toNat s.delay delta)
        (Timer.updateLoop c.tickPeriod.toNat s.sound delta)).send .host [0#64]) := by
  subst hs
  exact exec_advance_of_some (Timer.update_eq_updateLoop hc hm _ delta) (Timer.update_eq_updateLoop hc hm _ delta)

theorem exec_setdelay (v : Byte) (s : State) : exec (.setdelay v) s =
    .next ((s.setTimer .delay (s.delay.setCount v)).send .host [0#64]) := rfl

theorem exec_setsound (v : Byte) (s : State) : exec (.setsound v) s =
    .next ((s.setTimer .sound (s.sound.setCount v)).send .host [0#64]) := rfl

/-! ## Two deltas in a row (R246) -/

/-- The boundaries crossed by a second delta, on top of what the first left, are those of the sum. -/
theorem div_add_mod_add_div {p : Nat} (hp : 1 ≤ p) (m n : Nat) : m / p + (m % p + n) / p = (m + n) / p := by
  conv_rhs => rw [← Nat.div_add_mod m p, add_assoc, Nat.mul_add_div hp]

/-- R100's loop run for two deltas is the loop run for their sum, from any accumulator. -/
theorem Timer.updateLoop_updateLoop {p : Nat} (hp : 1 ≤ p) (hlt : p < 2 ^ 32) {a b : Half}
    (hab : a.toNat + b.toNat < 2 ^ 32) (t : Timer) :
    Timer.updateLoop p (Timer.updateLoop p t a) b = Timer.updateLoop p t (a + b) := by
  have hmod : t.elapsed a % p < 2 ^ 32 := (Nat.mod_lt _ hp).trans hlt
  have helapsed : t.elapsed (a + b) = t.elapsed a + b.toNat := by
    simp only [Timer.elapsed, BitVec.toNat_add_of_lt hab, add_assoc]
  have hsecond : (Timer.updateLoop p t a).elapsed b = t.elapsed a % p + b.toNat := by
    rw [Timer.elapsed, Timer.updateLoop_eq hp, Timer.crossed_accumulated _ _ hmod]
  calc Timer.updateLoop p (Timer.updateLoop p t a) b
      = (t.crossed (t.elapsed a / p) (t.elapsed a % p)).crossed ((t.elapsed a % p + b.toNat) / p)
          ((t.elapsed a % p + b.toNat) % p) := by rw [Timer.updateLoop_eq hp, hsecond, Timer.updateLoop_eq hp]
    _ = t.crossed ((t.elapsed a + b.toNat) / p) ((t.elapsed a + b.toNat) % p) := by
      rw [Timer.crossed_crossed, div_add_mod_add_div hp, Nat.mod_add_mod]
    _ = Timer.updateLoop p t (a + b) := by rw [Timer.updateLoop_eq hp, helapsed]

/-- A legal configuration under SINGLE, with a period of 1000. -/
def Config.singleThousand : Config := { tickPeriod := 1000#32, font := Config.suggestedFont, tickMode := .single }

/-- Under SINGLE a delta of one period leaves a zeroed timer zeroed. -/
theorem Timer.update_singleThousand_period :
    Timer.update Config.singleThousand Timer.zeroed 1000#32 = some Timer.zeroed := by
  decide

/-- Under SINGLE one delta of two periods leaves a period in a zeroed timer's accumulator. -/
theorem Timer.update_singleThousand_two_periods : Timer.update Config.singleThousand Timer.zeroed (1000#32 + 1000#32) =
    some { Timer.zeroed with accumulated := 1000#32 } := by
  decide

/-- Settles O43: under DRAIN each timer's two updates are one. Under SINGLE two deltas of a period leave the accumulators
at 0, and one delta of two periods leaves a period in them. -/
theorem advancesAddUp : Obligations.AdvancesAddUp := by
  unfold Obligations.AdvancesAddUp
  refine ⟨fun s a b hc hm hab => ?_, State.fresh Config.singleThousand, ?_⟩
  · obtain ⟨hperiod, -⟩ := (Config.wf_iff _).1 hc
    have hadd := Timer.updateLoop_updateLoop hperiod (Config.period_lt _) hab
    exact ⟨_, _, _, exec_advance_drain _ _ hc hm rfl, exec_advance_drain _ _ hc hm rfl, exec_advance_drain _ _ hc hm rfl,
      (State.bundle_eq_iff _ _).2 ⟨hadd s.delay, hadd s.sound, rfl, rfl, rfl⟩⟩
  · have hone := Timer.update_singleThousand_period
    have htwo := Timer.update_singleThousand_two_periods
    refine ⟨_, _, _, 1000#32, 1000#32, by decide, rfl, by decide, exec_advance_of_some hone hone,
      exec_advance_of_some hone hone, exec_advance_of_some htwo htwo, fun hbundle => ?_⟩
    have hdelay : Timer.zeroed = { Timer.zeroed with accumulated := 1000#32 } := congrArg Bundle.delay hbundle
    exact absurd hdelay (by decide)

/-! ## A timer set anew (R241, R242) -/

/-- The boundaries crossed are at least `m` once what was missing of the first period and `m - 1` further periods have
passed. -/
theorem Timer.le_elapsed_div_iff {p m : Nat} (hm : 1 ≤ m) {t : Timer} (hacc : t.accumulated.toNat < p) (delta : Half) :
    m ≤ t.elapsed delta / p ↔ (m - 1) * p + (p - t.accumulated.toNat) ≤ delta.toNat := by
  obtain ⟨j, rfl⟩ := Nat.exists_eq_add_of_le' hm
  rw [Nat.le_div_iff_mul_le (by omega), Timer.elapsed, Nat.add_one_mul, Nat.add_sub_cancel]
  omega

/-- A timer just set to `v` has made its first `m` decrements once `m` boundaries are crossed. -/
theorem Timer.updateLoop_setCount_le_iff {p m : Nat} {v : Byte} (hm : 1 ≤ m) (hmv : m ≤ v.toNat) {t : Timer}
    (hacc : t.accumulated.toNat < p) (delta : Half) :
    (Timer.updateLoop p (t.setCount v) delta).count.toNat ≤ v.toNat - m ↔
      (m - 1) * p + (p - t.accumulated.toNat) ≤ delta.toNat := by
  rw [← Timer.le_elapsed_div_iff hm hacc, Timer.updateLoop_eq (by omega), Timer.crossed_count,
    Timer.setCount_count, countAfter]
  show _ ↔ m ≤ (t.setCount v).elapsed delta / p
  omega

/-- Settles O45: SETDELAY and SETSOUND leave the accumulator, so that the next boundary comes when it would have come. -/
theorem armingKeepsThePhase : Obligations.ArmingKeepsThePhase := by
  unfold Obligations.ArmingKeepsThePhase
  intro s v delta m hs hmode hm hmv
  exact ⟨⟨_, _, exec_setdelay v s, exec_advance_drain _ _ hs.config_wf hmode rfl,
      Timer.updateLoop_setCount_le_iff hm hmv (hs.delay_inPeriod hmode) delta⟩,
    ⟨_, _, exec_setsound v s, exec_advance_drain _ _ hs.config_wf hmode rfl,
      Timer.updateLoop_setCount_le_iff hm hmv (hs.sound_inPeriod hmode) delta⟩⟩

/-- A flag that is up stays up exactly while no boundary is crossed at count 0 (R102). -/
theorem flagAfter_true_iff (k c : Nat) : flagAfter k c true = true ↔ k ≤ c := by
  rcases lt_trichotomy k c with hlt | rfl | hgt
  · exact iff_of_true (flagAfter_of_lt hlt true) hlt.le
  · refine iff_of_true ?_ le_rfl
    cases k with
    | zero => exact flagAfter_zero 0 true
    | succ n => exact flagAfter_self (Nat.le_add_left 1 n) true
  · exact iff_of_false (by simp [flagAfter_of_gt hgt]) (Nat.not_le.2 hgt)

/-- A timer whose flag is up, set to `v`, keeps the flag up through `v` boundaries and no more. -/
theorem Timer.updateLoop_setCount_flag_iff {p : Nat} (hp : 1 ≤ p) {t : Timer} (hflag : t.justCompleted = true) (v : Byte)
    (delta : Half) : (Timer.updateLoop p (t.setCount v) delta).justCompleted = true ↔ t.elapsed delta / p ≤ v.toNat := by
  rw [Timer.updateLoop_eq hp, Timer.crossed_justCompleted, Timer.setCount_justCompleted, hflag, flagAfter_true_iff]
  rfl

/-- Settles O46: SETSOUND leaves the flag up, and the loop takes it down only past the new count. -/
theorem strobeSurvivesARearm : Obligations.StrobeSurvivesARearm := by
  unfold Obligations.StrobeSurvivesARearm
  intro s v delta hc hm hflag _
  obtain ⟨hperiod, -⟩ := (Config.wf_iff _).1 hc
  refine ⟨_, _, _, exec_setsound v s, exec_advance_drain _ _ hc hm rfl, exec_playsound _, hflag, ?_⟩
  exact congrArg (_ ++ [·]) (if_congr (Timer.updateLoop_setCount_flag_iff hperiod hflag v delta) rfl rfl)

/-! ## One large delta (R243) -/

/-- More boundaries than the count had left: the count is used up and the flag is down. -/
theorem Timer.crossed_of_gt {t : Timer} {k : Nat} (h : t.count.toNat < k) (acc : Nat) :
    (t.crossed k acc).count = 0#8 ∧ (t.crossed k acc).justCompleted = false := by
  refine ⟨BitVec.eq_of_toNat_eq ?_, flagAfter_of_gt h _⟩
  rw [Timer.crossed_count, countAfter, BitVec.toNat_zero]
  omega

/-- One boundary at most, and a count that was not 0 before is 0: it has just been completed. -/
theorem Timer.crossed_flag_of_le_one {t : Timer} (hcount : t.count ≠ 0#8) {k : Nat} (hk : k ≤ 1) {acc : Nat}
    (hzero : (t.crossed k acc).count = 0#8) : (t.crossed k acc).justCompleted = true := by
  have hpositive : 0 < t.count.toNat := Nat.pos_of_ne_zero fun h => hcount (BitVec.eq_of_toNat_eq h)
  have hafter := congrArg BitVec.toNat hzero
  rw [Timer.crossed_count, countAfter, BitVec.toNat_zero] at hafter
  obtain rfl : k = t.count.toNat := by omega
  exact flagAfter_self hpositive _

/-- A delta below the period crosses at most one boundary, if the accumulator was below it too. -/
theorem Timer.elapsed_div_le_one {p : Nat} {t : Timer} (hacc : t.accumulated.toNat < p) {delta : Half}
    (hdelta : delta.toNat < p) : t.elapsed delta / p ≤ 1 := by
  refine Nat.le_of_lt_succ ((Nat.div_lt_iff_lt_mul (by omega)).2 ?_)
  rw [Timer.elapsed]
  omega

/-- Settles O47: the flag after one ADVANCE is told by the boundaries crossed against the count before. -/
theorem strobeIsLostOnlyByALargeDelta : Obligations.StrobeIsLostOnlyByALargeDelta := by
  unfold Obligations.StrobeIsLostOnlyByALargeDelta
  intro s delta hs hm hcount
  obtain ⟨hperiod, -⟩ := (Config.wf_iff _).1 hs.config_wf
  refine ⟨_, exec_advance_drain _ _ hs.config_wf hm rfl, ?_⟩
  simp only [State.send_host_sound, State.setTimers_sound, Timer.updateLoop_eq hperiod]
  refine ⟨fun hmany => Timer.crossed_of_gt hmany _, fun hdelta => ?_⟩
  have hone := Timer.elapsed_div_le_one (hs.sound_inPeriod hm) hdelta
  exact ⟨hone, Timer.crossed_flag_of_le_one hcount hone⟩

end Sys2Proof.Machine
end
